-- ==== Sys2Proof/Word.lean ====
section
/-! DEFINITION. The word types of the block (spec/00_scope.md R13, R14, R16, R17): 32-bit words, message bytes,
binary32 data as their bits, and the sample pair. -/

namespace Sys2Proof

/-- A byte of a message or of a byte-serial transport (R49, R51). -/
abbrev Byte := BitVec 8

/-- A command word, a response word, a register or a u32 state element (R13). -/
abbrev Word := BitVec 32

/-- An IEEE 754 binary32 datum, held as its bits (R16). -/
abbrev F32 := BitVec 32

/-- A sample: `i` the in-phase and `q` the quadrature component (R17). -/
structure Sample where
  i : F32
  q : F32
  deriving DecidableEq, Repr, Inhabited

end Sys2Proof
end

