-- ==== Sys2Proof/Machine/F32.lean ====
section
/-! DEFINITION. IEEE 754 binary32 under roundTiesToEven (spec/00_scope.md R16), computed exactly on integers and
rounded once. A finite datum is an integer number of units of 2^-149, the smallest subnormal. -/

namespace Sys2Proof.Machine

/-! ## Fields and classes -/

/-- The exponent field. -/
def f32Exp (a : F32) : Nat := a.toNat / 2 ^ 23 % 2 ^ 8

/-- The fraction field. -/
def f32Frac (a : F32) : Nat := a.toNat % 2 ^ 23

/-- The sign bit. -/
def f32Neg (a : F32) : Bool := a.msb

/-- The bits below the sign. -/
def f32Mag (a : F32) : Nat := a.toNat % 2 ^ 31

def f32IsNan (a : F32) : Bool := f32Exp a == 255 && f32Frac a != 0

def f32IsInf (a : F32) : Bool := f32Exp a == 255 && f32Frac a == 0

def f32IsZero (a : F32) : Bool := f32Mag a == 0

def f32IsFinite (a : F32) : Bool := f32Exp a != 255

/-- The magnitude of a finite datum in units of 2^-149, subnormals included (no flush to zero). -/
def f32Units (a : F32) : Nat :=
  if f32Exp a = 0 then f32Frac a else (2 ^ 23 + f32Frac a) * 2 ^ (f32Exp a - 1)

/-- The signed value of a finite datum in units of 2^-149. -/
def f32Int (a : F32) : Int := if f32Neg a then -(f32Units a : Int) else f32Units a

/-- One in units of 2^-149. -/
def f32One : Nat := 2 ^ 149

/-! ## Rounding -/

/-- The integer nearest `n / d`, ties to even. -/
def rneDiv (n d : Nat) : Nat :=
  let q := n / d
  let r := n % d
  if d < 2 * r ∨ (2 * r = d ∧ q % 2 = 1) then q + 1 else q

/-- The bits of +infinity. -/
def f32InfBits : Nat := 0x7F800000

/-- The sign-less bits of the binary32 value nearest `n / d` units, with overflow to infinity: the quantum is
2^s units, where a 24-bit significand fits, and a carry out of the significand runs into the exponent. -/
def rneBits (n d : Nat) : Nat :=
  let s := Nat.log2 (n / d) - 23
  min (s * 2 ^ 23 + rneDiv n (d * 2 ^ s)) f32InfBits

/-- A datum from its sign and its other bits. -/
def f32Pack (neg : Bool) (bits : Nat) : F32 := BitVec.ofNat 32 ((if neg then 2 ^ 31 else 0) + bits)

/-- rne32 of the exact value `x / d` units; rne32 of zero is +0.0 (R16). -/
def rne32 (x : Int) (d : Nat) : F32 := f32Pack (decide (x < 0)) (rneBits x.natAbs d)

/-! ## Operations. `nan` is CANON_NAN (R12): every NaN result is replaced by it. -/

/-- f32_abs: clears the sign bit. -/
def f32Abs (a : F32) : F32 := a &&& 0x7FFFFFFF#32

/-- The datum with its sign bit inverted. -/
def f32Negate (a : F32) : F32 := a ^^^ 0x80000000#32

/-- f32_mul. -/
def f32Mul (nan a b : F32) : F32 :=
  let neg := xor (f32Neg a) (f32Neg b)
  if f32IsNan a || f32IsNan b then nan
  else if f32IsInf a || f32IsInf b then
    if f32IsZero a || f32IsZero b then nan else f32Pack neg f32InfBits
  else f32Pack neg (rneBits (f32Units a * f32Units b) f32One)

/-- f32_div. -/
def f32Div (nan a b : F32) : F32 :=
  let neg := xor (f32Neg a) (f32Neg b)
  if f32IsNan a || f32IsNan b then nan
  else if f32IsInf a then
    if f32IsInf b then nan else f32Pack neg f32InfBits
  else if f32IsInf b then f32Pack neg 0
  else if f32IsZero b then
    if f32IsZero a then nan else f32Pack neg f32InfBits
  else f32Pack neg (rneBits (f32Units a * f32One) (f32Units b))

/-- f32_add. An exact sum of zero is +0.0, unless both operands are negative zeros. -/
def f32Add (nan a b : F32) : F32 :=
  if f32IsNan a || f32IsNan b then nan
  else if f32IsInf a then
    if f32IsInf b && (f32Neg a != f32Neg b) then nan else a
  else if f32IsInf b then b
  else if f32Int a + f32Int b = 0 then f32Pack (f32Neg a && f32Neg b) 0
  else rne32 (f32Int a + f32Int b) 1

/-- f32_sub. -/
def f32Sub (nan a b : F32) : F32 := f32Add nan a (f32Negate b)

/-- The key that orders data which are not NaN: the sign-less bits with the sign, so that both zeros are 0. -/
def f32Key (a : F32) : Int := if f32Neg a then -(f32Mag a : Int) else f32Mag a

/-- f32_le: the ordered comparison, false if either operand is NaN. -/
def f32Le (a b : F32) : Bool :=
  !f32IsNan a && !f32IsNan b && decide (f32Key a ≤ f32Key b)

/-- `v` held within the signed 32-bit range. -/
def clampS32 (v : Int) : Int := max (-2 ^ 31) (min v (2 ^ 31 - 1))

/-- cvt_i32 (spec/43_modulator.md R121): NaN gives 0, else the nearest integer, ties to even, clamped. -/
def cvtI32 (a : F32) : Int :=
  if f32IsNan a then 0
  else if f32IsInf a then if f32Neg a then -2 ^ 31 else 2 ^ 31 - 1
  else
    let m := rneDiv (f32Units a) f32One
    clampS32 (if f32Neg a then -(m : Int) else m)

end Sys2Proof.Machine
end

