-- ==== Sys2Proof/Syntax.lean ====
section
/-! DEFINITION. The command set of the block: one constructor of `Instr` per row of spec/opcode_table.json
(spec/30_encoding.md R66), operands already turned into names and values. -/

namespace Sys2Proof

/-- A channel of the complex tone generator: 0 = TONE, 1 = CARRIER (R22, R32). -/
inductive Channel where
  | tone
  | carrier
  deriving DecidableEq, Repr

/-- The configuration registers, selectors 0x00 to 0x07 (R31). -/
inductive CfgReg where
  | sampleRate
  | toneFreq
  | carrierFreq
  | modKind
  | modIndex
  | wpm
  | padding
  | bufLen
  deriving DecidableEq, Repr

/-- Every register RDCFG reads: the configuration registers (R31), STATUS (R41), the readback registers and the
constants (R42). -/
inductive ReadReg where
  | cfg (r : CfgReg)
  | status
  | patLen
  | ditLen
  | cwIndex
  | cwCount
  | cwGate
  | toneL
  | toneCursor
  | carrierL
  | carrierCursor
  | pilot
  | fmK
  | fmPhase
  | frameCount
  | sinkErrCount
  | capTable
  | capPattern
  | capBuf
  | zcEps
  deriving DecidableEq, Repr

/-- The eleven commands. A command with a payload carries it decoded, and its count operand is the payload's length:
`encode` the message bytes (R97), `gate` the samples (R109), `mod` pairs of a carrier and a baseband sample (R125). -/
inductive Instr where
  | nop
  | wrcfg (r : CfgReg) (v : Word)
  | rdcfg (r : ReadReg)
  | gen (ch : Channel) (n : Word)
  | release (ch : Channel)
  | encode (msg : List Byte)
  | gate (buf : List Sample)
  | mod (buf : List (Sample × Sample))
  | setup
  | run
  | stop
  deriving DecidableEq, Repr

end Sys2Proof
end

