-- ==== Sys2Proof/WellFormed.lean ====
section
/-! DEFINITION. Which instructions have an encoding: the count operand W1 is an unsigned 32-bit word (R64), so a
payload of 2^32 or more elements has none. Every other field is legal by its type. -/

namespace Sys2Proof

/-- A payload's element count fits the operand word W1 (R64). -/
def countFits (n : Nat) : Bool := decide (n < 2 ^ 32)

/-- The instruction can be written as command words. -/
def Instr.wellFormed : Instr → Bool
  | .nop => true
  | .wrcfg _ _ => true
  | .rdcfg _ => true
  | .gen _ _ => true
  | .release _ => true
  | .encode msg => countFits msg.length
  | .gate buf => countFits buf.length
  | .mod buf => countFits buf.length
  | .setup => true
  | .run => true
  | .stop => true

end Sys2Proof
end

