-- ==== Sys2Proof/Decode.lean ====
section
/-! DEFINITION. The decoder, total on any words and on any bytes, and after it the encoder, both written from
spec/30_encoding.md (fields R63, operand R64, length R65, opcode map R66, selectors R67, check order R68) and the wire
formats of spec/20_memory.md (R49 to R51). -/

namespace Sys2Proof

/-! ## Words and bytes -/

/-- The word whose bytes, least significant first, are `a b c d` (R49). -/
def wordOfBytes (a b c d : Byte) : Word := d ++ c ++ b ++ a

/-- The four bytes of a word, least significant first (R49). -/
def bytesOfWord (w : Word) : List Byte :=
  [w.extractLsb' 0 8, w.extractLsb' 8 8, w.extractLsb' 16 8, w.extractLsb' 24 8]

/-- Bytes grouped into words four at a time (R52), and the bytes of the word that is not complete. -/
def groupBytes : List Byte → List Word × List Byte
  | a :: b :: c :: d :: rest =>
    let more := groupBytes rest
    (wordOfBytes a b c d :: more.1, more.2)
  | part => ([], part)

/-- Message bytes packed into payload words, the unused bytes of the last word zero (R51, R97). -/
def packBytes : List Byte → List Word
  | [] => []
  | [a] => [wordOfBytes a 0 0 0]
  | [a, b] => [wordOfBytes a b 0 0]
  | [a, b, c] => [wordOfBytes a b c 0]
  | a :: b :: c :: d :: rest => wordOfBytes a b c d :: packBytes rest

/-- The first `nb` bytes that payload words carry; the bits above byte `nb - 1` are ignored (R97). -/
def messageBytes (nb : Nat) (payload : List Word) : List Byte :=
  (payload.flatMap bytesOfWord).take nb

/-- A sample as two words, I then Q (R50). -/
def sampleWords (s : Sample) : List Word := [s.i, s.q]

/-- The wire format of a buffer: sample 0 first, no header (R50). -/
def bufferWords (buf : List Sample) : List Word := buf.flatMap sampleWords

/-- The samples that words carry, two words a sample (R50). -/
def samplesOfWords : List Word → List Sample
  | i :: q :: rest => ⟨i, q⟩ :: samplesOfWords rest
  | _ => []

/-- The MOD payload, four words a pair: carrier I, carrier Q, baseband I, baseband Q (R125). -/
def pairsOfWords : List Word → List (Sample × Sample)
  | ci :: cq :: bi :: bq :: rest => (⟨ci, cq⟩, ⟨bi, bq⟩) :: pairsOfWords rest
  | _ => []

/-! ## Fields, opcodes and selectors -/

/-- OPC, bits 31 to 24 of the header word (R63). -/
def opcField (w0 : Word) : BitVec 8 := w0.extractLsb' 24 8

/-- SEL, bits 23 to 16 of the header word (R63). -/
def selField (w0 : Word) : BitVec 8 := w0.extractLsb' 16 8

/-- RSV, bits 15 to 0 of the header word (R63). -/
def rsvField (w0 : Word) : BitVec 16 := w0.extractLsb' 0 16

/-- A channel's selector (R66). -/
def channelSel : Channel → BitVec 8
  | .tone => 0x00
  | .carrier => 0x01

/-- The channel a selector names (R67). -/
def channelOfSel (sel : BitVec 8) : Option Channel :=
  match sel.toNat with
  | 0x00 => some .tone
  | 0x01 => some .carrier
  | _ => none

/-- A configuration register's selector (R31). -/
def cfgSel : CfgReg → BitVec 8
  | .sampleRate => 0x00
  | .toneFreq => 0x01
  | .carrierFreq => 0x02
  | .modKind => 0x03
  | .modIndex => 0x04
  | .wpm => 0x05
  | .padding => 0x06
  | .bufLen => 0x07

/-- The writable register a selector names (R31, R67). -/
def cfgOfSel (sel : BitVec 8) : Option CfgReg :=
  match sel.toNat with
  | 0x00 => some .sampleRate
  | 0x01 => some .toneFreq
  | 0x02 => some .carrierFreq
  | 0x03 => some .modKind
  | 0x04 => some .modIndex
  | 0x05 => some .wpm
  | 0x06 => some .padding
  | 0x07 => some .bufLen
  | _ => none

/-- A readable register's selector (R31, R41, R42). -/
def readSel : ReadReg → BitVec 8
  | .cfg r => cfgSel r
  | .status => 0x10
  | .patLen => 0x11
  | .ditLen => 0x12
  | .cwIndex => 0x13
  | .cwCount => 0x14
  | .cwGate => 0x15
  | .toneL => 0x16
  | .toneCursor => 0x17
  | .carrierL => 0x18
  | .carrierCursor => 0x19
  | .pilot => 0x1A
  | .fmK => 0x1B
  | .fmPhase => 0x1C
  | .frameCount => 0x1D
  | .sinkErrCount => 0x1E
  | .capTable => 0x20
  | .capPattern => 0x21
  | .capBuf => 0x22
  | .zcEps => 0x23

/-- The read-only register a selector names (R41, R42). -/
def readOnlyOfSel (sel : BitVec 8) : Option ReadReg :=
  match sel.toNat with
  | 0x10 => some .status
  | 0x11 => some .patLen
  | 0x12 => some .ditLen
  | 0x13 => some .cwIndex
  | 0x14 => some .cwCount
  | 0x15 => some .cwGate
  | 0x16 => some .toneL
  | 0x17 => some .toneCursor
  | 0x18 => some .carrierL
  | 0x19 => some .carrierCursor
  | 0x1A => some .pilot
  | 0x1B => some .fmK
  | 0x1C => some .fmPhase
  | 0x1D => some .frameCount
  | 0x1E => some .sinkErrCount
  | 0x20 => some .capTable
  | 0x21 => some .capPattern
  | 0x22 => some .capBuf
  | 0x23 => some .zcEps
  | _ => none

/-- The readable register a selector names (R67: 0x00 to 0x07, 0x10 to 0x1E, 0x20 to 0x23). -/
def readOfSel (sel : BitVec 8) : Option ReadReg :=
  match cfgOfSel sel with
  | some r => some (.cfg r)
  | none => readOnlyOfSel sel

/-- Payload length in words, from OPC and W1 only (R65). -/
def payloadLength (w0 w1 : Word) : Nat :=
  match (opcField w0).toNat with
  | 0x05 => (w1.toNat + 3) / 4
  | 0x06 => 2 * w1.toNat
  | 0x07 => 4 * w1.toNat
  | _ => 0

/-! ## The decoder -/

/-- Why a command is illegal: the detail codes of ILLEGAL_COMMAND (R68, R140). -/
inductive IllegalDetail where
  /-- OPC is undefined. -/
  | opcode
  /-- RSV is not zero. -/
  | reservedBits
  /-- SEL is not legal for the opcode. -/
  | selector
  /-- W1 is not zero where it must be. -/
  | operand
  deriving DecidableEq, Repr

/-- A check that ends the decoding with a detail when it fails. -/
def demand (ok : Bool) (d : IllegalDetail) : Except IllegalDetail Unit :=
  if ok then .ok () else .error d

/-- A selector that must name something (R67). -/
def named {α : Type} (found : Option α) : Except IllegalDetail α :=
  match found with
  | some a => .ok a
  | none => .error .selector

/-- SEL and W1 of a command that has no operand, both 0x00 (R64, R67), SEL checked first (R68). -/
def bare (w0 w1 : Word) (i : Instr) : Except IllegalDetail Instr := do
  demand (selField w0 == 0) .selector
  demand (w1 == 0) .operand
  return i

/-- One command, its payload words given: the checks of R68 in its order, then the operands. -/
def decodeCommand (w0 w1 : Word) (payload : List Word) : Except IllegalDetail Instr := do
  demand (decide ((opcField w0).toNat ≤ 0x0A)) .opcode
  demand (rsvField w0 == 0) .reservedBits
  match (opcField w0).toNat with
  | 0x00 => bare w0 w1 .nop
  | 0x01 =>
    let r ← named (cfgOfSel (selField w0))
    return .wrcfg r w1
  | 0x02 =>
    let r ← named (readOfSel (selField w0))
    demand (w1 == 0) .operand
    return .rdcfg r
  | 0x03 =>
    let ch ← named (channelOfSel (selField w0))
    return .gen ch w1
  | 0x04 =>
    let ch ← named (channelOfSel (selField w0))
    demand (w1 == 0) .operand
    return .release ch
  | 0x05 =>
    demand (selField w0 == 0) .selector
    return .encode (messageBytes w1.toNat payload)
  | 0x06 =>
    demand (selField w0 == 0) .selector
    return .gate (samplesOfWords payload)
  | 0x07 =>
    demand (selField w0 == 0) .selector
    return .mod (pairsOfWords payload)
  | 0x08 => bare w0 w1 .setup
  | 0x09 => bare w0 w1 .run
  | 0x0A => bare w0 w1 .stop
  | _ => .error .opcode

/-- What the words at the head of the command stream are. -/
inductive Decoded where
  /-- Not all the words of the command have arrived: the block waits (R52). -/
  | incomplete
  /-- An illegal command, and the words after it: its payload is consumed all the same (R65, R68). -/
  | illegal (d : IllegalDetail) (rest : List Word)
  /-- A well-formed command, and the words after it. -/
  | command (i : Instr) (rest : List Word)
  deriving DecidableEq, Repr

/-- The decoder: the command at the head of a word stream. -/
def decode (ws : List Word) : Decoded :=
  match ws with
  | w0 :: w1 :: rest =>
    let n := payloadLength w0 w1
    if rest.length < n then .incomplete
    else
      match decodeCommand w0 w1 (rest.take n) with
      | .error d => .illegal d (rest.drop n)
      | .ok i => .command i (rest.drop n)
  | _ => .incomplete

/-- The decoder on a byte-serial transport: bytes grouped into words from the first one (R52). -/
def decodeBytes (bs : List Byte) : Decoded := decode (groupBytes bs).1

/-- The complete commands at the head of a word stream, an incomplete last one left out; `fuel` bounds their number. -/
def completeCommands : Nat → List Word → List Word
  | fuel + 1, w0 :: w1 :: rest =>
    let n := payloadLength w0 w1
    if rest.length < n then []
    else w0 :: w1 :: rest.take n ++ completeCommands fuel (rest.drop n)
  | _, _ => []

/-! ## The encoder -/

/-- A header word: OPC, SEL, and RSV zero (R63). -/
def header (opc sel : BitVec 8) : Word := opc ++ sel ++ (0 : BitVec 16)

/-- A count operand (R64). -/
def countWord (n : Nat) : Word := BitVec.ofNat 32 n

/-- The command words of an instruction (R63 to R66). -/
def encode : Instr → List Word
  | .nop => [header 0x00 0, 0]
  | .wrcfg r v => [header 0x01 (cfgSel r), v]
  | .rdcfg r => [header 0x02 (readSel r), 0]
  | .gen ch n => [header 0x03 (channelSel ch), n]
  | .release ch => [header 0x04 (channelSel ch), 0]
  | .encode msg => header 0x05 0 :: countWord msg.length :: packBytes msg
  | .gate buf => header 0x06 0 :: countWord buf.length :: bufferWords buf
  | .mod buf =>
    header 0x07 0 :: countWord buf.length :: buf.flatMap (fun p => sampleWords p.1 ++ sampleWords p.2)
  | .setup => [header 0x08 0, 0]
  | .run => [header 0x09 0, 0]
  | .stop => [header 0x0A 0, 0]

/-- The one pseudo-command, RDSTAT (R73): RDCFG STATUS. -/
def rdstat : Instr := .rdcfg .status

/-! ## The opcode table's numbering -/

/-- The words of an instruction whose bits are `w` as spec/opcode_table.json numbers them (bit 0 the least significant
bit of W0, W1 above it), every bit from `nbits` up zero, long enough for the whole command. -/
def tableWords (nbits w : Nat) : List Word :=
  let v := w % 2 ^ nbits
  let given := (List.range (max 2 ((nbits + 31) / 32))).map (fun k => BitVec.ofNat 32 (v / 2 ^ (32 * k)))
  let missing := 2 + payloadLength (given.getD 0 0) (given.getD 1 0) - given.length
  given ++ List.replicate missing 0

/-- The instruction the decoder reads from those words. -/
def decodeTableWord (nbits w : Nat) : Option Instr :=
  match decode (tableWords nbits w) with
  | .command i _ => some i
  | .illegal _ _ => none
  | .incomplete => none

end Sys2Proof
end

