-- ==== Sys2Proof/Config.lean ====
section
/-! DEFINITION. What one build of the block fixes (spec/00_scope.md R12), and the free values: what the spec leaves
open and the model never chooses. A `Params` is plain data, so a state carries the parameters of its build and a
statement about every state is a statement about every build. -/

namespace Sys2Proof

/-- Which table a ROM holds. R12 makes TRIG and FMROT parameters, "any total function": `correctlyRounded` is the
spec's default table (R79, R122); `other tag` is any other table, whose contents are a free value. -/
inductive Rom where
  | correctlyRounded
  | other (tag : Nat)
  deriving DecidableEq, Repr, Inhabited

/-- The implementation parameters of R12. -/
structure Params where
  /-- TABLE_CAPACITY: the largest period length a period buffer holds. -/
  tableCapacity : Word
  /-- PATTERN_CAPACITY: the capacity of the pattern RAM, in slots. -/
  patternCapacity : Word
  /-- BUF_MAX: the largest frame length and the largest count of GEN, GATE and MOD. -/
  bufMax : Word
  /-- ZC_EPS: the half-width of the zero-crossing band. -/
  zcEps : F32
  /-- HAS_FM: whether the FM phase modulator is present. -/
  hasFm : Bool
  /-- TRIG: the sample-table ROM. -/
  trig : Rom
  /-- FMROT: the FM rotation ROM. -/
  fmrot : Rom
  /-- CANON_NAN: the NaN that every binary32 operation returns. -/
  canonNan : F32
  deriving DecidableEq, Repr

/-- The reference configuration: the default column of R12. -/
def Params.reference : Params where
  tableCapacity := 65536
  patternCapacity := 16384
  bufMax := 1048576
  zcEps := 0x3A800000
  hasFm := false
  trig := .correctlyRounded
  fmrot := .correctlyRounded
  canonNan := 0x7FC00000

namespace Config

/-- FREE VALUE. Slot `k` of a period of length `l` in the sample-table ROM `Rom.other tag` (R12, TRIG). -/
opaque freeTrig (tag l k : Nat) : Sample

/-- FREE VALUE. The rotation for a phase word in the FM rotation ROM `Rom.other tag` (R12, FMROT). -/
opaque freeRotation (tag : Nat) (phase : Word) : Sample

/-- FREE VALUE. What a period buffer slot that no build has written holds (R32, R159: unspecified, never read while
the block's invariants hold). -/
opaque unwrittenSample (channel slot : Nat) : Sample

/-- FREE VALUE. What a pattern slot that no ENCODE has written holds (R35, R159: unspecified, never read while the
block's invariants hold). -/
opaque unwrittenSlot (slot : Nat) : Bool

/-- FREE VALUE. Whether the engine, and not the host, takes the next step when both could and no turn is scripted
(R56: the interleaving is not fixed). -/
opaque engineMovesNext (draw : Nat) : Bool

/-- FREE VALUE. The sink's answer to a write when none is scripted (R132: "a draw: any value is possible"). -/
opaque sinkAnswer (draw : Nat) : Word

end Config

end Sys2Proof
end

