-- ==== Sys2Proof/Machine/State.lean ====
section
/-! DEFINITION. The state of the block (spec/10_state.md), as plain data, and the state after reset (R44). The records
carry the source's own names: GeneratorState, MorsePattern, CWState. `Environment` is not state of the block (R43): it
is the streams and the inputs through which the host and the sink are seen. -/

namespace Sys2Proof.Machine

/-- Why the machine stops with a fault. NEVER RAISED: the block has no trap, no fatal state and no halt (R139, R149),
so the type has no constructor. Safe. -/
inductive Fault where
  deriving DecidableEq, Repr

/-- Why an instruction has no meaning. -/
inductive Refusal where
  /-- An arm of `exec` that has no meaning yet; no arm raises it now. Safe: the model stops where the block goes on. -/
  | notModelled (mnemonic : String)
  deriving DecidableEq, Repr

/-- The operating mode (R27). -/
inductive Mode where
  | idle
  | running
  deriving DecidableEq, Repr

/-- The configuration registers (R31), each plain 32-bit storage. -/
structure CfgRegs where
  sampleRate : Word
  toneFreq : Word
  carrierFreq : Word
  modKind : Word
  modIndex : Word
  wpm : Word
  padding : Word
  bufLen : Word
  deriving DecidableEq, Repr

/-- One channel (R32): `built`, the period length `len`, the phase accumulator `cursor` and the period buffer `buf`.
Slot `k` of the buffer is `buf[k]`; slots at or beyond `buf.length` have not been written since reset. -/
structure GeneratorState where
  built : Bool
  len : Word
  cursor : Word
  buf : List Sample
  deriving DecidableEq, Repr

/-- The Morse pattern (R35). Slot `k` is `slots[k]`; slots at or beyond `slots.length` have not been written since
reset. -/
structure MorsePattern where
  slots : List Bool
  len : Word
  trunc : Bool
  deriving DecidableEq, Repr

/-- The CW gate state (R36): pattern index, gate value (true = pass), countdown, and the dit length. -/
structure CWState where
  index : Word
  gate : Bool
  count : Word
  ditLen : Word
  deriving DecidableEq, Repr

/-- The modulator state (R38): pilot scale, FM phase-increment scale, FM phase accumulator. -/
structure ModulatorState where
  pilot : F32
  fmK : F32
  fmPhase : Word
  deriving DecidableEq, Repr

/-- The agents that compete for a step while the block runs (R23). -/
inductive Agent where
  | host
  | engine
  deriving DecidableEq, Repr

/-- The outside of the block: streams (R46) and inputs. Not state of the block (R43).

`cmdIn` holds the command words received and not yet consumed, oldest first, `rxBytes` the bytes of a word that a
byte-serial transport has not completed (R52). `responses` and `sinkWrites` are everything the block has put on the
response stream and handed to the sink, oldest first. `turns` and `answers` script the interleaving (R56) and the
sink's answers (R132); where a script is empty the step draws the free value of `Config` at `draws`. `resetReq` is the
reset input (R158). -/
structure Environment where
  cmdIn : List Word
  rxBytes : List Byte
  responses : List Word
  sinkWrites : List (List Sample)
  turns : List Agent
  answers : List Word
  draws : Nat
  resetReq : Bool
  deriving DecidableEq, Repr

/-- The whole state. `hw` is the build of the block (R12): no step changes it. -/
structure State where
  /-- R27 -/
  mode : Mode
  /-- R28 -/
  sessionValid : Bool
  /-- R29 -/
  stopReq : Bool
  /-- R31 -/
  cfg : CfgRegs
  /-- R32, channel 0 -/
  tone : GeneratorState
  /-- R32, channel 1 -/
  carrier : GeneratorState
  /-- R35 -/
  pat : MorsePattern
  /-- R36 -/
  cw : CWState
  /-- R38 -/
  modu : ModulatorState
  /-- R39 -/
  frameCount : Word
  /-- R39 -/
  sinkErrCount : Word
  /-- R40 -/
  lastErr : BitVec 8
  /-- R40 -/
  lastDetail : BitVec 8
  /-- R12, R43: the parameters, fixed for a given block -/
  hw : Params
  /-- R43, R46: the streams and inputs -/
  env : Environment
  deriving DecidableEq, Repr

/-- A channel that is not built (R32, reset values; R87). The buffer's contents are kept. -/
def GeneratorState.released (g : GeneratorState) : GeneratorState :=
  { g with built := false, len := 0, cursor := 0 }

/-- A channel after reset: not built, no slot of its period buffer written (R32, R159). -/
def GeneratorState.empty : GeneratorState where
  built := false
  len := 0
  cursor := 0
  buf := []

/-- The environment before anything has happened: nothing received, nothing sent, nothing scripted. -/
def Environment.quiet : Environment where
  cmdIn := []
  rxBytes := []
  responses := []
  sinkWrites := []
  turns := []
  answers := []
  draws := 0
  resetReq := false

/-- The state after reset (R44), of a block of the reference configuration (R12). -/
def State.reset : State where
  mode := .idle
  sessionValid := false
  stopReq := false
  cfg := ⟨0, 0, 0, 0, 0, 0, 0, 0⟩
  tone := .empty
  carrier := .empty
  pat := ⟨[], 0, false⟩
  cw := ⟨0, true, 0, 0⟩
  modu := ⟨0, 0, 0⟩
  frameCount := 0
  sinkErrCount := 0
  lastErr := 0
  lastDetail := 0
  hw := .reference
  env := .quiet

end Sys2Proof.Machine
end

