-- ==== Sys2Proof/Machine/Flags.lean ====
section
/-! DEFINITION. The status and detail codes (spec/60_exceptions.md R140), the status word of a response
(spec/30_encoding.md R71) and the fields of the STATUS register (spec/10_state.md R41). -/

namespace Sys2Proof.Machine

/-- The details of INVALID_PARAMETER (R140). -/
inductive ParamDetail where
  | modKind
  | fmAbsent
  | modIndex
  | wpm
  | bufLen
  | toneTable
  | carrierTable
  | count
  deriving DecidableEq, Repr

/-- How a command completes (R140). -/
inductive Status where
  | ok
  | invalidParameter (d : ParamDetail)
  | busy
  | notReady
  | illegalCommand (d : IllegalDetail)
  deriving DecidableEq, Repr

/-- The detail code of INVALID_PARAMETER (R140). -/
def paramCode : ParamDetail → BitVec 8
  | .modKind => 0x01
  | .fmAbsent => 0x02
  | .modIndex => 0x03
  | .wpm => 0x04
  | .bufLen => 0x05
  | .toneTable => 0x06
  | .carrierTable => 0x07
  | .count => 0x08

/-- The detail code of ILLEGAL_COMMAND (R140). -/
def illegalCode : IllegalDetail → BitVec 8
  | .opcode => 0x01
  | .reservedBits => 0x02
  | .selector => 0x03
  | .operand => 0x04

/-- The status code (R140). -/
def statusCode : Status → BitVec 8
  | .ok => 0x00
  | .invalidParameter _ => 0x01
  | .busy => 0x02
  | .notReady => 0x03
  | .illegalCommand _ => 0x04

/-- The detail code (R140). -/
def detailCode : Status → BitVec 8
  | .ok => 0x00
  | .invalidParameter d => paramCode d
  | .busy => 0x00
  | .notReady => 0x00
  | .illegalCommand d => illegalCode d

/-- The status word: code in [7:0], detail in [15:8], zeros above (R71). -/
def statusWord (st : Status) : Word := (0 : BitVec 16) ++ detailCode st ++ statusCode st

/-- A flag as a word (R42, `zext_32`). -/
def flagWord (b : Bool) : Word := if b then 1 else 0

/-- The STATUS register, from bit 31 down (R41): reserved, LAST_DETAIL, LAST_ERR, reserved, PAT_TRUNCATED, HAS_FM,
CARRIER_BUILT, TONE_BUILT, SESSION_VALID, STOP_PENDING, RUNNING. -/
def statusRegister (s : State) : Word :=
  (0 : BitVec 8) ++ s.lastDetail ++ s.lastErr ++ (0 : BitVec 1) ++ BitVec.ofBool s.pat.trunc
    ++ BitVec.ofBool s.hw.hasFm ++ BitVec.ofBool s.carrier.built ++ BitVec.ofBool s.tone.built
    ++ BitVec.ofBool s.sessionValid ++ BitVec.ofBool s.stopReq ++ BitVec.ofBool (s.mode == .running)

end Sys2Proof.Machine
end

