-- ==== Sys2Proof/Machine/Ops.lean ====
section
/-! DEFINITION. The named operations over registers, internal memories and streams: the primitives of
spec/00_scope.md R18 and R19. The last section is how a command ends, with OK or with an error: this block has no traps
(spec/60_exceptions.md R139, R151), so completing with a status is what stands for taking an exception, and nothing
is restored afterwards. -/

namespace Sys2Proof.Machine

/-! ## Configuration registers (R31) -/

/-- `cfg[r]`. -/
def CfgRegs.get (c : CfgRegs) : CfgReg → Word
  | .sampleRate => c.sampleRate
  | .toneFreq => c.toneFreq
  | .carrierFreq => c.carrierFreq
  | .modKind => c.modKind
  | .modIndex => c.modIndex
  | .wpm => c.wpm
  | .padding => c.padding
  | .bufLen => c.bufLen

/-- `cfg[r] <- v`, stored bit for bit. -/
def CfgRegs.set (c : CfgRegs) (r : CfgReg) (v : Word) : CfgRegs :=
  match r with
  | .sampleRate => { c with sampleRate := v }
  | .toneFreq => { c with toneFreq := v }
  | .carrierFreq => { c with carrierFreq := v }
  | .modKind => { c with modKind := v }
  | .modIndex => { c with modIndex := v }
  | .wpm => { c with wpm := v }
  | .padding => { c with padding := v }
  | .bufLen => { c with bufLen := v }

/-! ## Setters, one per part of the state -/

def State.setMode (s : State) (m : Mode) : State := { s with mode := m }

def State.setSessionValid (s : State) (b : Bool) : State := { s with sessionValid := b }

def State.setStopReq (s : State) (b : Bool) : State := { s with stopReq := b }

def State.setCfg (s : State) (c : CfgRegs) : State := { s with cfg := c }

def State.setPat (s : State) (p : MorsePattern) : State := { s with pat := p }

def State.setCw (s : State) (c : CWState) : State := { s with cw := c }

def State.setModu (s : State) (m : ModulatorState) : State := { s with modu := m }

def State.setCounters (s : State) (frames errs : Word) : State :=
  { s with frameCount := frames, sinkErrCount := errs }

def State.setLast (s : State) (err detail : BitVec 8) : State :=
  { s with lastErr := err, lastDetail := detail }

def State.setEnv (s : State) (e : Environment) : State := { s with env := e }

/-- The generator state of a channel. -/
def State.chan (s : State) : Channel → GeneratorState
  | .tone => s.tone
  | .carrier => s.carrier

/-- `s` with the generator state of one channel replaced. -/
def State.setChan (s : State) (ch : Channel) (g : GeneratorState) : State :=
  match ch with
  | .tone => { s with tone := g }
  | .carrier => { s with carrier := g }

/-- Both channels released (R128, R131). -/
def State.releaseBoth (s : State) : State :=
  (s.setChan .tone s.tone.released).setChan .carrier s.carrier.released

/-- The CW state at index 0, count 0, gate 1, the dit length kept (R98, R128). -/
def CWState.restarted (c : CWState) : CWState := { c with index := 0, gate := true, count := 0 }

/-! ## Internal memories: written prefix, then what reset left (R32, R35, R159) -/

/-- `PB[ch][k]`. -/
def pbRead (ch : Channel) (buf : List Sample) (k : Nat) : Sample :=
  buf.getD k (Config.unwrittenSample (channelSel ch).toNat k)

/-- `PAT[k]`. -/
def patRead (slots : List Bool) (k : Nat) : Bool := slots.getD k (Config.unwrittenSlot k)

/-- A memory after its first slots have been written with `new`: the slots beyond keep their old contents. -/
def writePrefix {α : Type} (new old : List α) : List α := new ++ old.drop new.length

/-! ## Streams (R46) -/

/-- The command stream left for the next command. -/
def State.setCmdIn (s : State) (ws : List Word) : State := s.setEnv { s.env with cmdIn := ws }

/-- `respond` (R19): words appended to the response stream. -/
def State.respond (s : State) (ws : List Word) : State :=
  s.setEnv { s.env with responses := s.env.responses ++ ws }

/-! ## Ending a command (R71, R139, R144, R145) -/

/-- The command completes: LAST_ERR and LAST_DETAIL take its codes, and its response is the status word and then the
payload. -/
def complete (st : Status) (payload : List Word) (s : State) : State :=
  (s.setLast (statusCode st) (detailCode st)).respond (statusWord st :: payload)

/-- `raise Error` (R19, R144): the status word alone, and no other effect. -/
def failCommand (st : Status) (s : State) : State := complete st [] s

/-- A check of a command: the status it raises when it fails. -/
structure Check where
  ok : Bool
  raises : Status

/-- The status of the first failing check, in the order given (R142). -/
def firstFailure : List Check → Option Status
  | [] => none
  | c :: cs => if c.ok then firstFailure cs else some c.raises

/-- A command that passes its checks has its effect; one that does not ends with the first failing check's status
(R142, R144). -/
def checked (checks : List Check) (s : State) (effect : State → State) :
    Host.Outcome State Fault Refusal :=
  match firstFailure checks with
  | some st => .next (failCommand st s)
  | none => .next (effect s)

/-- BUSY while the engine runs (R127). -/
def idleCheck (s : State) : Check := ⟨s.mode == .idle, .busy⟩

/-- NOT_READY without a session (R140). -/
def sessionCheck (s : State) : Check := ⟨s.sessionValid, .notReady⟩

/-- INVALID_PARAMETER, detail COUNT, above BUF_MAX (R140). -/
def countCheck (n : Nat) (s : State) : Check :=
  ⟨decide (n ≤ s.hw.bufMax.toNat), .invalidParameter .count⟩

end Sys2Proof.Machine
end

