-- ==== Sys2Proof/Machine/Gate.lean ====
section
/-! DEFINITION. The zero-crossing gate and sync unit: GATE (spec/42_cw_gate.md). -/

namespace Sys2Proof.Machine

/-- SILENCE: (+0.0, +0.0) (R17, R107). -/
def silence : Sample := ⟨0, 0⟩

/-- A sample is at a zero crossing: its quadrature component lies in the closed band (R103). -/
def zeroCrossing (hw : Params) (x : Sample) : Bool := f32Le (f32Abs x.q) hw.zcEps

/-- The advance: the pattern's value into the gate, the count to the dit length, the next index (R105). -/
def cwAdvance (p : MorsePattern) (c : CWState) : CWState :=
  { c with
    gate := patRead p.slots c.index.toNat
    count := c.ditLen
    index := BitVec.ofNat 32 ((c.index.toNat + 1) % p.len.toNat) }

/-- The saturating decrement of the count (R105). -/
def cwDecrement (c : CWState) : CWState :=
  if 0 < c.count.toNat then { c with count := c.count - 1 } else c

/-- `gate_step(s)` (R105): the CW state after one sample. -/
def gateNext (hw : Params) (p : MorsePattern) (c : CWState) (x : Sample) : CWState :=
  if c.count = 0 ∧ 0 < p.len.toNat ∧ zeroCrossing hw x = true then cwDecrement (cwAdvance p c)
  else cwDecrement c

/-- What a gate value lets through (R105). -/
def gateOut (pass : Bool) (x : Sample) : Sample := if pass then x else silence

/-- `gate(buf)` (R108): the samples in order, the CW state carried from each to the next. -/
def gateBuffer (hw : Params) (p : MorsePattern) : CWState → List Sample → List Sample × CWState
  | c, [] => ([], c)
  | c, x :: xs =>
    let c' := gateNext hw p c x
    let more := gateBuffer hw p c' xs
    (gateOut c'.gate x :: more.1, more.2)

/-- `gate` on the block's own pattern and CW state. -/
def gateSamples (buf : List Sample) (s : State) : List Sample × State :=
  let r := gateBuffer s.hw s.pat s.cw buf
  (r.1, s.setCw r.2)

/-- GATE (R109). -/
def execGate (buf : List Sample) (s : State) : Host.Outcome State Fault Refusal :=
  checked [idleCheck s, sessionCheck s, countCheck buf.length s] s fun s =>
    let r := gateSamples buf s
    complete .ok (bufferWords r.1) r.2

end Sys2Proof.Machine
end

