-- ==== Sys2Proof/Machine/Rom.lean ====
section
/-! DEFINITION. The two ROMs: TRIG, the sample table (spec/40_sample_generation.md R79), and FMROT, the FM rotation
(spec/43_modulator.md R122). The default contents are cos and sin of an exact fraction of a turn: the quarter of the
turn is split off exactly, the rest is a Taylor sum on 400-bit fixed point, rounded once to binary32. -/

namespace Sys2Proof.Machine

/-- One in the fixed point of this file. -/
def romOne : Nat := 2 ^ 400

/-- floor(π · 2^400). -/
def romPi : Nat :=
  0x3243f6a8885a308d313198a2e03707344a4093822299f31d0082efa98ec4e6c89452821e638d01377be5466cf34e90c6cc0ac

/-- `1 - x²/(j(j+1)) · (1 - x²/((j+2)(j+3)) · (…))`, cut after `terms` terms; `x2` is x² in fixed point. -/
def taylorSum (x2 : Nat) : Nat → Nat → Nat
  | 0, _ => romOne
  | terms + 1, j => romOne - x2 * taylorSum x2 terms (j + 2) / romOne / (j * (j + 1))

/-- The angle `r/b` of a quarter turn, that is π/2 · r/b, in fixed point. -/
def quarterAngle (r b : Nat) : Nat := romPi * r / (2 * b)

/-- cos of `r/b` of a quarter turn, in fixed point. -/
def cosQuarter (r b : Nat) : Nat :=
  let x := quarterAngle r b
  taylorSum (x * x / romOne) 50 1

/-- sin of `r/b` of a quarter turn, in fixed point. -/
def sinQuarter (r b : Nat) : Nat :=
  let x := quarterAngle r b
  min romOne (x * taylorSum (x * x / romOne) 50 2 / romOne)

/-- A fixed-point magnitude with a sign, rounded once to binary32; an exact zero gives +0.0. -/
def romRound (neg : Bool) (v : Nat) : F32 :=
  if v = 0 then f32Pack false 0 else f32Pack neg (rneBits (v * f32One) romOne)

/-- (cos, sin) of `a/b` of a turn: the quarter `4a/b` chooses which of the two is which and their signs. -/
def turnSample (a b : Nat) : Sample :=
  let a := a % b
  let quarter := 4 * a / b
  let r := 4 * a % b
  let c := cosQuarter r b
  let s := sinQuarter r b
  match quarter with
  | 0 => ⟨romRound false c, romRound false s⟩
  | 1 => ⟨romRound true s, romRound false c⟩
  | 2 => ⟨romRound true c, romRound true s⟩
  | _ => ⟨romRound false s, romRound true c⟩

/-- TRIG(L, k): slot `k` of a period of length `l`. The default holds the phase 2π(k+1)/L: the table starts at the
first non-zero phase (R76). -/
def trigRom (rom : Rom) (l k : Nat) : Sample :=
  match rom with
  | .correctlyRounded => turnSample (k + 1) l
  | .other tag => Config.freeTrig tag l k

/-- FMROT(p): the rotation for a phase word, in units of 2^-32 of a turn. -/
def rotationRom (rom : Rom) (phase : Word) : Sample :=
  match rom with
  | .correctlyRounded => turnSample phase.toNat (2 ^ 32)
  | .other tag => Config.freeRotation tag phase

end Sys2Proof.Machine
end

