-- ==== Sys2Proof/Machine/Generator.lean ====
section
/-! DEFINITION. Sample table, phase accumulator and complex tone generator: GEN, RELEASE
(spec/40_sample_generation.md). -/

namespace Sys2Proof.Machine

/-- The frequency of a channel, in Hz (R34). -/
def channelFreq (c : CfgRegs) : Channel → Int
  | .tone => c.toneFreq.toInt
  | .carrier => c.carrierFreq.toInt

/-- The sample rate, in samples per second (R31). -/
def sampleRate (c : CfgRegs) : Int := c.sampleRate.toInt

/-- L = floor(r / f) (R75). -/
def periodLength (f r : Int) : Int := r / f

/-- `table_ok(f, r)` (R77). -/
def tableOk (hw : Params) (f r : Int) : Bool :=
  decide (0 < f) && decide (2 * f ≤ r) && decide (periodLength f r ≤ hw.tableCapacity.toNat)

/-- `build(ch)` (R83): the period buffer filled from the ROM, the cursor at slot 0. -/
def build (hw : Params) (c : CfgRegs) (ch : Channel) (g : GeneratorState) : GeneratorState :=
  let l := (periodLength (channelFreq c ch) (sampleRate c)).toNat
  { built := true
    len := BitVec.ofNat 32 l
    cursor := 0
    buf := writePrefix ((List.range l).map (trigRom hw.trig l)) g.buf }

/-- The generator state `generate` reads from: built on first use (R83, R84). -/
def builtState (hw : Params) (c : CfgRegs) (ch : Channel) (g : GeneratorState) : GeneratorState :=
  if g.built then g else build hw c ch g

/-- The samples a built channel gives for a count (R84). -/
def channelSamples (ch : Channel) (g : GeneratorState) (n : Nat) : List Sample :=
  (List.range n).map fun j => pbRead ch g.buf ((g.cursor.toNat + j) % g.len.toNat)

/-- The cursor after a count of samples (R84). -/
def advanceCursor (g : GeneratorState) (n : Nat) : GeneratorState :=
  { g with cursor := BitVec.ofNat 32 ((g.cursor.toNat + n) % g.len.toNat) }

/-- `generate(ch, n)` (R84): the samples and the next state; a count of 0 does not even build. -/
def generate (ch : Channel) (n : Nat) (s : State) : List Sample × State :=
  if n = 0 then ([], s)
  else
    let g := builtState s.hw s.cfg ch (s.chan ch)
    (channelSamples ch g n, s.setChan ch (advanceCursor g n))

/-- GEN (R86). -/
def execGen (ch : Channel) (n : Word) (s : State) : Host.Outcome State Fault Refusal :=
  checked [idleCheck s, sessionCheck s, countCheck n.toNat s] s fun s =>
    let r := generate ch n.toNat s
    complete .ok (bufferWords r.1) r.2

/-- RELEASE (R87): needs no session. -/
def execRelease (ch : Channel) (s : State) : Host.Outcome State Fault Refusal :=
  checked [idleCheck s] s fun s => complete .ok [] (s.setChan ch (s.chan ch).released)

end Sys2Proof.Machine
end

