-- ==== Sys2Proof/Machine/Modulator.lean ====
section
/-! DEFINITION. The IQ modulator: amplitude multiplier and FM phase modulator: MOD (spec/43_modulator.md). -/

namespace Sys2Proof.Machine

/-- `st.pilot = f32_div(m, 10.0)` (R115). -/
def pilotScale (nan m : F32) : F32 := f32Div nan m 0x41200000

/-- `st.fm_k = rne32(m · f_t · 2^32 / r)`, from the exact value of m, rounded once (R120). -/
def fmScale (m : F32) (ft r : Int) : F32 := rne32 (f32Int m * ft * 2 ^ 32) r.toNat

/-- `am(c, t)` (R116): b·m first, then the two products with the carrier component, then their sum. -/
def amSample (nan m pilot : F32) (c t : Sample) : Sample :=
  let b := t.i
  let s := f32Mul nan b m
  { i := f32Add nan (f32Mul nan c.i pilot) (f32Mul nan c.i s)
    q := f32Add nan (f32Mul nan c.q pilot) (f32Mul nan c.q s) }

/-- The FM phase after a baseband sample (R123). -/
def fmNextPhase (nan fmK : F32) (phase : Word) (t : Sample) : Word :=
  phase + BitVec.ofInt 32 (cvtI32 (f32Mul nan t.i fmK))

/-- A carrier sample turned by a rotation (R123). -/
def fmRotate (nan : F32) (c rot : Sample) : Sample where
  i := f32Sub nan (f32Mul nan c.i rot.i) (f32Mul nan c.q rot.q)
  q := f32Add nan (f32Mul nan c.i rot.q) (f32Mul nan c.q rot.i)

/-- `fm(c, t)` for each pair in order, the phase carried from each to the next (R123, R124). -/
def fmBuffer (hw : Params) (fmK : F32) : Word → List (Sample × Sample) → List Sample × Word
  | phase, [] => ([], phase)
  | phase, (c, t) :: rest =>
    let phase' := fmNextPhase hw.canonNan fmK phase t
    let more := fmBuffer hw fmK phase' rest
    (fmRotate hw.canonNan c (rotationRom hw.fmrot phase') :: more.1, more.2)

/-- `am(c, t)` for each pair (R124). -/
def amBuffer (hw : Params) (m pilot : F32) (buf : List (Sample × Sample)) : List Sample :=
  buf.map fun p => amSample hw.canonNan m pilot p.1 p.2

/-- `modulate(C, T)` (R124), AM when MOD_KIND is 0 and FM otherwise; in a session MOD_KIND is 0 or 1 (R128). -/
def modulate (buf : List (Sample × Sample)) (s : State) : List Sample × State :=
  if s.cfg.modKind = 0 then (amBuffer s.hw s.cfg.modIndex s.modu.pilot buf, s)
  else
    let r := fmBuffer s.hw s.modu.fmK s.modu.fmPhase buf
    (r.1, s.setModu { s.modu with fmPhase := r.2 })

/-- MOD (R125). -/
def execMod (buf : List (Sample × Sample)) (s : State) : Host.Outcome State Fault Refusal :=
  checked [idleCheck s, sessionCheck s, countCheck buf.length s] s fun s =>
    let r := modulate buf s
    complete .ok (bufferWords r.1) r.2

end Sys2Proof.Machine
end

