-- ==== Sys2Proof/Machine/Morse.lean ====
section
/-! DEFINITION. The Morse encoder FSM, ENCODE, and the dit length (spec/41_morse_encoder.md). -/

namespace Sys2Proof.Machine

/-- An element of a code: dot, dash, or the word-space element (R91). -/
inductive MorseElement where
  | dot
  | dash
  | wordSpace
  deriving DecidableEq, Repr

/-- A code written with `false` for a dot and `true` for a dash. -/
def morseCode (dashes : List Bool) : List MorseElement :=
  dashes.map fun d => if d then .dash else .dot

/-- The codes of the letters A to Z, in order (R91). -/
def morseLetters : List (List Bool) :=
  [ [false, true], [true, false, false, false], [true, false, true, false], [true, false, false]
  , [false], [false, false, true, false], [true, true, false], [false, false, false, false]
  , [false, false], [false, true, true, true], [true, false, true], [false, true, false, false]
  , [true, true], [true, false] ] ++
  [ [true, true, true], [false, true, true, false], [true, true, false, true], [false, true, false]
  , [false, false, false], [true], [false, false, true], [false, false, false, true]
  , [false, true, true], [true, false, false, true], [true, false, true, true], [true, true, false, false] ]

/-- The codes of the digits 0 to 9, in order (R91). -/
def morseDigits : List (List Bool) :=
  [ [true, true, true, true, true], [false, true, true, true, true], [false, false, true, true, true]
  , [false, false, false, true, true], [false, false, false, false, true] ] ++
  [ [false, false, false, false, false], [true, false, false, false, false], [true, true, false, false, false]
  , [true, true, true, false, false], [true, true, true, true, false] ]

/-- The code of a message byte, none if it is unmapped (R92): A to Z, a to z as their upper case, 0 to 9, space. -/
def morseOf (b : Byte) : Option (List MorseElement) :=
  let c := if 0x61 ≤ b.toNat ∧ b.toNat ≤ 0x7A then b.toNat - 0x20 else b.toNat
  if c = 0x20 then some [.wordSpace]
  else if 0x41 ≤ c ∧ c ≤ 0x5A then morseLetters[c - 0x41]?.map morseCode
  else if 0x30 ≤ c ∧ c ≤ 0x39 then morseDigits[c - 0x30]?.map morseCode
  else none

/-- The slots of an element and the off slot after it (R93, R94). -/
def elementSlots : MorseElement → List Bool
  | .dot => [true, false]
  | .dash => [true, true, true, false]
  | .wordSpace => [false, false, false, false, false]

/-- The slots of a character: its elements, then two further off slots (R94). -/
def codeSlots (code : List MorseElement) : List Bool := code.flatMap elementSlots ++ [false, false]

/-- The slots a message byte writes; an unmapped byte writes none (R92). -/
def byteSlots (b : Byte) : List Bool :=
  match morseOf b with
  | some code => codeSlots code
  | none => []

/-- The slots of a message, without the padding. -/
def messageSlots (msg : List Byte) : List Bool := msg.flatMap byteSlots

/-- The off slots after the message, 7 times PADDING, on mathematical integers (R95). -/
def paddingSlots (c : CfgRegs) : Nat := 7 * c.padding.toNat

/-- The slots written when `slots` and then `pad` off slots are put into a RAM of `cap` slots: slot by slot, stopping
at capacity (R96, R98). -/
def writtenSlots (cap : Nat) (slots : List Bool) (pad : Nat) : List Bool :=
  slots.take cap ++ List.replicate (min pad (cap - slots.length)) false

/-- The pattern after ENCODE (R98); slots at or beyond the new length keep their old contents. -/
def encodedPattern (cap : Nat) (slots : List Bool) (pad : Nat) (old : MorsePattern) : MorsePattern :=
  let written := writtenSlots cap slots pad
  { slots := writePrefix written old.slots
    len := BitVec.ofNat 32 written.length
    trunc := decide (cap < slots.length + pad) }

/-- ENCODE (R98): needs no session, and truncation is no error. -/
def execEncode (msg : List Byte) (s : State) : Host.Outcome State Fault Refusal :=
  checked [idleCheck s] s fun s =>
    let p := encodedPattern s.hw.patternCapacity.toNat (messageSlots msg) (paddingSlots s.cfg) s.pat
    complete .ok [p.len, flagWord p.trunc]
      (((s.setPat p).setCw s.cw.restarted).setSessionValid false)

/-- `dit_len(r, w) = floor(60·r / (50·w))` (R101). -/
def ditLength (r w : Int) : Int := 60 * r / (50 * w)

end Sys2Proof.Machine
end

