-- ==== Sys2Proof/Machine/Operands.lean ====
section
/-! DEFINITION. The register operand of RDCFG: what each selector reads (spec/10_state.md R31, R41, R42). The other
operand forms are the decoder's (counts, payload packing): Decode.lean. -/

namespace Sys2Proof.Machine

/-- The value of a register; reading has no side effect (R54). -/
def readReg (s : State) : ReadReg → Word
  | .cfg r => s.cfg.get r
  | .status => statusRegister s
  | .patLen => s.pat.len
  | .ditLen => s.cw.ditLen
  | .cwIndex => s.cw.index
  | .cwCount => s.cw.count
  | .cwGate => flagWord s.cw.gate
  | .toneL => s.tone.len
  | .toneCursor => s.tone.cursor
  | .carrierL => s.carrier.len
  | .carrierCursor => s.carrier.cursor
  | .pilot => s.modu.pilot
  | .fmK => s.modu.fmK
  | .fmPhase => s.modu.fmPhase
  | .frameCount => s.frameCount
  | .sinkErrCount => s.sinkErrCount
  | .capTable => s.hw.tableCapacity
  | .capPattern => s.hw.patternCapacity
  | .capBuf => s.hw.bufMax
  | .zcEps => s.hw.zcEps

end Sys2Proof.Machine
end

