-- ==== Sys2Proof/Machine/Register.lean ====
section
/-! DEFINITION. Register access: NOP, WRCFG, RDCFG (spec/45_register_access.md). -/

namespace Sys2Proof.Machine

/-- NOP (R136): accepted in every mode. -/
def execNop (s : State) : Host.Outcome State Fault Refusal := .next (complete .ok [] s)

/-- WRCFG (R137). -/
def execWrcfg (r : CfgReg) (v : Word) (s : State) : Host.Outcome State Fault Refusal :=
  checked [idleCheck s] s fun s =>
    complete .ok [] ((s.setCfg (s.cfg.set r v)).setSessionValid false)

/-- RDCFG (R138): accepted in every mode; the register is read before the command updates LAST_ERR and LAST_DETAIL. -/
def execRdcfg (r : ReadReg) (s : State) : Host.Outcome State Fault Refusal :=
  .next (complete .ok [readReg s r] s)

end Sys2Proof.Machine
end

