-- ==== Sys2Proof/Machine/Session.lean ====
section
/-! DEFINITION. Session control: SETUP, RUN, STOP (spec/44_session_control.md). -/

namespace Sys2Proof.Machine

/-- m is finite and not below zero; -0.0 is legal (R31, R128). -/
def modIndexOk (m : F32) : Bool := f32IsFinite m && f32Le 0 m

/-- The parameter checks of SETUP, in the order written (R128, R142). -/
def setupChecks (hw : Params) (c : CfgRegs) : List Check :=
  [ ⟨decide (c.modKind.toNat ≤ 1), .invalidParameter .modKind⟩
  , ⟨!(c.modKind == 1 && !hw.hasFm), .invalidParameter .fmAbsent⟩
  , ⟨modIndexOk c.modIndex, .invalidParameter .modIndex⟩
  , ⟨decide (0 < c.wpm.toInt), .invalidParameter .wpm⟩
  , ⟨decide (1 ≤ c.bufLen.toNat ∧ c.bufLen.toNat ≤ hw.bufMax.toNat), .invalidParameter .bufLen⟩
  , ⟨tableOk hw (channelFreq c .tone) (sampleRate c), .invalidParameter .toneTable⟩
  , ⟨tableOk hw (channelFreq c .carrier) (sampleRate c), .invalidParameter .carrierTable⟩ ]

/-- The dit length a session starts with (R101, R128). -/
def sessionDitLen (c : CfgRegs) : Word := BitVec.ofNat 32 (ditLength (sampleRate c) c.wpm.toInt).toNat

/-- The modulator state a session starts with (R115, R120, R128). -/
def sessionModulator (hw : Params) (c : CfgRegs) : ModulatorState where
  pilot := pilotScale hw.canonNan c.modIndex
  fmK := fmScale c.modIndex (channelFreq c .tone) (sampleRate c)
  fmPhase := 0

/-- A new session on a validated configuration (R128); the pattern is not touched. -/
def startSession (s : State) : State :=
  ((((s.setCw ⟨0, true, 0, sessionDitLen s.cfg⟩).setModu (sessionModulator s.hw s.cfg)).releaseBoth).setCounters
    0 0).setSessionValid true

/-- SETUP (R128). -/
def execSetup (s : State) : Host.Outcome State Fault Refusal :=
  checked (idleCheck s :: setupChecks s.hw s.cfg) s fun s => complete .ok [] (startSession s)

/-- RUN (R129): cursors, CW state and FM phase are not reset. -/
def execRun (s : State) : Host.Outcome State Fault Refusal :=
  checked [idleCheck s, sessionCheck s] s fun s =>
    complete .ok [] ((s.setMode .running).setStopReq false)

/-- STOP (R130): accepted in every mode, and it does not wait. -/
def execStop (s : State) : Host.Outcome State Fault Refusal :=
  .next (complete .ok [] (if s.mode = .running then s.setStopReq true else s))

end Sys2Proof.Machine
end

