-- ==== Sys2Proof/Machine/Dispatch.lean ====
section
/-! DEFINITION. One arm per command: its meaning. -/

namespace Sys2Proof.Machine

def exec (i : Instr) (s : State) : Host.Outcome State Fault Refusal :=
  match i with
  | .nop => Sys2Proof.Machine.execNop s
  | .wrcfg r v => Sys2Proof.Machine.execWrcfg r v s
  | .rdcfg r => Sys2Proof.Machine.execRdcfg r s
  | .gen ch n => Sys2Proof.Machine.execGen ch n s
  | .release ch => Sys2Proof.Machine.execRelease ch s
  | .encode msg => Sys2Proof.Machine.execEncode msg s
  | .gate buf => Sys2Proof.Machine.execGate buf s
  | .mod buf => Sys2Proof.Machine.execMod buf s
  | .setup => Sys2Proof.Machine.execSetup s
  | .run => Sys2Proof.Machine.execRun s
  | .stop => Sys2Proof.Machine.execStop s

end Sys2Proof.Machine
end

