-- ==== Sys2Proof/Machine/Engine.lean ====
section
/-! DEFINITION. The periodic state machine: one step is one iteration of the loop, a frame or the end of the stream
(spec/44_session_control.md R126, R131, R132). -/

namespace Sys2Proof.Machine

/-- The end of the stream: both channels released, the session over (R131). -/
def endStream (s : State) : State :=
  (((s.setMode .idle).setStopReq false).releaseBoth).setSessionValid false

/-- The samples of one frame, and the state after them: carrier buffer, tone buffer, gated tone, modulated (R126). -/
def frameSamples (s : State) : List Sample × State :=
  let n := s.cfg.bufLen.toNat
  let c := generate .carrier n s
  let t := generate .tone n c.2
  let g := gateSamples t.1 t.2
  modulate (c.1.zip g.1) g.2

/-- SINK_ERR_COUNT after an answer: an answer not above zero is a failure, and the count saturates (R39, R132). -/
def sinkErrAfter (errs answer : Word) : Word :=
  if answer.toInt ≤ 0 then (if errs = BitVec.allOnes 32 then errs else errs + 1) else errs

/-- The samples handed to the sink (R132). -/
def State.sinkWrite (s : State) (y : List Sample) : State :=
  s.setEnv { s.env with sinkWrites := s.env.sinkWrites ++ [y] }

/-- One frame, the sink's answer given (R131). -/
def frame (answer : Word) (s : State) : State :=
  let r := frameSamples s
  (r.2.sinkWrite r.1).setCounters (s.frameCount + 1) (sinkErrAfter s.sinkErrCount answer)

/-- The sink's answer to the next write: scripted, else a free value. -/
def drawAnswer (s : State) : Word × State :=
  match s.env.answers with
  | a :: rest => (a, s.setEnv { s.env with answers := rest })
  | [] => (Config.sinkAnswer s.env.draws, s.setEnv { s.env with draws := s.env.draws + 1 })

/-- `engine_step` (R131): the stop request is seen at the top of the loop. -/
def engineStep (s : State) : State :=
  if s.stopReq then endStream s
  else
    let draw := drawAnswer s
    frame draw.1 draw.2

end Sys2Proof.Machine
end

