-- ==== Sys2Proof/Machine/HostPort.lean ====
section
/-! DEFINITION. The host's side: the next command of the stream (spec/30_encoding.md R65, R68, R69), the turns of host
and engine (spec/20_memory.md R55, R56), the reset input (spec/70_reset_and_hazards.md R158), and the inputs the
outside gives between two steps. -/

namespace Sys2Proof.Machine

/-- The host's step: the command at the head of the stream, once all of its words have arrived (R52). An illegal one
ends with ILLEGAL_COMMAND, its words consumed (R69, R144). -/
def hostStep (s : State) : Host.Outcome State Fault Refusal :=
  match decode s.env.cmdIn with
  | .incomplete => .next s
  | .illegal d rest => .next (failCommand (.illegalCommand d) (s.setCmdIn rest))
  | .command i rest => exec i (s.setCmdIn rest)

/-- Who moves next while the block runs: scripted, else a free value (R56). -/
def drawTurn (s : State) : Agent × State :=
  match s.env.turns with
  | a :: rest => (a, s.setEnv { s.env with turns := rest })
  | [] =>
    (if Config.engineMovesNext s.env.draws then .engine else .host,
      s.setEnv { s.env with draws := s.env.draws + 1 })

/-- The environment after a reset: complete commands wait on, the words and bytes of a command that had only partly
arrived are discarded, and the next word received is a header word (R158). -/
def resetEnvironment (e : Environment) : Environment :=
  { e with
    cmdIn := completeCommands e.cmdIn.length e.cmdIn
    rxBytes := []
    resetReq := false }

/-- The reset event (R158): every state element takes its reset value; the build is the same block. -/
def applyReset (s : State) : State :=
  { State.reset with hw := s.hw, env := resetEnvironment s.env }

/-- One step of the block: the reset input first, then the host while IDLE, and host or engine while RUNNING. -/
def machineStep (s : State) : Host.Outcome State Fault Refusal :=
  if s.env.resetReq then .next (applyReset s)
  else
    match s.mode with
    | .idle => hostStep s
    | .running =>
      match drawTurn s with
      | (.host, s') => hostStep s'
      | (.engine, s') => .next (engineStep s')

/-! ## Inputs between two steps (R23, R52, R132, R158) -/

/-- The host sends command words. -/
def sendWords (ws : List Word) (s : State) : State := s.setCmdIn (s.env.cmdIn ++ ws)

/-- The host sends bytes on a byte-serial transport: they join the bytes of the incomplete word, four to a word. -/
def sendBytes (bs : List Byte) (s : State) : State :=
  let r := groupBytes (s.env.rxBytes ++ bs)
  s.setEnv { s.env with cmdIn := s.env.cmdIn ++ r.1, rxBytes := r.2 }

/-- The platform asserts reset; it takes effect at the next step. -/
def requestReset (s : State) : State := s.setEnv { s.env with resetReq := true }

/-- The interleaving and the sink's answers of the steps to come. -/
def scriptEnvironment (turns : List Agent) (answers : List Word) (s : State) : State :=
  s.setEnv { s.env with turns := s.env.turns ++ turns, answers := s.env.answers ++ answers }

/-! ## Streams as bytes (R49, R50) -/

/-- The response stream on a byte-serial transport. -/
def responseBytes (s : State) : List Byte := s.env.responses.flatMap bytesOfWord

/-- The sink stream as words: the frames in order, no header and no framing. -/
def sinkWords (s : State) : List Word := s.env.sinkWrites.flatMap bufferWords

/-- The sink stream on a byte-serial transport. -/
def sinkBytes (s : State) : List Byte := (sinkWords s).flatMap bytesOfWord

/-- The environment in which the very next step is the host's and runs the given command words, put before the words
already waiting. -/
def fetchNext (s : State) (ws : List Word) : State :=
  s.setEnv
    { s.env with
      cmdIn := ws ++ s.env.cmdIn
      turns := if s.mode = .running then .host :: s.env.turns else s.env.turns
      resetReq := false }

end Sys2Proof.Machine
end

