-- ==== Sys2Proof/Machine/Step.lean ====
section
/-! DEFINITION. One step of the machine, and the placing of an instruction where the next step fetches. -/

namespace Sys2Proof.Machine

/-- One step: a host command, an engine step, a reset, or waiting. -/
def step (s : State) : Host.Outcome State Fault Refusal := machineStep s

/-- `s` with the instruction whose bits are `w` (numbered as spec/opcode_table.json numbers them) at the head of the
command stream, so that the very next step runs it: the host sends it, and has the next turn. -/
def State.withFetchWord (s : State) (nbits w : Nat) : State := fetchNext s (tableWords nbits w)

end Sys2Proof.Machine
end

