-- ==== Sys2Proof/Safety.lean ====
section
/-! DEFINITION. What a safe state of the block is: the invariants the spec gives (spec/10_state.md R30, R33, R35, R37),
and what a valid session guarantees (R28, R83). -/

namespace Sys2Proof.Machine

/-- The legal parameter values (R12): TABLE_CAPACITY at least 2, BUF_MAX at least 1, ZC_EPS finite and not below +0.0
(by f32_le, so -0.0 is legal, R16), CANON_NAN a quiet NaN. -/
structure LegalParams (hw : Params) : Prop where
  table : 2 ≤ hw.tableCapacity.toNat
  buf : 1 ≤ hw.bufMax.toNat
  eps : f32IsFinite hw.zcEps = true ∧ f32Le 0 hw.zcEps = true
  nan : f32IsNan hw.canonNan = true ∧ hw.canonNan.getLsbD 22 = true

/-- A channel (R33). -/
structure ChannelOk (hw : Params) (g : GeneratorState) : Prop where
  free : g.built = false → g.len = 0 ∧ g.cursor = 0
  long : g.built = true → 2 ≤ g.len.toNat
  capacity : g.built = true → g.len.toNat ≤ hw.tableCapacity.toNat
  cursor : g.built = true → g.cursor.toNat < g.len.toNat
  table : g.built = true → ∀ k, k < g.len.toNat → g.buf[k]? = some (trigRom hw.trig g.len.toNat k)
  size : g.buf.length ≤ hw.tableCapacity.toNat

/-- The pattern and the CW state (R35, R37): the pattern lies within the capacity, its slots have been written, and
the index lies within the pattern. -/
structure PatternOk (hw : Params) (p : MorsePattern) (c : CWState) : Prop where
  capacity : p.len.toNat ≤ hw.patternCapacity.toNat
  size : p.slots.length ≤ hw.patternCapacity.toNat
  written : p.len.toNat ≤ p.slots.length
  index : 0 < p.len.toNat → c.index.toNat < p.len.toNat
  empty : p.len = 0 → c.index = 0
  count : c.count.toNat ≤ c.ditLen.toNat

/-- The configuration passes every check of SETUP (R128). -/
def ConfigOk (hw : Params) (c : CfgRegs) : Prop := firstFailure (setupChecks hw c) = none

/-- What holds while a session is valid (R28): the configuration is still a legal one, what SETUP derived from it
still stands, and a built channel has the period of its frequency. -/
structure SessionOk (s : State) : Prop where
  config : ConfigOk s.hw s.cfg
  ditLen : s.cw.ditLen = sessionDitLen s.cfg
  pilot : s.modu.pilot = (sessionModulator s.hw s.cfg).pilot
  fmK : s.modu.fmK = (sessionModulator s.hw s.cfg).fmK
  period : ∀ ch, (s.chan ch).built = true →
    ((s.chan ch).len.toNat : Int) = periodLength (channelFreq s.cfg ch) (sampleRate s.cfg)

/-- The invariant of the block: legal parameters, both channels, the pattern and CW state, RUNNING only in a session
and a stop request only while RUNNING (R30), the session, and at most three bytes of an incomplete word (R52). -/
structure Inv (s : State) : Prop where
  params : LegalParams s.hw
  tone : ChannelOk s.hw s.tone
  carrier : ChannelOk s.hw s.carrier
  pattern : PatternOk s.hw s.pat s.cw
  running : s.mode = .running → s.sessionValid = true
  stopping : s.stopReq = true → s.mode = .running
  session : s.sessionValid = true → SessionOk s
  bytes : s.env.rxBytes.length < 4

end Sys2Proof.Machine
end

