-- ==== Sys2Proof/Certificates/Slice0/Obligations.lean ====
section
/-! DEFINITION. The statements for the provers. Each docstring names the rule of spec/ it formalises. The conclusions
`exec i s = .next (…)` give the whole next state, so they are the instruction's result, its completion and its frame in
one: whatever the state on the right does not mention is unchanged. -/

open Sys2Proof Sys2Proof.Machine

namespace Sys2Proof.Machine

/-- `t` after a command has ended with status code `err` and detail code `detail` and answered the words `ws`: only
LAST_ERR, LAST_DETAIL and the response stream differ from `t`. -/
def answered (err detail : BitVec 8) (ws : List Word) (t : State) : State :=
  { t with lastErr := err, lastDetail := detail, env := { t.env with responses := t.env.responses ++ ws } }

/-- `s` with the command words after the current command left, in the environment `e` that the host's turn leaves. -/
def afterFetch (s : State) (rest : List Word) (e : Environment) : State := { s with env := { e with cmdIn := rest } }

/-- The next turn goes to `a` and leaves the environment `e'` (R56): the script's first turn, or, where the script is
empty, the free value of the draw counter. -/
def turnGoesTo (a : Agent) (e e' : Environment) : Prop :=
  (e.turns = a :: e'.turns ∧ e' = { e with turns := e'.turns }) ∨
    (e.turns = [] ∧ Config.engineMovesNext e.draws = (a == .engine) ∧ e' = { e with draws := e.draws + 1 })

/-- The host moves next in `s`, and `e` is the environment after its turn: no reset is asserted, and either the block
is IDLE, where no turn is drawn, or it runs and the turn is the host's. -/
def hostMoves (s : State) (e : Environment) : Prop :=
  s.env.resetReq = false ∧ (s.mode = .idle ∧ e = s.env ∨ s.mode = .running ∧ turnGoesTo .host s.env e)

/-- The engine moves next in `s`, and `e` is the environment after its turn. -/
def engineMoves (s : State) (e : Environment) : Prop :=
  s.env.resetReq = false ∧ s.mode = .running ∧ turnGoesTo .engine s.env e

/-- The sink answers `w` to the next write and leaves the environment `e'` (R132): the script's first answer, or, where
the script is empty, the free value of the draw counter. -/
def sinkAnswers (w : Word) (e e' : Environment) : Prop :=
  (e.answers = w :: e'.answers ∧ e' = { e with answers := e'.answers }) ∨
    (e.answers = [] ∧ Config.sinkAnswer e.draws = w ∧ e' = { e with draws := e.draws + 1 })

/-- The words are whole commands, legal or not, and no word is left over: the next word received is a W0. -/
inductive WholeCommands : List Word → Prop where
  | none : WholeCommands []
  | command (ws rest : List Word) (i : Instr) (first : decode ws = .command i rest) (more : WholeCommands rest) :
    WholeCommands ws
  | illegal (ws rest : List Word) (d : IllegalDetail) (first : decode ws = .illegal d rest)
    (more : WholeCommands rest) : WholeCommands ws

/-- The two words of a sample (R50). -/
def wordsOf (x : Sample) : List Word := [x.i, x.q]

/-- One slot put into the pattern RAM of a capacity, as the pseudocode of R98 does it: written while there is room,
dropped and noted otherwise. -/
def putSlot (cap : Nat) (acc : List Bool × Bool) (v : Bool) : List Bool × Bool :=
  if acc.1.length < cap then (acc.1 ++ [v], acc.2) else (acc.1, true)

/-- The magnitude of the finite binary32 datum with the sign-less bits `b`, in units of 2^-149. -/
def unitsOfBits (b : Nat) : Nat :=
  if b / 2 ^ 23 = 0 then b else (2 ^ 23 + b % 2 ^ 23) * 2 ^ (b / 2 ^ 23 - 1)

/-- The sign of a datum. -/
def signOf (a : F32) : Bool := decide (2 ^ 31 ≤ a.toNat)

/-- The sign-less bits of a datum: finite below `infinityBits`, an infinity there, a NaN above. -/
def bitsOf (a : F32) : Nat := a.toNat % 2 ^ 31

/-- The magnitude of a finite datum, in units of 2^-149. -/
def unitsOf (a : F32) : Nat := unitsOfBits (bitsOf a)

/-- The value of a finite datum, in units of 2^-149. -/
def valueOf (a : F32) : Int := if signOf a then -(unitsOf a : Int) else unitsOf a

/-- The datum with a sign and sign-less bits. -/
def datum (neg : Bool) (bits : Nat) : F32 := BitVec.ofNat 32 ((if neg then 2 ^ 31 else 0) + bits)

/-- The sign-less bits of +infinity. -/
def infinityBits : Nat := 0x7F800000

/-- Where rounding to binary32 begins to overflow, in units of 2^-149: half a unit in the last place above the largest
finite value (2^24 - 1) · 2^253. -/
def overflowUnits : Nat := (2 ^ 25 - 1) * 2 ^ 252

/-- `rneBits n d` is the binary32 magnitude nearest `n / d` units, ties to even: below `overflowUnits` it is finite, no
other finite magnitude is nearer, and of two equally near it is the even one; from there on it is infinity. -/
def RoundsToNearestEven (n d : Nat) : Prop :=
  (n < overflowUnits * d →
    rneBits n d < infinityBits ∧
    ∀ b : Nat, b < infinityBits →
      |(unitsOfBits (rneBits n d) : Int) * d - n| ≤ |(unitsOfBits b : Int) * d - n| ∧
      (|(unitsOfBits (rneBits n d) : Int) * d - n| = |(unitsOfBits b : Int) * d - n| → b ≠ rneBits n d →
        rneBits n d % 2 = 0)) ∧
  (overflowUnits * d ≤ n → rneBits n d = infinityBits)

/-- `r` is the finite sum `v` units of 2^-149 rounded once; a sum of zero is +0.0 unless `bothNegative`. -/
def RoundedSum (r : F32) (v : Int) (bothNegative : Bool) : Prop :=
  (v ≠ 0 → r = datum (decide (v < 0)) (rneBits v.natAbs 1)) ∧ (v = 0 → r = datum bothNegative 0)

/-- The commands that only an IDLE block runs (R127). -/
def needsIdle : Instr → Bool
  | .nop | .rdcfg _ | .stop => false
  | .wrcfg _ _ | .gen _ _ | .release _ | .encode _ | .gate _ | .mod _ | .setup | .run => true

/-- The legal selectors of an opcode, as R67 lists them. -/
def legalSelector (opc sel : Nat) : Bool :=
  if opc = 1 then decide (sel ≤ 7)
  else if opc = 2 then
    decide (sel ≤ 7) || (decide (0x10 ≤ sel) && decide (sel ≤ 0x1E)) || (decide (0x20 ≤ sel) && decide (sel ≤ 0x23))
  else if opc = 3 ∨ opc = 4 then decide (sel ≤ 1)
  else decide (sel = 0)

/-- The opcodes whose operand word must be zero (R68). -/
def zeroOperand (opc : Nat) : Bool := opc ∈ [0, 2, 4, 8, 9, 10]

/-- Payload length in words, by opcode and operand (R65). -/
def payloadWords (opc w1 : Nat) : Nat :=
  if opc = 5 then (w1 + 3) / 4 else if opc = 6 then 2 * w1 else if opc = 7 then 4 * w1 else 0

/-- The register map but for STATUS: each selector and what it reads (R31, R42). -/
def registerMap (s : State) : List (BitVec 8 × Word) :=
  [ (0x00, s.cfg.sampleRate), (0x01, s.cfg.toneFreq), (0x02, s.cfg.carrierFreq)
  , (0x03, s.cfg.modKind), (0x04, s.cfg.modIndex), (0x05, s.cfg.wpm), (0x06, s.cfg.padding)
  , (0x07, s.cfg.bufLen), (0x11, s.pat.len), (0x12, s.cw.ditLen), (0x13, s.cw.index), (0x14, s.cw.count)
  , (0x15, if s.cw.gate then 1 else 0), (0x16, s.tone.len), (0x17, s.tone.cursor), (0x18, s.carrier.len)
  , (0x19, s.carrier.cursor), (0x1A, s.modu.pilot), (0x1B, s.modu.fmK), (0x1C, s.modu.fmPhase)
  , (0x1D, s.frameCount), (0x1E, s.sinkErrCount), (0x20, s.hw.tableCapacity), (0x21, s.hw.patternCapacity)
  , (0x22, s.hw.bufMax), (0x23, s.hw.zcEps) ]

/-- `table_ok(f, r)` as R77 states it, on integers. -/
def tableLegal (hw : Params) (f r : Int) : Prop := 0 < f ∧ 2 * f ≤ r ∧ r / f ≤ hw.tableCapacity.toNat

/-- The configuration is legal, by the ranges of R31. -/
structure SetupLegal (hw : Params) (c : CfgRegs) : Prop where
  kind : c.modKind.toNat ≤ 1
  fm : c.modKind.toNat = 1 → hw.hasFm = true
  index : f32IsFinite c.modIndex = true ∧ f32Le 0 c.modIndex = true
  wpm : 0 < c.wpm.toInt
  buf : 1 ≤ c.bufLen.toNat ∧ c.bufLen.toNat ≤ hw.bufMax.toNat
  tone : tableLegal hw c.toneFreq.toInt c.sampleRate.toInt
  carrier : tableLegal hw c.carrierFreq.toInt c.sampleRate.toInt

/-- The element a character of R91's code table stands for. -/
def elementOfChar (c : Char) : MorseElement := if c = '.' then .dot else if c = '-' then .dash else .wordSpace

/-- The code table of R91 beside the slot table of R99: byte, code, slots (1 = on). -/
def morseTable : List (Byte × String × String) :=
  [ (0x41, ".-", "10111000"), (0x42, "-...", "111010101000"), (0x43, "-.-.", "11101011101000")
  , (0x44, "-..", "1110101000"), (0x45, ".", "1000"), (0x46, "..-.", "101011101000")
  , (0x47, "--.", "111011101000"), (0x48, "....", "1010101000"), (0x49, "..", "101000")
  , (0x4A, ".---", "1011101110111000"), (0x4B, "-.-", "111010111000"), (0x4C, ".-..", "101110101000") ] ++
  [ (0x4D, "--", "1110111000"), (0x4E, "-.", "11101000"), (0x4F, "---", "11101110111000")
  , (0x50, ".--.", "10111011101000"), (0x51, "--.-", "1110111010111000"), (0x52, ".-.", "1011101000")
  , (0x53, "...", "10101000"), (0x54, "-", "111000"), (0x55, "..-", "1010111000")
  , (0x56, "...-", "101010111000"), (0x57, ".--", "101110111000"), (0x58, "-..-", "11101010111000")
  , (0x59, "-.--", "1110101110111000"), (0x5A, "--..", "11101110101000") ] ++
  [ (0x30, "-----", "1110111011101110111000"), (0x31, ".----", "10111011101110111000")
  , (0x32, "..---", "101011101110111000"), (0x33, "...--", "1010101110111000"), (0x34, "....-", "10101010111000")
  , (0x35, ".....", "101010101000"), (0x36, "-....", "11101010101000"), (0x37, "--...", "1110111010101000")
  , (0x38, "---..", "111011101110101000"), (0x39, "----.", "11101110111011101000"), (0x20, "_", "0000000") ]

/-- Frames in a row, one for each answer of the sink. -/
def frames (answers : List Word) (s : State) : State := answers.foldl (fun t a => frame a t) s

/-- The block's state without its outside: what R44 gives a reset value. -/
def atReset (t : State) : Prop :=
  t.mode = .idle ∧ t.sessionValid = false ∧ t.stopReq = false ∧
  (∀ r, t.cfg.get r = 0) ∧
  (∀ ch, (t.chan ch).built = false ∧ (t.chan ch).len = 0 ∧ (t.chan ch).cursor = 0) ∧
  t.pat.len = 0 ∧ t.pat.trunc = false ∧
  t.cw.index = 0 ∧ t.cw.gate = true ∧ t.cw.count = 0 ∧ t.cw.ditLen = 0 ∧
  t.modu.pilot = 0 ∧ t.modu.fmK = 0 ∧ t.modu.fmPhase = 0 ∧
  t.frameCount = 0 ∧ t.sinkErrCount = 0 ∧ t.lastErr = 0 ∧ t.lastDetail = 0

end Sys2Proof.Machine

/-! ## Encoding -/

/-- The worked encodings of R74 decode to the commands they stand for; so does a MOD word, which R74 does not work out,
written out from R63 to R66 with R125's payload order. -/
def Obligations.WorkedEncodingsDecode : Prop :=
  decode [0x00000000, 0x00000000] = .command .nop [] ∧
  decode [0x01000000, 0x0000BB80] = .command (.wrcfg .sampleRate 48000) [] ∧
  decode [0x01040000, 0x3F800000] = .command (.wrcfg .modIndex 0x3F800000) [] ∧
  decode [0x02100000, 0x00000000] = .command (.rdcfg .status) [] ∧
  decode [0x03010000, 0x00000004] = .command (.gen .carrier 4) [] ∧
  decode [0x04000000, 0x00000000] = .command (.release .tone) [] ∧
  decode [0x05000000, 0x00000001, 0x00000041] = .command (.encode [0x41]) [] ∧
  decode [0x05000000, 0x00000005, 0x49524150, 0x00000053] =
    .command (.encode [0x50, 0x41, 0x52, 0x49, 0x53]) [] ∧
  decode [0x06000000, 0x00000001, 0x3F800000, 0x00000000] = .command (.gate [⟨0x3F800000, 0⟩]) [] ∧
  decode [0x07000000, 0x00000001, 0x3F800000, 0x00000000, 0xBF800000, 0x3F000000] =
    .command (.mod [(⟨0x3F800000, 0⟩, ⟨0xBF800000, 0x3F000000⟩)]) [] ∧
  decode [0x08000000, 0x00000000] = .command .setup [] ∧
  decode [0x09000000, 0x00000000] = .command .run [] ∧
  decode [0x0A000000, 0x00000000] = .command .stop [] ∧
  decode [0x0B000000, 0x00000000] = .illegal .opcode []

/-- Decoding the words of a well-formed instruction, whatever follows them, gives the instruction back and leaves what
follows: no bit of an encoding is dropped (R62 to R67). -/
def Obligations.DecodeOfEncodeIsIdentity : Prop :=
  ∀ (i : Instr) (rest : List Word), i.wellFormed = true → decode (encode i ++ rest) = .command i rest

/-- The other direction: a command other than ENCODE has one spelling only, the encoder's; and every decoded command,
ENCODE too, is well-formed and takes as many words as its encoding. (ENCODE has more spellings: the bits above the last
message byte are ignored, R97.) -/
def Obligations.DecodedCommandHasOneSpelling : Prop :=
  ∀ (ws rest : List Word) (i : Instr), decode ws = .command i rest →
    i.wellFormed = true ∧ ws.length = (encode i).length + rest.length ∧
    ((∀ msg, i ≠ .encode msg) → ws = encode i ++ rest)

/-- R68: the four decode checks in their order, on the fields of the header word, and no other. -/
def Obligations.DecodeChecksInOrder : Prop :=
  ∀ (w0 w1 : Word) (payload : List Word),
    let opc := w0.toNat / 2 ^ 24
    let sel := w0.toNat / 2 ^ 16 % 2 ^ 8
    let rsv := w0.toNat % 2 ^ 16
    (0x0A < opc → decodeCommand w0 w1 payload = .error .opcode) ∧
    (opc ≤ 0x0A → rsv ≠ 0 → decodeCommand w0 w1 payload = .error .reservedBits) ∧
    (opc ≤ 0x0A → rsv = 0 → legalSelector opc sel = false → decodeCommand w0 w1 payload = .error .selector) ∧
    (opc ≤ 0x0A → rsv = 0 → legalSelector opc sel = true → zeroOperand opc = true → w1 ≠ 0 →
      decodeCommand w0 w1 payload = .error .operand) ∧
    (opc ≤ 0x0A → rsv = 0 → legalSelector opc sel = true → (zeroOperand opc = true → w1 = 0) →
      ∃ i, decodeCommand w0 w1 payload = .ok i)

/-- R65: the length of a command follows from its first two words alone, a command whose words have not all arrived is
not decoded, and legal and illegal commands alike use up exactly that many words. -/
def Obligations.LengthFromFirstTwoWords : Prop :=
  ∀ (w0 w1 : Word) (rest : List Word),
    let n := payloadWords (w0.toNat / 2 ^ 24) w1.toNat
    (rest.length < n → decode (w0 :: w1 :: rest) = .incomplete) ∧
    (n ≤ rest.length →
      (∃ i, decode (w0 :: w1 :: rest) = .command i (rest.drop n)) ∨
      (∃ d, decode (w0 :: w1 :: rest) = .illegal d (rest.drop n)))

/-- R49, R52: bytes arriving least significant first are grouped four to a word, wherever a delivery is cut: sending the
bytes of words is sending the words, and sending two pieces is sending the whole. -/
def Obligations.ByteTransportCarriesWords : Prop :=
  (∀ (ws : List Word) (s : State), s.env.rxBytes = [] →
    sendBytes (ws.flatMap fun w => [w.extractLsb' 0 8, w.extractLsb' 8 8, w.extractLsb' 16 8, w.extractLsb' 24 8]) s =
      sendWords ws s) ∧
  (∀ (a b : List Byte) (s : State), sendBytes (a ++ b) s = sendBytes b (sendBytes a s))

/-! ## The step -/

/-- A step runs the decoded instruction: when the host moves next and the words at the head of the command stream
decode to `i`, the step is `exec i` with the words consumed (and the host's turn used up, scripted or free, while the
block runs). -/
def Obligations.StepRunsDecodedCommand : Prop :=
  ∀ (s : State) (i : Instr) (rest : List Word) (e : Environment),
    hostMoves s e → decode s.env.cmdIn = .command i rest → step s = exec i (afterFetch s rest e)

/-- R69, R140: an illegal command ends with status ILLEGAL_COMMAND (4) and its detail, its words are consumed, and
nothing else changes. -/
def Obligations.IllegalCommandOnlyAnswers : Prop :=
  ∀ (s : State) (d : IllegalDetail) (rest : List Word) (e : Environment),
    hostMoves s e → decode s.env.cmdIn = .illegal d rest →
    step s = .next
      (match d with
      | .opcode => answered 4 1 [0x104] (afterFetch s rest e)
      | .reservedBits => answered 4 2 [0x204] (afterFetch s rest e)
      | .selector => answered 4 3 [0x304] (afterFetch s rest e)
      | .operand => answered 4 4 [0x404] (afterFetch s rest e))

/-- R52, R157: while the words of a command have not all arrived the block waits, and no state element changes. MODEL'S
CHOICE (log entry 10): R52 says that a waiting block takes no step; here it is a step that answers the same state, and
that uses up the host's turn if the block runs. -/
def Obligations.IncompleteCommandWaits : Prop :=
  ∀ (s : State) (e : Environment),
    hostMoves s e → decode s.env.cmdIn = .incomplete → step s = .next { s with env := e }

/-- The block has no trap, no fatal state and no halt (R139, R149): every step of every state gives a next state. And
unless a reset is asserted the next step is the host's or the engine's (R55, R56), so the statements about the two
together leave no state out. -/
def Obligations.EveryStepGoesOn : Prop :=
  ∀ s : State, (∃ t, step s = .next t) ∧ (s.env.resetReq = false → ∃ e, hostMoves s e ∨ engineMoves s e)

/-! ## Reset -/

/-- R44: the state after reset holds the reset values the spec gives. MODEL'S CHOICE (log entry 14): the last two
clauses, that the model's own record of the streams starts empty. -/
def Obligations.ResetValues : Prop :=
  atReset State.reset ∧ State.reset.env.cmdIn = [] ∧ State.reset.env.rxBytes = []

/-- R158: a reset asserted by the platform takes effect between two steps: every state element takes its reset value,
and the words and bytes of a command that had only partly arrived are discarded: what is left of the command stream is
whole commands, so that the next word received is a W0. MODEL'S CHOICE (log entry 5): that the whole commands in front
of it wait on, and that what has been answered and written stands. -/
def Obligations.ResetEventDiscardsPartialCommand : Prop :=
  ∀ s : State, s.env.resetReq = true →
    ∃ t, step s = .next t ∧ atReset t ∧ t.hw = s.hw ∧
      t.env.responses = s.env.responses ∧ t.env.sinkWrites = s.env.sinkWrites ∧
      t.env.rxBytes = [] ∧ t.env.resetReq = false ∧
      WholeCommands t.env.cmdIn ∧ ∃ part, s.env.cmdIn = t.env.cmdIn ++ part ∧ decode part = .incomplete

/-! ## Invariants -/

/-- The invariant of the block holds after reset. -/
def Obligations.ResetKeepsInvariant : Prop := Inv State.reset

/-- R30, R33, R35, R37: every step of every state that meets the block's invariant gives a state that meets it. -/
def Obligations.StepKeepsInvariant : Prop := ∀ s t : State, Inv s → step s = .next t → Inv t

/-- The words the host sends, the bytes it sends, an asserted reset and the environment's scripts keep the invariant:
inputs land between steps and touch no state element. -/
def Obligations.InputsKeepInvariant : Prop :=
  ∀ s : State, Inv s →
    (∀ ws, Inv (sendWords ws s)) ∧ (∀ bs, Inv (sendBytes bs s)) ∧ Inv (requestReset s) ∧
    (∀ turns answers, Inv (scriptEnvironment turns answers s))

/-! ## Register access -/

/-- R136: NOP does nothing, in every mode; it clears LAST_ERR and LAST_DETAIL. -/
def Obligations.NopOnlyClearsStatus : Prop := ∀ s : State, exec .nop s = .next (answered 0 0 [0] s)

/-- R137: WRCFG stores any value bit for bit in the register its selector names, clears the session, and changes no
other register and nothing else. -/
def Obligations.WrcfgWritesOneRegister : Prop :=
  ∀ (s : State) (v : Word), s.mode = .idle →
    exec (.wrcfg .sampleRate v) s =
      .next (answered 0 0 [0] { s with cfg := { s.cfg with sampleRate := v }, sessionValid := false }) ∧
    exec (.wrcfg .toneFreq v) s =
      .next (answered 0 0 [0] { s with cfg := { s.cfg with toneFreq := v }, sessionValid := false }) ∧
    exec (.wrcfg .carrierFreq v) s =
      .next (answered 0 0 [0] { s with cfg := { s.cfg with carrierFreq := v }, sessionValid := false }) ∧
    exec (.wrcfg .modKind v) s =
      .next (answered 0 0 [0] { s with cfg := { s.cfg with modKind := v }, sessionValid := false }) ∧
    exec (.wrcfg .modIndex v) s =
      .next (answered 0 0 [0] { s with cfg := { s.cfg with modIndex := v }, sessionValid := false }) ∧
    exec (.wrcfg .wpm v) s =
      .next (answered 0 0 [0] { s with cfg := { s.cfg with wpm := v }, sessionValid := false }) ∧
    exec (.wrcfg .padding v) s =
      .next (answered 0 0 [0] { s with cfg := { s.cfg with padding := v }, sessionValid := false }) ∧
    exec (.wrcfg .bufLen v) s =
      .next (answered 0 0 [0] { s with cfg := { s.cfg with bufLen := v }, sessionValid := false })

/-- R31, R42: the register map. The command words `0x02 sel 0x0000, 0` read the value the map gives the selector, in
every mode, and change nothing but the status. (STATUS, selector 0x10, is the next statement.) -/
def Obligations.RdcfgReadsRegisterMap : Prop :=
  ∀ (s : State) (sel : BitVec 8) (v : Word),
    (sel, v) ∈ registerMap s →
    ∃ r, decodeCommand ((0x02 : BitVec 8) ++ sel ++ (0 : BitVec 16)) 0 [] = .ok (.rdcfg r) ∧
      exec (.rdcfg r) s = .next (answered 0 0 [0, v] s)

/-- R41, R145: RDCFG STATUS (0x02100000, 0) answers the STATUS word, its fields as the table of R41 gives them, the
reserved bits 0, LAST_ERR and LAST_DETAIL those of the command before it; right after reset it reads 0; and it is
read-only: WRCFG of its selector is illegal. -/
def Obligations.StatusRegisterFields : Prop :=
  (∀ v : Word, decodeCommand 0x01100000 v [] = .error .selector) ∧
  exec (.rdcfg .status) State.reset = .next (answered 0 0 [0, 0] State.reset) ∧
  ∀ s : State, ∃ v : Word,
    decodeCommand 0x02100000 0 [] = .ok (.rdcfg .status) ∧
    exec (.rdcfg .status) s = .next (answered 0 0 [0, v] s) ∧
    v.getLsbD 0 = (s.mode == .running) ∧ v.getLsbD 1 = s.stopReq ∧ v.getLsbD 2 = s.sessionValid ∧
    v.getLsbD 3 = s.tone.built ∧ v.getLsbD 4 = s.carrier.built ∧ v.getLsbD 5 = s.hw.hasFm ∧
    v.getLsbD 6 = s.pat.trunc ∧ v.getLsbD 7 = false ∧ v.extractLsb' 8 8 = s.lastErr ∧
    v.extractLsb' 16 8 = s.lastDetail ∧ v.extractLsb' 24 8 = 0

/-! ## Errors, for every command -/

/-- R127: while RUNNING every well-formed command but NOP, RDCFG and STOP ends with BUSY, detail 0, changes nothing but
LAST_ERR and LAST_DETAIL, and has its payload consumed. -/
def Obligations.RunningRefusesAsBusy : Prop :=
  ∀ (s : State) (i : Instr), s.mode = .running → needsIdle i = true →
    exec i s = .next (answered 2 0 [0x00000002] s) ∧
    ∀ (rest : List Word) (e : Environment), hostMoves s e → decode s.env.cmdIn = .command i rest →
      step s = .next (answered 2 0 [0x00000002] (afterFetch s rest e))

/-- R142, R166: an IDLE block without a session ends GEN, GATE, MOD and RUN with NOT_READY, detail 0, whatever the
count. -/
def Obligations.NoSessionIsNotReady : Prop :=
  ∀ (s : State) (i : Instr), s.mode = .idle → s.sessionValid = false →
    ((∃ ch n, i = .gen ch n) ∨ (∃ buf, i = .gate buf) ∨ (∃ buf, i = .mod buf) ∨ i = .run) →
    exec i s = .next (answered 3 0 [0x00000003] s)

/-- R140: a sample count above BUF_MAX ends GEN, GATE and MOD with INVALID_PARAMETER, detail COUNT. -/
def Obligations.CountAboveBufMaxIsInvalid : Prop :=
  ∀ s : State, s.mode = .idle → s.sessionValid = true →
    (∀ ch (n : Word), s.hw.bufMax.toNat < n.toNat → exec (.gen ch n) s = .next (answered 1 8 [0x00000801] s)) ∧
    (∀ buf, s.hw.bufMax.toNat < buf.length → exec (.gate buf) s = .next (answered 1 8 [0x00000801] s)) ∧
    (∀ buf, s.hw.bufMax.toNat < buf.length → exec (.mod buf) s = .next (answered 1 8 [0x00000801] s))

/-- R71, R145: every command answers a status word that carries its status code and its detail code with zeros above,
leaves those codes in LAST_ERR and LAST_DETAIL, and answers a payload only when the code is OK; the words already
answered stand. -/
def Obligations.EveryCommandRecordsItsStatus : Prop :=
  ∀ (i : Instr) (s : State), ∃ (t : State) (payload : List Word),
    exec i s = .next t ∧
    t.env.responses = s.env.responses ++ ((0 : BitVec 16) ++ t.lastDetail ++ t.lastErr) :: payload ∧
    (t.lastErr = 0 → t.lastDetail = 0) ∧ (payload ≠ [] → t.lastErr = 0)

/-- R144: a command that ends with an error is precise: its response is the status word alone, it writes LAST_ERR and
LAST_DETAIL, and nothing else changes. -/
def Obligations.FailedCommandHasNoPartialEffect : Prop :=
  ∀ (i : Instr) (s t : State), exec i s = .next t → t.lastErr ≠ 0 →
    t = answered t.lastErr t.lastDetail [(0 : BitVec 16) ++ t.lastDetail ++ t.lastErr] s

/-! ## Sample generation -/

/-- R78: a legal frequency and rate give a period of at least 2 slots, which fits the period buffer and a u32. -/
def Obligations.LegalTableHasTwoSlots : Prop :=
  ∀ (hw : Params) (f r : Word), tableLegal hw f.toInt r.toInt →
    tableOk hw f.toInt r.toInt = true ∧ 2 ≤ periodLength f.toInt r.toInt ∧
    periodLength f.toInt r.toInt ≤ hw.tableCapacity.toNat ∧ periodLength f.toInt r.toInt < 2 ^ 31

/-- R80: the exact slots of the default ROM, and its bound: slot L-1 is (1, +0), for even L slot L/2-1 is (-1, +0), for
L a multiple of 4 slots L/4-1 and 3L/4-1 are (+0, 1) and (+0, -1), and no component exceeds 1 in magnitude. -/
def Obligations.DefaultTableExactSlots : Prop :=
  ∀ l : Nat, 0 < l →
    trigRom .correctlyRounded l (l - 1) = ⟨0x3F800000, 0⟩ ∧
    (l % 2 = 0 → trigRom .correctlyRounded l (l / 2 - 1) = ⟨0xBF800000, 0⟩) ∧
    (l % 4 = 0 → trigRom .correctlyRounded l (l / 4 - 1) = ⟨0, 0x3F800000⟩ ∧
      trigRom .correctlyRounded l (3 * l / 4 - 1) = ⟨0, 0xBF800000⟩) ∧
    (∀ k, k < l →
      f32Mag (trigRom .correctlyRounded l k).i ≤ 0x3F800000 ∧ f32Mag (trigRom .correctlyRounded l k).q ≤ 0x3F800000)

/-- R112: with the default ROM every L consecutive samples of a channel hold a zero crossing, from any cursor. -/
def Obligations.EveryPeriodHasAZeroCrossing : Prop :=
  ∀ (hw : Params) (l c : Nat), LegalParams hw → hw.trig = .correctlyRounded → 0 < l →
    ∃ j, j < l ∧ zeroCrossing hw (trigRom hw.trig l ((c + j) % l)) = true

/-- R86: GEN with count 0 answers the status word only, and does not even build. -/
def Obligations.GenOfZeroBuildsNothing : Prop :=
  ∀ (ch : Channel) (s : State), s.mode = .idle → s.sessionValid = true →
    exec (.gen ch 0) s = .next (answered 0 0 [0] s)

/-- R84, R86, R90: GEN on a built channel answers n samples, each the ROM's slot at cursor + j modulo L, two words a
sample, and moves the cursor to cursor + n modulo L; the other channel and everything else stand. -/
def Obligations.GenReadsBuiltChannel : Prop :=
  ∀ (ch : Channel) (n : Word) (s : State), Inv s → s.mode = .idle → s.sessionValid = true →
    n.toNat ≤ s.hw.bufMax.toNat → n ≠ 0 → (s.chan ch).built = true →
    exec (.gen ch n) s =
      .next (answered 0 0
        (0 :: (List.range n.toNat).flatMap fun j =>
          wordsOf (trigRom s.hw.trig (s.chan ch).len.toNat (((s.chan ch).cursor.toNat + j) % (s.chan ch).len.toNat)))
        (s.setChan ch
          { s.chan ch with
            cursor := BitVec.ofNat 32 (((s.chan ch).cursor.toNat + n.toNat) % (s.chan ch).len.toNat) }))

/-- R83, R84, R86: GEN on a channel that is not built first builds it, with L = floor(r / f) slots from the ROM, and
answers from slot 0 on; slots beyond L keep what they held. -/
def Obligations.GenBuildsOnFirstUse : Prop :=
  ∀ (ch : Channel) (n : Word) (s : State), Inv s → s.mode = .idle → s.sessionValid = true →
    n.toNat ≤ s.hw.bufMax.toNat → n ≠ 0 → (s.chan ch).built = false →
    ∃ (g : GeneratorState) (l : Nat),
      (l : Int) = s.cfg.sampleRate.toInt /
        (match ch with | .tone => s.cfg.toneFreq.toInt | .carrier => s.cfg.carrierFreq.toInt) ∧
      g.built = true ∧ g.len.toNat = l ∧ g.cursor.toNat = n.toNat % l ∧
      (∀ k, k < l → g.buf[k]? = some (trigRom s.hw.trig l k)) ∧ (∀ k, l ≤ k → g.buf[k]? = (s.chan ch).buf[k]?) ∧
      exec (.gen ch n) s =
        .next (answered 0 0
          (0 :: (List.range n.toNat).flatMap fun j => wordsOf (trigRom s.hw.trig l (j % l))) (s.setChan ch g))

/-- R89: generating in two calls is generating in one: the same samples, the same state, whatever the split, built or
not before. -/
def Obligations.GenerateSplitsAnywhere : Prop :=
  ∀ (ch : Channel) (n1 n2 : Nat) (s : State), Inv s → s.sessionValid = true →
    generate ch (n1 + n2) s =
      ((generate ch n1 s).1 ++ (generate ch n2 (generate ch n1 s).2).1, (generate ch n2 (generate ch n1 s).2).2)

/-- R88: outputs a period apart are equal. -/
def Obligations.GenerateIsPeriodic : Prop :=
  ∀ (ch : Channel) (n j : Nat) (s : State), (s.chan ch).built = true → j + (s.chan ch).len.toNat < n →
    (generate ch n s).1[j + (s.chan ch).len.toNat]? = (generate ch n s).1[j]?

/-- R87: RELEASE returns one channel to not built, length 0, cursor 0, with or without a session, built or not; its
buffer's contents and the other channel stand. -/
def Obligations.ReleaseDiscardsOneChannel : Prop :=
  ∀ s : State, s.mode = .idle →
    exec (.release .tone) s =
      .next (answered 0 0 [0] { s with tone := { s.tone with built := false, len := 0, cursor := 0 } }) ∧
    exec (.release .carrier) s =
      .next (answered 0 0 [0] { s with carrier := { s.carrier with built := false, len := 0, cursor := 0 } })

/-! ## Morse encoder -/

/-- R91, R92, R99: every character has the code of R91's table and writes the slots of R99's; exactly the letters of
both cases, the digits and the space are mapped; a lower-case letter has its upper case's code and writes its slots; an
unmapped byte writes no slot. Besides (R93, R94), a mapped character ends in three off slots, and every letter and digit
begins with an on slot while the space is seven off slots. -/
def Obligations.MappedBytesWriteSlots : Prop :=
  (∀ row ∈ morseTable,
    morseOf row.1 = some (row.2.1.toList.map elementOfChar) ∧ byteSlots row.1 = row.2.2.toList.map (· == '1')) ∧
  ∀ b : Byte,
    ((morseOf b).isSome = true ↔
      (0x41 ≤ b.toNat ∧ b.toNat ≤ 0x5A) ∨ (0x61 ≤ b.toNat ∧ b.toNat ≤ 0x7A) ∨
      (0x30 ≤ b.toNat ∧ b.toNat ≤ 0x39) ∨ b = 0x20) ∧
    (0x61 ≤ b.toNat ∧ b.toNat ≤ 0x7A → morseOf b = morseOf (b - 0x20) ∧ byteSlots b = byteSlots (b - 0x20)) ∧
    ((morseOf b).isSome = false → byteSlots b = []) ∧
    ((morseOf b).isSome = true → (byteSlots b).reverse.take 3 = [false, false, false]) ∧
    ((morseOf b).isSome = true → b ≠ 0x20 → (byteSlots b).head? = some true) ∧
    (b = 0x20 → byteSlots b = List.replicate 7 false)

/-- R95, R96, R98: ENCODE puts the message's slots and then 7·PADDING off slots into the pattern RAM one by one until
it is full, records the count and whether a slot was dropped, answers both, restarts the CW state and clears the
session; slots beyond the count keep what they held, and nothing else changes. -/
def Obligations.EncodePutsSlotsOneByOne : Prop :=
  ∀ (msg : List Byte) (s : State), s.mode = .idle →
    let put := (messageSlots msg ++ List.replicate (7 * s.cfg.padding.toNat) false).foldl
      (putSlot s.hw.patternCapacity.toNat) ([], false)
    exec (.encode msg) s =
      .next (answered 0 0 [0, BitVec.ofNat 32 put.1.length, if put.2 then 1 else 0]
        { s with
          pat :=
            { slots := put.1 ++ s.pat.slots.drop put.1.length
              len := BitVec.ofNat 32 put.1.length
              trunc := put.2 }
          cw := { s.cw with index := 0, gate := true, count := 0 }
          sessionValid := false })

/-- R101: the dit length is the integer part of the exact quotient 60·r / (50·w), and fits a u32. -/
def Obligations.DitLengthIsExactQuotient : Prop :=
  ∀ r w : Word, 0 < r.toInt → 0 < w.toInt →
    50 * w.toInt * ditLength r.toInt w.toInt ≤ 60 * r.toInt ∧
    60 * r.toInt < 50 * w.toInt * (ditLength r.toInt w.toInt + 1) ∧
    0 ≤ ditLength r.toInt w.toInt ∧ ditLength r.toInt w.toInt < 2 ^ 32

/-! ## Zero-crossing gate -/

/-- R103: the zero-crossing band is closed, takes in both zeros, and never a NaN: for a legal ZC_EPS (either zero among
them) a sample is a crossing exactly when the magnitude bits of Q do not exceed those of ZC_EPS. -/
def Obligations.ZeroCrossingIsClosedBand : Prop :=
  ∀ (hw : Params) (x : Sample), LegalParams hw →
    zeroCrossing hw x = decide (x.q.toNat % 2 ^ 31 ≤ hw.zcEps.toNat % 2 ^ 31)

/-- R105: one sample of the gate: the advance at a zero crossing with the count at 0 and a pattern, then the saturating
decrement, then the sample itself if the gate value is now 1 and SILENCE if it is 0. -/
def Obligations.GateStepAdvancesAtCrossing : Prop :=
  ∀ (hw : Params) (p : MorsePattern) (c : CWState) (x : Sample),
    gateBuffer hw p c [x] = ([if (gateNext hw p c x).gate then x else ⟨0, 0⟩], gateNext hw p c x) ∧
    (c.count = 0 ∧ 0 < p.len.toNat ∧ f32Le (f32Abs x.q) hw.zcEps = true →
      (gateNext hw p c x).gate = patRead p.slots c.index.toNat ∧
      (gateNext hw p c x).index.toNat = (c.index.toNat + 1) % p.len.toNat ∧
      (gateNext hw p c x).count.toNat = c.ditLen.toNat - 1 ∧
      (gateNext hw p c x).ditLen = c.ditLen) ∧
    (¬(c.count = 0 ∧ 0 < p.len.toNat ∧ f32Le (f32Abs x.q) hw.zcEps = true) →
      (gateNext hw p c x).gate = c.gate ∧ (gateNext hw p c x).index = c.index ∧
      (gateNext hw p c x).count.toNat = c.count.toNat - 1 ∧
      (gateNext hw p c x).ditLen = c.ditLen)

/-- R108, R109: GATE answers every sample in order, bit for bit where the gate value after that sample is 1 and SILENCE
where it is 0, and leaves the CW state of the last sample; the pattern, the channels and everything else stand. -/
def Obligations.GateFoldsOverBuffer : Prop :=
  ∀ (buf : List Sample) (s : State), s.mode = .idle → s.sessionValid = true → buf.length ≤ s.hw.bufMax.toNat →
    exec (.gate buf) s =
      .next (answered 0 0
        (0 :: (List.range buf.length).flatMap fun j =>
          if ((buf.take (j + 1)).foldl (gateNext s.hw s.pat) s.cw).gate then wordsOf (buf.getD j ⟨0, 0⟩) else [0, 0])
        { s with cw := buf.foldl (gateNext s.hw s.pat) s.cw })

/-- R106: with an empty pattern and the gate value 1 every sample passes unmodified, and the gate value and the index
stand. -/
def Obligations.EmptyPatternPassesEverySample : Prop :=
  ∀ (buf : List Sample) (s : State), s.mode = .idle → s.sessionValid = true → buf.length ≤ s.hw.bufMax.toNat →
    s.pat.len = 0 → s.cw.gate = true →
    exec (.gate buf) s =
      .next (answered 0 0 (0 :: buf.flatMap wordsOf)
        { s with cw := { s.cw with count := BitVec.ofNat 32 (s.cw.count.toNat - buf.length) } })

/-- R111: an advance holds the loaded gate value for at least dit_len samples, the advancing one and the dit_len - 1
after it. -/
def Obligations.AdvanceHoldsForDitLength : Prop :=
  ∀ (hw : Params) (p : MorsePattern) (c : CWState) (x : Sample) (after : List Sample),
    c.count = 0 → 0 < p.len.toNat → zeroCrossing hw x = true → after.length < c.ditLen.toNat →
    (after.foldl (gateNext hw p) (gateNext hw p c x)).gate = patRead p.slots c.index.toNat

/-! ## Modulator -/

/-- R116, R124, R125: MOD in AM answers, for each pair (c, t), c·pilot + c·(t.I·m) on each component, every product and
sum rounded once in that order, and changes nothing but the status. -/
def Obligations.ModAmplitudeMultiplies : Prop :=
  ∀ (buf : List (Sample × Sample)) (s : State), s.mode = .idle → s.sessionValid = true →
    buf.length ≤ s.hw.bufMax.toNat → s.cfg.modKind = 0 →
    let nan := s.hw.canonNan
    exec (.mod buf) s =
      .next (answered 0 0
        (0 :: buf.flatMap fun p =>
          let v := f32Mul nan p.2.i s.cfg.modIndex
          [ f32Add nan (f32Mul nan p.1.i s.modu.pilot) (f32Mul nan p.1.i v)
          , f32Add nan (f32Mul nan p.1.q s.modu.pilot) (f32Mul nan p.1.q v) ])
        s)

/-- R123, R124, R125: MOD in FM advances the phase for each pair by cvt_i32(t.I·fm_k) modulo 2^32, in order, answers the
carrier sample turned by the rotation of the updated phase, and changes nothing but the phase and the status. R122: the
default rotation ROM holds the exact values at the four quarter turns. -/
def Obligations.ModPhaseAccumulates : Prop :=
  (rotationRom .correctlyRounded 0x00000000 = ⟨0x3F800000, 0⟩ ∧
    rotationRom .correctlyRounded 0x40000000 = ⟨0, 0x3F800000⟩ ∧
    rotationRom .correctlyRounded 0x80000000 = ⟨0xBF800000, 0⟩ ∧
    rotationRom .correctlyRounded 0xC0000000 = ⟨0, 0xBF800000⟩) ∧
  ∀ (buf : List (Sample × Sample)) (s : State), s.mode = .idle → s.sessionValid = true →
    buf.length ≤ s.hw.bufMax.toNat → s.cfg.modKind = 1 →
    let nan := s.hw.canonNan
    let phaseAfter := fun k => (buf.take k).foldl
      (fun (ph : Word) p => ph + BitVec.ofInt 32 (cvtI32 (f32Mul nan p.2.i s.modu.fmK))) s.modu.fmPhase
    exec (.mod buf) s =
      .next (answered 0 0
        (0 :: (List.range buf.length).flatMap fun j =>
          let c := (buf.getD j (⟨0, 0⟩, ⟨0, 0⟩)).1
          let rot := rotationRom s.hw.fmrot (phaseAfter (j + 1))
          [ f32Sub nan (f32Mul nan c.i rot.i) (f32Mul nan c.q rot.q)
          , f32Add nan (f32Mul nan c.i rot.q) (f32Mul nan c.q rot.i) ])
        { s with modu := { s.modu with fmPhase := phaseAfter buf.length } })

/-- R117: with the tone gated off AM sends the pilot carrier alone, exactly, for every finite carrier sample and every
index SETUP accepts. -/
def Obligations.SilentToneSendsPilotAlone : Prop :=
  ∀ (nan m : F32) (c : Sample), f32IsFinite m = true → f32Le 0 m = true →
    f32IsFinite c.i = true → f32IsFinite c.q = true →
    amSample nan m (f32Div nan m 0x41200000) c ⟨0, 0⟩ =
      ⟨f32Mul nan c.i (f32Div nan m 0x41200000), f32Mul nan c.q (f32Div nan m 0x41200000)⟩

/-- R121: cvt_i32 gives 0 for NaN; otherwise the nearest integer, ties to even, held within the signed 32-bit range. -/
def Obligations.CvtRoundsToNearestAndClamps : Prop :=
  ∀ a : F32,
    (f32IsNan a = true → cvtI32 a = 0) ∧
    (a = 0x7F800000 → cvtI32 a = 2 ^ 31 - 1) ∧ (a = 0xFF800000 → cvtI32 a = -2 ^ 31) ∧
    (f32IsFinite a = true →
      ((2 ^ 31 - 1) * 2 ^ 149 < f32Int a → cvtI32 a = 2 ^ 31 - 1) ∧
      (f32Int a < -2 ^ 31 * 2 ^ 149 → cvtI32 a = -2 ^ 31) ∧
      (-2 ^ 31 * 2 ^ 149 ≤ f32Int a → f32Int a ≤ (2 ^ 31 - 1) * 2 ^ 149 →
        2 * |cvtI32 a * 2 ^ 149 - f32Int a| ≤ 2 ^ 149 ∧
        (2 * |cvtI32 a * 2 ^ 149 - f32Int a| = 2 ^ 149 → cvtI32 a % 2 = 0)))

/-! ## binary32 -/

/-- R16: rounding is to the nearest binary32 value, ties to even, with overflow to infinity, and each of the four
operations rounds the exact result once. rne32 adds the sign, and rne32(0) is +0.0. On finite data f32_mul and f32_div
give the rounding of the exact product and quotient with the exclusive or of the signs, f32_add and f32_sub the rounding
of the exact sum and difference, subnormals kept; f32_abs clears the sign bit; a NaN operand gives CANON_NAN (`nan`).
MODEL'S CHOICE (log entry 19): what IEEE 754 gives, R16 not spelling it out, for infinite operands, for division by zero
and for the sign of a zero sum. -/
def Obligations.RoundingIsToNearestEven : Prop :=
  (∀ n d : Nat, 0 < d → RoundsToNearestEven n d) ∧
  (∀ (x : Int) (d : Nat), 0 < d → rne32 x d = datum (decide (x < 0)) (rneBits x.natAbs d) ∧ rne32 0 d = 0) ∧
  (∀ a : F32, (f32Abs a).toNat = bitsOf a ∧ f32IsNan a = decide (infinityBits < bitsOf a) ∧
    f32IsFinite a = decide (bitsOf a < infinityBits) ∧ (bitsOf a < infinityBits → f32Int a = valueOf a)) ∧
  ∀ nan a b : F32,
    let neg := xor (signOf a) (signOf b)
    (infinityBits < bitsOf a ∨ infinityBits < bitsOf b →
      f32Mul nan a b = nan ∧ f32Div nan a b = nan ∧ f32Add nan a b = nan ∧ f32Sub nan a b = nan) ∧
    (bitsOf a < infinityBits → bitsOf b < infinityBits →
      f32Mul nan a b = datum neg (rneBits (unitsOf a * unitsOf b) (2 ^ 149)) ∧
      (unitsOf b ≠ 0 → f32Div nan a b = datum neg (rneBits (unitsOf a * 2 ^ 149) (unitsOf b))) ∧
      (unitsOf b = 0 → f32Div nan a b = if unitsOf a = 0 then nan else datum neg infinityBits) ∧
      RoundedSum (f32Add nan a b) (valueOf a + valueOf b) (signOf a && signOf b) ∧
      RoundedSum (f32Sub nan a b) (valueOf a - valueOf b) (signOf a && !signOf b)) ∧
    (bitsOf a = infinityBits → bitsOf b < infinityBits →
      f32Mul nan a b = (if unitsOf b = 0 then nan else datum neg infinityBits) ∧
      f32Div nan a b = datum neg infinityBits ∧ f32Add nan a b = a ∧ f32Sub nan a b = a) ∧
    (bitsOf a < infinityBits → bitsOf b = infinityBits →
      f32Mul nan a b = (if unitsOf a = 0 then nan else datum neg infinityBits) ∧
      f32Div nan a b = datum neg 0 ∧ f32Add nan a b = b ∧ f32Sub nan a b = datum (!signOf b) infinityBits) ∧
    (bitsOf a = infinityBits → bitsOf b = infinityBits →
      f32Mul nan a b = datum neg infinityBits ∧ f32Div nan a b = nan ∧
      f32Add nan a b = (if neg then nan else a) ∧ f32Sub nan a b = if neg then a else nan)

/-- R16: f32_le is the ordered comparison of the values: on finite data it compares them, -infinity is below and
+infinity above everything, each infinity equal to itself alone, and it is false on NaN. -/
def Obligations.LeComparesValues : Prop :=
  ∀ a b : F32,
    (f32IsNan a = true ∨ f32IsNan b = true → f32Le a b = false) ∧
    (f32IsFinite a = true → f32IsFinite b = true → f32Le a b = decide (f32Int a ≤ f32Int b)) ∧
    (f32IsNan a = false →
      f32Le a 0x7F800000 = true ∧ f32Le 0xFF800000 a = true ∧
      f32Le 0x7F800000 a = decide (a = 0x7F800000) ∧ f32Le a 0xFF800000 = decide (a = 0xFF800000))

/-! ## Session control -/

/-- R128: SETUP on a legal configuration starts a session: the dit length, the pilot and the FM scale from the
configuration, FM phase 0, the CW state at index 0 with gate 1, both channels released, both counters 0; the pattern
and everything else stand. -/
def Obligations.SetupStartsSession : Prop :=
  ∀ s : State, s.mode = .idle → SetupLegal s.hw s.cfg →
    exec .setup s =
      .next (answered 0 0 [0]
        { s with
          cw :=
            { index := 0
              gate := true
              count := 0
              ditLen := BitVec.ofNat 32 (60 * s.cfg.sampleRate.toInt / (50 * s.cfg.wpm.toInt)).toNat }
          modu :=
            { pilot := f32Div s.hw.canonNan s.cfg.modIndex 0x41200000
              fmK := rne32 (f32Int s.cfg.modIndex * s.cfg.toneFreq.toInt * 2 ^ 32) s.cfg.sampleRate.toInt.toNat
              fmPhase := 0 }
          tone := { s.tone with built := false, len := 0, cursor := 0 }
          carrier := { s.carrier with built := false, len := 0, cursor := 0 }
          frameCount := 0
          sinkErrCount := 0
          sessionValid := true })

/-- R128, R142: SETUP on an illegal configuration ends with INVALID_PARAMETER and the detail of the first failing check,
in the order MOD_KIND, FM_ABSENT, MOD_INDEX, WPM, BUF_LEN, TONE_TABLE, CARRIER_TABLE. -/
def Obligations.SetupReportsFirstFailure : Prop :=
  ∀ s : State, s.mode = .idle →
    let c := s.cfg
    let kind := c.modKind.toNat ≤ 1
    let fm := c.modKind.toNat = 1 → s.hw.hasFm = true
    let index := f32IsFinite c.modIndex = true ∧ f32Le 0 c.modIndex = true
    let wpm := 0 < c.wpm.toInt
    let buf := 1 ≤ c.bufLen.toNat ∧ c.bufLen.toNat ≤ s.hw.bufMax.toNat
    let tone := tableLegal s.hw c.toneFreq.toInt c.sampleRate.toInt
    let carrier := tableLegal s.hw c.carrierFreq.toInt c.sampleRate.toInt
    (¬kind → exec .setup s = .next (answered 1 1 [0x101] s)) ∧
    (kind → ¬fm → exec .setup s = .next (answered 1 2 [0x201] s)) ∧
    (kind → fm → ¬index → exec .setup s = .next (answered 1 3 [0x301] s)) ∧
    (kind → fm → index → ¬wpm → exec .setup s = .next (answered 1 4 [0x401] s)) ∧
    (kind → fm → index → wpm → ¬buf → exec .setup s = .next (answered 1 5 [0x501] s)) ∧
    (kind → fm → index → wpm → buf → ¬tone → exec .setup s = .next (answered 1 6 [0x601] s)) ∧
    (kind → fm → index → wpm → buf → tone → ¬carrier → exec .setup s = .next (answered 1 7 [0x701] s))

/-- R129: RUN in a valid session starts the engine; cursors, CW state and FM phase are not reset. -/
def Obligations.RunStartsEngine : Prop :=
  ∀ s : State, s.mode = .idle → s.sessionValid = true →
    exec .run s = .next (answered 0 0 [0] { s with mode := .running, stopReq := false })

/-- R130: STOP is accepted in every mode: while RUNNING it latches the stop request, while IDLE it changes nothing but
the status. -/
def Obligations.StopLatchesRequest : Prop :=
  ∀ s : State,
    (s.mode = .running → exec .stop s = .next (answered 0 0 [0] { s with stopReq := true })) ∧
    (s.mode = .idle → exec .stop s = .next (answered 0 0 [0] s))

/-- R131: the engine's step with a stop request pending makes no frame: the block is IDLE, both channels are released,
the session has ended, and nothing else has changed. -/
def Obligations.EngineStepEndsStream : Prop :=
  ∀ (s : State) (e : Environment), engineMoves s e → s.stopReq = true →
    step s =
      .next
        { s with
          mode := .idle
          stopReq := false
          sessionValid := false
          tone := { s.tone with built := false, len := 0, cursor := 0 }
          carrier := { s.carrier with built := false, len := 0, cursor := 0 }
          env := e }

/-- R126, R131, R132, R145: the engine's step without a stop request is one frame: it hands the BUF_LEN samples that the
units make (`frameSamples`) to the sink and leaves the units as they are then, counts the frame, counts the answer as a
failure exactly when it is not above zero (saturating), and touches neither the mode, the session, the configuration,
the pattern, the dit length, the scales, LAST_ERR, LAST_DETAIL, the command stream nor the response stream. That
`frame`'s samples and units are those of the commands GEN, GEN, GATE and MOD is the next statement. -/
def Obligations.EngineStepWritesOneFrame : Prop :=
  ∀ (s : State) (e e' : Environment) (answer : Word),
    engineMoves s e → s.stopReq = false → sinkAnswers answer e e' →
    let made := frameSamples { s with env := e' }
    made.1.length = s.cfg.bufLen.toNat ∧
    made.2.cw.ditLen = s.cw.ditLen ∧ made.2.modu.pilot = s.modu.pilot ∧ made.2.modu.fmK = s.modu.fmK ∧
    (s.cfg.modKind = 0 → made.2.modu.fmPhase = s.modu.fmPhase) ∧
    step s = .next (frame answer { s with env := e' }) ∧
    step s =
      .next
        { s with
          tone := made.2.tone
          carrier := made.2.carrier
          cw := made.2.cw
          modu := made.2.modu
          frameCount := BitVec.ofNat 32 (s.frameCount.toNat + 1)
          sinkErrCount :=
            if answer.toInt ≤ 0 then BitVec.ofNat 32 (min (s.sinkErrCount.toNat + 1) (2 ^ 32 - 1))
            else s.sinkErrCount
          env := { e' with sinkWrites := s.env.sinkWrites ++ [made.1] } }

/-- R126, R131, R156: a frame is the units run one after the other: the same samples, and the same channels, CW state and
modulator state, as GEN CARRIER, GEN TONE, GATE of the tone, and MOD of the carrier with the gated tone give on the same
session while IDLE. -/
def Obligations.FrameIsTheCommandsInTurn : Prop :=
  ∀ (s : State) (answer : Word), Inv s → s.mode = .running →
    ∃ (c t g y : List Sample) (s1 s2 s3 s4 : State),
      exec (.gen .carrier s.cfg.bufLen) { s with mode := .idle } = .next s1 ∧
      s1.env.responses = s.env.responses ++ 0 :: c.flatMap wordsOf ∧
      exec (.gen .tone s.cfg.bufLen) s1 = .next s2 ∧
      s2.env.responses = s1.env.responses ++ 0 :: t.flatMap wordsOf ∧
      exec (.gate t) s2 = .next s3 ∧ s3.env.responses = s2.env.responses ++ 0 :: g.flatMap wordsOf ∧
      exec (.mod (c.zip g)) s3 = .next s4 ∧ s4.env.responses = s3.env.responses ++ 0 :: y.flatMap wordsOf ∧
      (frame answer s).env.sinkWrites = s.env.sinkWrites ++ [y] ∧
      (frame answer s).tone = s4.tone ∧ (frame answer s).carrier = s4.carrier ∧
      (frame answer s).cw = s4.cw ∧ (frame answer s).modu = s4.modu

/-- R134: the frame boundaries are invisible in the sample stream: k frames of N samples put the same words on the sink
stream, and leave the same channels, CW state and modulator state, as one frame of k·N samples. -/
def Obligations.FrameBoundariesAreInvisible : Prop :=
  ∀ (s : State) (answers : List Word) (answer : Word), Inv s → s.sessionValid = true → answers ≠ [] →
    answers.length * s.cfg.bufLen.toNat < 2 ^ 32 →
    let one := frame answer
      { s with cfg := { s.cfg with bufLen := BitVec.ofNat 32 (answers.length * s.cfg.bufLen.toNat) } }
    sinkWords (frames answers s) = sinkWords one ∧
    (frames answers s).tone = one.tone ∧ (frames answers s).carrier = one.carrier ∧
    (frames answers s).cw = one.cw ∧ (frames answers s).modu = one.modu

/-! ## Rules about the whole machine -/

/-- R28: only SETUP makes a session valid: a step that begins without one and ends with one is the host's, and runs
SETUP. -/
def Obligations.OnlySetupStartsASession : Prop :=
  ∀ s t : State, s.sessionValid = false → step s = .next t → t.sessionValid = true →
    ∃ rest, decode s.env.cmdIn = .command .setup rest ∧ s.env.resetReq = false

/-- R27, R131: RUNNING begins only with RUN, and ends only with the engine's step on a stop request or with a reset. -/
def Obligations.ModeChangesOnlyByRunStopAndReset : Prop :=
  ∀ s t : State, step s = .next t → s.env.resetReq = false →
    (s.mode = .idle → t.mode = .running → s.sessionValid = true ∧ ∃ rest, decode s.env.cmdIn = .command .run rest) ∧
    (s.mode = .running → t.mode = .idle → s.stopReq = true ∧ t.sessionValid = false)

/-- R165: while RUNNING the configuration and the pattern are frozen, and no built channel is rebuilt or shortened as
long as the block keeps running. -/
def Obligations.RunningFreezesConfigurationAndPattern : Prop :=
  ∀ s t : State, s.mode = .running → s.env.resetReq = false → step s = .next t →
    t.cfg = s.cfg ∧ t.pat = s.pat ∧ t.cw.ditLen = s.cw.ditLen ∧
    (t.mode = .running → ∀ ch, (s.chan ch).built = true →
      (t.chan ch).built = true ∧ (t.chan ch).len = (s.chan ch).len ∧ (t.chan ch).buf = (s.chan ch).buf)

/-- R46, R55: the streams only grow, in order, and each agent has its own: a step that writes to the sink answers no
command, a step that answers a command writes nothing to the sink, and no step changes the build. -/
def Obligations.StreamsOnlyGrow : Prop :=
  ∀ s t : State, step s = .next t →
    t.hw = s.hw ∧
    ∃ (resp : List Word) (sent : List (List Sample)),
      t.env.responses = s.env.responses ++ resp ∧ t.env.sinkWrites = s.env.sinkWrites ++ sent ∧
      (resp = [] ∨ sent = []) ∧ sent.length ≤ 1

/-- R167: PADDING is read by ENCODE and WPM and SAMPLE_RATE by SETUP: writing any configuration register changes neither
the pattern nor the dit length, the pilot, the FM scale, nor a channel. -/
def Obligations.WrcfgLeavesDerivedState : Prop :=
  ∀ (s t : State) (r : CfgReg) (v : Word), exec (.wrcfg r v) s = .next t →
    t.pat = s.pat ∧ t.cw = s.cw ∧ t.modu = s.modu ∧ t.tone = s.tone ∧ t.carrier = s.carrier ∧
    t.frameCount = s.frameCount ∧ t.sinkErrCount = s.sinkErrCount ∧ t.mode = s.mode ∧
    (s.mode = .idle → t.sessionValid = false ∧ ∀ r', t.cfg.get r' = if r' = r then v else s.cfg.get r')
end

