-- ==== Sys2Proof/Laws/Decode.lean ====
section
/-! SUPPORT. The decoder's pieces: selectors and their names, fields of a header word, payload packing, and the
grouping of bytes into words. -/

namespace Sys2Proof

/-! ### Fields of a header word -/

theorem toNat_append_add {w v : Nat} (x : BitVec w) (y : BitVec v) :
    (x ++ y).toNat = x.toNat * 2 ^ v + y.toNat := by
  rw [BitVec.toNat_append, ← Nat.shiftLeft_add_eq_or_of_lt y.isLt, Nat.shiftLeft_eq]

theorem header_toNat (opc sel : BitVec 8) : (header opc sel).toNat = opc.toNat * 2 ^ 24 + sel.toNat * 2 ^ 16 := by
  simp only [header, toNat_append_add]
  simp
  omega

theorem opcField_toNat (w0 : Word) : (opcField w0).toNat = w0.toNat / 2 ^ 24 := by
  have := w0.isLt
  simp only [opcField, BitVec.extractLsb'_toNat, Nat.shiftRight_eq_div_pow]
  omega

theorem selField_toNat (w0 : Word) : (selField w0).toNat = w0.toNat / 2 ^ 16 % 2 ^ 8 := by
  simp only [selField, BitVec.extractLsb'_toNat, Nat.shiftRight_eq_div_pow]

theorem rsvField_toNat (w0 : Word) : (rsvField w0).toNat = w0.toNat % 2 ^ 16 := by
  simp only [rsvField, BitVec.extractLsb'_toNat, Nat.shiftRight_eq_div_pow, Nat.pow_zero, Nat.div_one]

@[simp] theorem opcField_header (opc sel : BitVec 8) : opcField (header opc sel) = opc := by
  apply BitVec.eq_of_toNat_eq
  have h := opc.isLt
  have h' := sel.isLt
  rw [opcField_toNat, header_toNat]
  omega

@[simp] theorem selField_header (opc sel : BitVec 8) : selField (header opc sel) = sel := by
  apply BitVec.eq_of_toNat_eq
  have h := opc.isLt
  have h' := sel.isLt
  rw [selField_toNat, header_toNat]
  omega

@[simp] theorem rsvField_header (opc sel : BitVec 8) : rsvField (header opc sel) = 0 := by
  apply BitVec.eq_of_toNat_eq
  rw [rsvField_toNat, header_toNat]
  simp
  omega

/-- A header word is its three fields. -/
theorem eq_header {w0 : Word} (h : rsvField w0 = 0) : w0 = header (opcField w0) (selField w0) := by
  apply BitVec.eq_of_toNat_eq
  have h' : (rsvField w0).toNat = 0 := by rw [h]; rfl
  rw [rsvField_toNat] at h'
  rw [header_toNat, opcField_toNat, selField_toNat]
  have := w0.isLt
  omega

/-! ### Selectors -/

@[simp] theorem channelOfSel_channelSel (ch : Channel) : channelOfSel (channelSel ch) = some ch := by
  cases ch <;> rfl

@[simp] theorem cfgOfSel_cfgSel (r : CfgReg) : cfgOfSel (cfgSel r) = some r := by
  cases r <;> rfl

@[simp] theorem readOfSel_readSel (r : ReadReg) : readOfSel (readSel r) = some r := by
  cases r with
  | cfg r => simp [readOfSel, readSel]
  | _ => rfl

theorem channelSel_of_some {sel : BitVec 8} {ch : Channel} (h : channelOfSel sel = some ch) :
    sel = channelSel ch := by
  revert sel ch
  decide +kernel

theorem cfgSel_of_some {sel : BitVec 8} {r : CfgReg} (h : cfgOfSel sel = some r) : sel = cfgSel r := by
  revert sel r
  decide +kernel

theorem readSel_of_some {sel : BitVec 8} {r : ReadReg} (h : readOfSel sel = some r) : sel = readSel r := by
  revert sel r
  decide +kernel

/-! ### Bytes and words -/

@[simp] theorem bytesOfWord_wordOfBytes (a b c d : Byte) : bytesOfWord (wordOfBytes a b c d) = [a, b, c, d] := by
  have ha := a.isLt
  have hb := b.isLt
  have hc := c.isLt
  have hd := d.isLt
  have hw : (wordOfBytes a b c d).toNat =
      a.toNat + b.toNat * 2 ^ 8 + c.toNat * 2 ^ 16 + d.toNat * 2 ^ 24 := by
    simp only [wordOfBytes, toNat_append_add]
    omega
  simp only [bytesOfWord, List.cons.injEq, and_true]
  refine ⟨?_, ?_, ?_, ?_⟩ <;>
    · apply BitVec.eq_of_toNat_eq
      rw [BitVec.extractLsb'_toNat, Nat.shiftRight_eq_div_pow, hw]
      omega

@[simp] theorem wordOfBytes_bytes (w : Word) :
    wordOfBytes (w.extractLsb' 0 8) (w.extractLsb' 8 8) (w.extractLsb' 16 8) (w.extractLsb' 24 8) = w := by
  have := w.isLt
  apply BitVec.eq_of_toNat_eq
  simp only [wordOfBytes, toNat_append_add, BitVec.extractLsb'_toNat, Nat.shiftRight_eq_div_pow]
  omega

theorem bytesOfWord_length (w : Word) : (bytesOfWord w).length = 4 := rfl

theorem flatMap_bytesOfWord_length (ws : List Word) : (ws.flatMap bytesOfWord).length = 4 * ws.length := by
  induction ws with
  | nil => rfl
  | cons w ws ih =>
    rw [List.flatMap_cons, List.length_append, ih, bytesOfWord_length, List.length_cons]
    omega

/-- The bytes of packed words are the message bytes, and up to three zeros after them. -/
theorem packBytes_bytes (msg : List Byte) :
    ∃ pad, (packBytes msg).flatMap bytesOfWord = msg ++ pad ∧ pad.length < 4 := by
  induction msg using packBytes.induct with
  | case1 => exact ⟨[], rfl, by simp⟩
  | case2 a => exact ⟨[0, 0, 0], by simp [packBytes], by simp⟩
  | case3 a b => exact ⟨[0, 0], by simp [packBytes], by simp⟩
  | case4 a b c => exact ⟨[0], by simp [packBytes], by simp⟩
  | case5 a b c d rest ih =>
    obtain ⟨pad, h, hl⟩ := ih
    exact ⟨pad, by simp [packBytes, h], hl⟩

theorem packBytes_length (msg : List Byte) : (packBytes msg).length = (msg.length + 3) / 4 := by
  obtain ⟨pad, h, hl⟩ := packBytes_bytes msg
  have := congrArg List.length h
  rw [flatMap_bytesOfWord_length, List.length_append] at this
  omega

theorem messageBytes_packBytes (msg : List Byte) : messageBytes msg.length (packBytes msg) = msg := by
  obtain ⟨pad, h, -⟩ := packBytes_bytes msg
  simp [messageBytes, h]

/-- Grouping in two deliveries is grouping in one. -/
theorem groupBytes_append (a b : List Byte) :
    groupBytes (a ++ b) =
      ((groupBytes a).1 ++ (groupBytes ((groupBytes a).2 ++ b)).1, (groupBytes ((groupBytes a).2 ++ b)).2) := by
  induction a using groupBytes.induct with
  | case1 w x y z rest ih => simp [groupBytes, ih]
  | case2 part h =>
    have e : groupBytes part = ([], part) := by
      unfold groupBytes
      split
      · exact absurd rfl (h _ _ _ _ _)
      · rfl
    simp [e]

theorem groupBytes_words (ws : List Word) : groupBytes (ws.flatMap bytesOfWord) = (ws, []) := by
  induction ws with
  | nil => rfl
  | cons w ws ih => simp [bytesOfWord, groupBytes, ih]

theorem groupBytes_rest_length (bs : List Byte) : (groupBytes bs).2.length < 4 := by
  induction bs using groupBytes.induct with
  | case1 w x y z rest ih => simpa [groupBytes] using ih
  | case2 part h =>
    unfold groupBytes
    split
    · exact absurd rfl (h _ _ _ _ _)
    · match part, h with
      | [], _ => simp
      | [_], _ => simp
      | [_, _], _ => simp
      | [_, _, _], _ => simp
      | _ :: _ :: _ :: _ :: _, h => exact absurd rfl (h _ _ _ _ _)

/-! ### Samples and pairs -/

@[simp] theorem samplesOfWords_bufferWords (buf : List Sample) : samplesOfWords (bufferWords buf) = buf := by
  induction buf with
  | nil => rfl
  | cons x xs ih =>
    rw [bufferWords] at ih
    simp [bufferWords, sampleWords, samplesOfWords, ih]

@[simp] theorem pairsOfWords_flatMap (buf : List (Sample × Sample)) :
    pairsOfWords (buf.flatMap fun p => sampleWords p.1 ++ sampleWords p.2) = buf := by
  induction buf with
  | nil => rfl
  | cons x xs ih => simp [sampleWords, pairsOfWords] at ih ⊢; exact ih

/-- `2n` words are the words of the `n` samples they carry. -/
theorem bufferWords_samplesOfWords (ws : List Word) (n : Nat) (h : ws.length = 2 * n) :
    bufferWords (samplesOfWords ws) = ws ∧ (samplesOfWords ws).length = n := by
  induction ws using samplesOfWords.induct generalizing n with
  | case1 i q rest ih =>
    obtain ⟨m, rfl⟩ : ∃ m, n = m + 1 := ⟨n - 1, by simp at h; omega⟩
    obtain ⟨h1, h2⟩ := ih m (by simp at h; omega)
    rw [bufferWords] at h1
    simp [samplesOfWords, bufferWords, sampleWords, h1, h2]
  | case2 ws hne =>
    match ws, hne with
    | [], _ => simp at h; subst h; simp [samplesOfWords, bufferWords]
    | [_], _ => simp at h; omega
    | _ :: _ :: _, hne => exact absurd rfl (hne _ _ _)

/-- `4n` words are the words of the `n` pairs they carry. -/
theorem flatMap_pairsOfWords (ws : List Word) (n : Nat) (h : ws.length = 4 * n) :
    ((pairsOfWords ws).flatMap fun p => sampleWords p.1 ++ sampleWords p.2) = ws ∧
      (pairsOfWords ws).length = n := by
  induction ws using pairsOfWords.induct generalizing n with
  | case1 a b c d rest ih =>
    obtain ⟨m, rfl⟩ : ∃ m, n = m + 1 := ⟨n - 1, by simp at h; omega⟩
    obtain ⟨h1, h2⟩ := ih m (by simp at h; omega)
    simp [pairsOfWords, sampleWords, h2] at h1 ⊢
    exact h1
  | case2 ws hne =>
    match ws, hne with
    | [], _ => simp at h; subst h; simp [pairsOfWords]
    | [_], _ => simp at h; omega
    | [_, _], _ => simp at h; omega
    | [_, _, _], _ => simp at h; omega
    | _ :: _ :: _ :: _ :: _, hne => exact absurd rfl (hne _ _ _ _ _)

theorem flatMap_pairs_length (buf : List (Sample × Sample)) :
    (buf.flatMap fun p => sampleWords p.1 ++ sampleWords p.2).length = 4 * buf.length := by
  induction buf with
  | nil => rfl
  | cons x xs ih =>
    rw [List.flatMap_cons, List.length_append, ih, List.length_cons]
    simp [sampleWords]
    omega

theorem countWord_toNat {n : Nat} (h : n < 2 ^ 32) : (countWord n).toNat = n := by
  simp [countWord]
  omega

/-! ### Lengths and the outcomes of `decode` -/

theorem payloadLength_eq (w0 w1 : Word) :
    payloadLength w0 w1 =
      if (opcField w0).toNat = 5 then (w1.toNat + 3) / 4
      else if (opcField w0).toNat = 6 then 2 * w1.toNat
      else if (opcField w0).toNat = 7 then 4 * w1.toNat
      else 0 := by
  unfold payloadLength
  split <;> simp_all

theorem decode_short {w0 w1 : Word} {rest : List Word} (h : rest.length < payloadLength w0 w1) :
    decode (w0 :: w1 :: rest) = .incomplete := by
  simp [decode, h]

theorem decode_ok {w0 w1 : Word} {p rest : List Word} {i : Instr} (h : payloadLength w0 w1 = p.length)
    (hd : decodeCommand w0 w1 p = .ok i) : decode (w0 :: w1 :: (p ++ rest)) = .command i rest := by
  simp [decode, h, hd]

theorem decode_error {w0 w1 : Word} {p rest : List Word} {d : IllegalDetail}
    (h : payloadLength w0 w1 = p.length) (hd : decodeCommand w0 w1 p = .error d) :
    decode (w0 :: w1 :: (p ++ rest)) = .illegal d rest := by
  simp [decode, h, hd]

/-- The three outcomes of `decode`, and the words each is read from. -/
theorem decode_cases (ws : List Word) :
    decode ws = .incomplete ∨
      ∃ w0 w1 p rest, ws = w0 :: w1 :: (p ++ rest) ∧ p.length = payloadLength w0 w1 ∧
        ((∃ d, decodeCommand w0 w1 p = .error d ∧ decode ws = .illegal d rest) ∨
          (∃ i, decodeCommand w0 w1 p = .ok i ∧ decode ws = .command i rest)) := by
  match ws with
  | [] => exact .inl rfl
  | [_] => exact .inl rfl
  | w0 :: w1 :: more =>
    by_cases h : more.length < payloadLength w0 w1
    · exact .inl (decode_short h)
    · right
      obtain ⟨p, rest, rfl, hl⟩ : ∃ p rest, more = p ++ rest ∧ p.length = payloadLength w0 w1 :=
        ⟨more.take (payloadLength w0 w1), more.drop (payloadLength w0 w1), by simp, by simp; omega⟩
      refine ⟨w0, w1, p, rest, rfl, hl, ?_⟩
      cases hd : decodeCommand w0 w1 p with
      | error d => exact .inl ⟨d, rfl, decode_error hl.symm hd⟩
      | ok i => exact .inr ⟨i, rfl, decode_ok hl.symm hd⟩

/-! ### The checks, as equations for `simp` -/

@[simp] theorem demand_true (d : IllegalDetail) : demand true d = .ok () := rfl
@[simp] theorem demand_false (d : IllegalDetail) : demand false d = .error d := rfl
@[simp] theorem named_some {α : Type} (a : α) : named (some a) = .ok a := rfl
@[simp] theorem named_none {α : Type} : named (none : Option α) = .error .selector := rfl

/-- The outcome of a check followed by more. -/
theorem demand_bind {α : Type} (ok : Bool) (d : IllegalDetail) (k : Except IllegalDetail α) :
    (do demand ok d; k) = if ok = true then k else .error d := by
  cases ok <;> rfl

theorem named_bind {α β : Type} (found : Option α) (k : α → Except IllegalDetail β) :
    (do let a ← named found; k a) = match found with
      | some a => k a
      | none => .error .selector := by
  cases found <;> rfl

/-- What a decoded command is, read back from its header and operand words. -/
theorem decodeCommand_inv {w0 w1 : Word} {p : List Word} {i : Instr} (h : decodeCommand w0 w1 p = .ok i) :
    rsvField w0 = 0 ∧
      ((opcField w0 = 0 ∧ selField w0 = 0 ∧ w1 = 0 ∧ i = .nop) ∨
        (∃ r, opcField w0 = 1 ∧ selField w0 = cfgSel r ∧ i = .wrcfg r w1) ∨
        (∃ r, opcField w0 = 2 ∧ selField w0 = readSel r ∧ w1 = 0 ∧ i = .rdcfg r) ∨
        (∃ ch, opcField w0 = 3 ∧ selField w0 = channelSel ch ∧ i = .gen ch w1) ∨
        (∃ ch, opcField w0 = 4 ∧ selField w0 = channelSel ch ∧ w1 = 0 ∧ i = .release ch) ∨
        (opcField w0 = 5 ∧ selField w0 = 0 ∧ i = .encode (messageBytes w1.toNat p)) ∨
        (opcField w0 = 6 ∧ selField w0 = 0 ∧ i = .gate (samplesOfWords p)) ∨
        (opcField w0 = 7 ∧ selField w0 = 0 ∧ i = .mod (pairsOfWords p)) ∨
        (opcField w0 = 8 ∧ selField w0 = 0 ∧ w1 = 0 ∧ i = .setup) ∨
        (opcField w0 = 9 ∧ selField w0 = 0 ∧ w1 = 0 ∧ i = .run) ∨
        (opcField w0 = 10 ∧ selField w0 = 0 ∧ w1 = 0 ∧ i = .stop)) := by
  have opc : ∀ k : BitVec 8, (opcField w0).toNat = k.toNat → opcField w0 = k := fun k => BitVec.eq_of_toNat_eq
  simp only [decodeCommand, bare, demand_bind, named_bind, beq_iff_eq, pure, Except.pure] at h
  split at h
  swap
  · cases h
  split at h
  swap
  · cases h
  rename_i h0
  refine ⟨h0, ?_⟩
  split at h <;> rename_i hop
  · split_ifs at h with h1 h2
    exact .inl ⟨opc 0 hop, h1, h2, by injection h with h; exact h.symm⟩
  · split at h
    · rename_i r hr
      exact .inr (.inl ⟨r, opc 1 hop, cfgSel_of_some hr, by injection h with h; exact h.symm⟩)
    · cases h
  · split at h
    · rename_i r hr
      split_ifs at h with h2
      exact .inr (.inr (.inl ⟨r, opc 2 hop, readSel_of_some hr, h2, by injection h with h; exact h.symm⟩))
    · cases h
  · split at h
    · rename_i ch hr
      exact .inr (.inr (.inr (.inl ⟨ch, opc 3 hop, channelSel_of_some hr, by injection h with h; exact h.symm⟩)))
    · cases h
  · split at h
    · rename_i ch hr
      split_ifs at h with h2
      exact .inr (.inr (.inr (.inr (.inl
        ⟨ch, opc 4 hop, channelSel_of_some hr, h2, by injection h with h; exact h.symm⟩))))
    · cases h
  · split_ifs at h with h1
    exact .inr (.inr (.inr (.inr (.inr (.inl ⟨opc 5 hop, h1, by injection h with h; exact h.symm⟩)))))
  · split_ifs at h with h1
    exact .inr (.inr (.inr (.inr (.inr (.inr (.inl ⟨opc 6 hop, h1, by injection h with h; exact h.symm⟩))))))
  · split_ifs at h with h1
    exact .inr (.inr (.inr (.inr (.inr (.inr (.inr (.inl
      ⟨opc 7 hop, h1, by injection h with h; exact h.symm⟩)))))))
  · split_ifs at h with h1 h2
    exact .inr (.inr (.inr (.inr (.inr (.inr (.inr (.inr (.inl
      ⟨opc 8 hop, h1, h2, by injection h with h; exact h.symm⟩))))))))
  · split_ifs at h with h1 h2
    exact .inr (.inr (.inr (.inr (.inr (.inr (.inr (.inr (.inr (.inl
      ⟨opc 9 hop, h1, h2, by injection h with h; exact h.symm⟩)))))))))
  · split_ifs at h with h1 h2
    exact .inr (.inr (.inr (.inr (.inr (.inr (.inr (.inr (.inr (.inr
      ⟨opc 10 hop, h1, h2, by injection h with h; exact h.symm⟩)))))))))
  · cases h

end Sys2Proof
end

