-- ==== Sys2Proof/Laws/F32.lean ====
section
/-! SUPPORT. Facts about binary32 data and rounding (spec/00_scope.md R16). -/

namespace Sys2Proof.Machine

/-! ### Magnitudes -/

theorem f32Mag_eq (a : F32) : f32Mag a = f32Exp a * 2 ^ 23 + f32Frac a := by
  have := a.isLt
  simp only [f32Mag, f32Exp, f32Frac]
  omega

theorem f32Frac_lt (a : F32) : f32Frac a < 2 ^ 23 := Nat.mod_lt _ (by decide)

theorem f32Mag_lt (a : F32) : f32Mag a < 2 ^ 31 := Nat.mod_lt _ (by decide)

theorem f32Exp_lt (a : F32) : f32Exp a < 2 ^ 8 := Nat.mod_lt _ (by decide)

theorem f32IsNan_iff (a : F32) : f32IsNan a = true ↔ f32InfBits < f32Mag a := by
  have h1 := f32Frac_lt a
  have h2 := f32Exp_lt a
  simp only [f32IsNan, Bool.and_eq_true, beq_iff_eq, bne_iff_ne, f32Mag_eq, f32InfBits]
  omega

theorem f32IsInf_iff (a : F32) : f32IsInf a = true ↔ f32Mag a = f32InfBits := by
  have h1 := f32Frac_lt a
  have h2 := f32Exp_lt a
  simp only [f32IsInf, Bool.and_eq_true, beq_iff_eq, f32Mag_eq, f32InfBits]
  omega

theorem f32IsFinite_iff (a : F32) : f32IsFinite a = true ↔ f32Mag a < f32InfBits := by
  have h1 := f32Frac_lt a
  have h2 := f32Exp_lt a
  simp only [f32IsFinite, bne_iff_ne, f32Mag_eq, f32InfBits]
  omega

theorem f32IsZero_iff (a : F32) : f32IsZero a = true ↔ f32Mag a = 0 := by
  simp [f32IsZero]

theorem f32Neg_iff (a : F32) : f32Neg a = true ↔ 2 ^ 31 ≤ a.toNat := by
  simp [f32Neg, BitVec.msb_eq_decide]

/-- A datum is its sign and its magnitude bits. -/
theorem f32Pack_self (a : F32) : f32Pack (f32Neg a) (f32Mag a) = a := by
  apply BitVec.eq_of_toNat_eq
  have := a.isLt
  by_cases h : f32Neg a = true
  · have h' := (f32Neg_iff a).1 h
    simp only [f32Pack, h, if_true, f32Mag, BitVec.toNat_ofNat]
    omega
  · have h' := mt (f32Neg_iff a).2 h
    simp only [Bool.not_eq_true] at h
    simp only [f32Pack, h, f32Mag, BitVec.toNat_ofNat, Bool.false_eq_true, if_false]
    omega

theorem f32Pack_toNat (neg : Bool) {b : Nat} (h : b < 2 ^ 31) :
    (f32Pack neg b).toNat = (if neg then 2 ^ 31 else 0) + b := by
  cases neg <;> simp [f32Pack] <;> omega

@[simp] theorem f32Mag_pack (neg : Bool) {b : Nat} (h : b < 2 ^ 31) : f32Mag (f32Pack neg b) = b := by
  rw [f32Mag, f32Pack_toNat neg h]
  cases neg <;> simp
  all_goals omega

@[simp] theorem f32Neg_pack (neg : Bool) {b : Nat} (h : b < 2 ^ 31) : f32Neg (f32Pack neg b) = neg := by
  have := f32Neg_iff (f32Pack neg b)
  rw [f32Pack_toNat neg h] at this
  cases neg
  · rw [Bool.eq_false_iff, Ne, this]; simp; omega
  · rw [this]; simp

/-! ### Clearing and inverting the sign -/

@[simp] theorem f32Abs_toNat (a : F32) : (f32Abs a).toNat = f32Mag a := by
  rw [f32Abs, BitVec.toNat_and]
  exact Nat.and_two_pow_sub_one_eq_mod a.toNat 31

@[simp] theorem f32Mag_negate (a : F32) : f32Mag (f32Negate a) = f32Mag a := by
  unfold f32Mag f32Negate
  rw [BitVec.toNat_xor, Nat.xor_mod_two_pow]
  exact Nat.xor_zero _

@[simp] theorem f32Neg_negate (a : F32) : f32Neg (f32Negate a) = !f32Neg a := by
  unfold f32Neg f32Negate
  rw [BitVec.msb_xor]
  exact Bool.xor_true _

@[simp] theorem f32IsNan_negate (a : F32) : f32IsNan (f32Negate a) = f32IsNan a := by
  rw [Bool.eq_iff_iff, f32IsNan_iff, f32IsNan_iff, f32Mag_negate]

@[simp] theorem f32IsInf_negate (a : F32) : f32IsInf (f32Negate a) = f32IsInf a := by
  rw [Bool.eq_iff_iff, f32IsInf_iff, f32IsInf_iff, f32Mag_negate]

/-- The value of magnitude bits, in units of 2^-149. -/
def magUnits (b : Nat) : Nat := if b / 2 ^ 23 = 0 then b else (2 ^ 23 + b % 2 ^ 23) * 2 ^ (b / 2 ^ 23 - 1)

theorem f32Units_eq (a : F32) : f32Units a = magUnits (f32Mag a) := by
  have h := f32Frac_lt a
  have e : f32Mag a / 2 ^ 23 = f32Exp a := by rw [f32Mag_eq]; omega
  have r : f32Mag a % 2 ^ 23 = f32Frac a := by rw [f32Mag_eq]; omega
  unfold f32Units magUnits
  rw [e, r]
  split
  · next h0 => rw [f32Mag_eq, h0]; omega
  · rfl

/-- Inverting the sign bit negates the value. -/
@[simp] theorem f32Int_negate (a : F32) : f32Int (f32Negate a) = -f32Int a := by
  unfold f32Int
  rw [f32Neg_negate, f32Units_eq, f32Units_eq, f32Mag_negate]
  cases f32Neg a <;> simp

/-! ### The rounded magnitude -/

theorem rneBits_le (n d : Nat) : rneBits n d ≤ f32InfBits := Nat.min_le_right _ _

theorem rneBits_lt (n d : Nat) : rneBits n d < 2 ^ 31 := lt_of_le_of_lt (rneBits_le n d) (by decide)

@[simp] theorem rneDiv_zero (d : Nat) : rneDiv 0 d = 0 := by
  simp [rneDiv]

@[simp] theorem rneBits_zero (d : Nat) : rneBits 0 d = 0 := by
  simp [rneBits]

theorem rneDiv_one (n : Nat) : rneDiv n 1 = n := by
  simp [rneDiv, Nat.mod_one]

/-- An exact multiple rounds to its quotient. -/
theorem rneDiv_mul_right (m d : Nat) (h : 0 < d) : rneDiv (m * d) d = m := by
  have h1 : m * d / d = m := Nat.mul_div_cancel m h
  have h2 : m * d % d = 0 := Nat.mul_mod_left m d
  unfold rneDiv
  rw [h1, h2]
  simp
  omega

/-- The nearest integer: within half, and even where it is exactly half away. -/
theorem rneDiv_spec (n d : Nat) (h : 0 < d) :
    2 * n ≤ (2 * rneDiv n d + 1) * d ∧ 2 * rneDiv n d * d ≤ 2 * n + d ∧
      (2 * n = (2 * rneDiv n d + 1) * d ∨ 2 * rneDiv n d * d = 2 * n + d → rneDiv n d % 2 = 0) := by
  have e := Nat.div_add_mod n d
  have l := Nat.mod_lt n h
  generalize hq : n / d = q at e
  generalize hr : n % d = r at e l
  have hd : d * q = q * d := Nat.mul_comm d q
  unfold rneDiv
  simp only [hq, hr]
  split
  · next c =>
    refine ⟨?_, ?_, ?_⟩
    · nlinarith
    · rcases c with c | ⟨c, -⟩ <;> nlinarith
    · rintro (c' | c')
      · nlinarith
      · rcases c with c | ⟨-, c2⟩
        · nlinarith
        · omega
  · next c =>
    have c1 : 2 * r ≤ d := by omega
    refine ⟨by nlinarith, by nlinarith, ?_⟩
    rintro (c' | c')
    · have : 2 * r = d := by nlinarith
      omega
    · nlinarith

theorem rneBits_eq (n d : Nat) :
    rneBits n d =
      min ((Nat.log2 (n / d) - 23) * 2 ^ 23 + rneDiv n (d * 2 ^ (Nat.log2 (n / d) - 23))) f32InfBits := rfl

/-- A finite datum's own units round to its own magnitude: nothing is lost (R16). -/
theorem rneBits_magUnits {b : Nat} (h : b < f32InfBits) : rneBits (magUnits b) 1 = b := by
  have hlt : b % 2 ^ 23 < 2 ^ 23 := Nat.mod_lt _ (by decide)
  have hm : b / 2 ^ 23 * 2 ^ 23 + b % 2 ^ 23 = b := by omega
  by_cases h0 : b / 2 ^ 23 = 0
  · have hk : magUnits b = b := if_pos h0
    have hs : Nat.log2 b - 23 = 0 := by
      by_cases hz : b = 0
      · simp [hz]
      · have := (Nat.log2_lt hz (k := 23)).2 (by omega)
        omega
    rw [hk, rneBits_eq, Nat.div_one, hs, Nat.pow_zero, Nat.mul_one, rneDiv_one]
    omega
  · obtain ⟨e, he⟩ : ∃ e, b / 2 ^ 23 = e + 1 := ⟨b / 2 ^ 23 - 1, by omega⟩
    have hk : magUnits b = (2 ^ 23 + b % 2 ^ 23) * 2 ^ e := by
      rw [magUnits, if_neg h0, he, Nat.add_sub_cancel]
    have hne : magUnits b ≠ 0 := by rw [hk]; positivity
    have hlog : Nat.log2 (magUnits b) - 23 = e := by
      have h1 : 23 + e ≤ Nat.log2 (magUnits b) := by
        apply (Nat.le_log2 hne).2
        rw [hk, pow_add]
        exact Nat.mul_le_mul_right _ (by omega)
      have h2 : Nat.log2 (magUnits b) < 24 + e := by
        apply (Nat.log2_lt hne).2
        rw [hk, pow_add]
        exact Nat.mul_lt_mul_of_pos_right (by omega) (by positivity)
      omega
    rw [rneBits_eq, Nat.div_one, hlog, hk, Nat.one_mul, rneDiv_mul_right _ _ (by positivity)]
    omega

end Sys2Proof.Machine
end

