-- ==== Sys2Proof/Laws/State.lean ====
section
/-! SUPPORT. One lemma per field per update of the state: what the update leaves there. -/

namespace Sys2Proof.Machine

variable (s : State)

/-! ### setMode -/

@[simp] theorem State.setMode_mode (m : Mode) : (s.setMode m).mode = m := rfl
@[simp] theorem State.setMode_sessionValid (m : Mode) : (s.setMode m).sessionValid = s.sessionValid := rfl
@[simp] theorem State.setMode_stopReq (m : Mode) : (s.setMode m).stopReq = s.stopReq := rfl
@[simp] theorem State.setMode_cfg (m : Mode) : (s.setMode m).cfg = s.cfg := rfl
@[simp] theorem State.setMode_tone (m : Mode) : (s.setMode m).tone = s.tone := rfl
@[simp] theorem State.setMode_carrier (m : Mode) : (s.setMode m).carrier = s.carrier := rfl
@[simp] theorem State.setMode_pat (m : Mode) : (s.setMode m).pat = s.pat := rfl
@[simp] theorem State.setMode_cw (m : Mode) : (s.setMode m).cw = s.cw := rfl
@[simp] theorem State.setMode_modu (m : Mode) : (s.setMode m).modu = s.modu := rfl
@[simp] theorem State.setMode_frameCount (m : Mode) : (s.setMode m).frameCount = s.frameCount := rfl
@[simp] theorem State.setMode_sinkErrCount (m : Mode) : (s.setMode m).sinkErrCount = s.sinkErrCount := rfl
@[simp] theorem State.setMode_lastErr (m : Mode) : (s.setMode m).lastErr = s.lastErr := rfl
@[simp] theorem State.setMode_lastDetail (m : Mode) : (s.setMode m).lastDetail = s.lastDetail := rfl
@[simp] theorem State.setMode_hw (m : Mode) : (s.setMode m).hw = s.hw := rfl
@[simp] theorem State.setMode_env (m : Mode) : (s.setMode m).env = s.env := rfl

/-! ### setSessionValid -/

@[simp] theorem State.setSessionValid_mode (b : Bool) : (s.setSessionValid b).mode = s.mode := rfl
@[simp] theorem State.setSessionValid_sessionValid (b : Bool) : (s.setSessionValid b).sessionValid = b := rfl
@[simp] theorem State.setSessionValid_stopReq (b : Bool) : (s.setSessionValid b).stopReq = s.stopReq := rfl
@[simp] theorem State.setSessionValid_cfg (b : Bool) : (s.setSessionValid b).cfg = s.cfg := rfl
@[simp] theorem State.setSessionValid_tone (b : Bool) : (s.setSessionValid b).tone = s.tone := rfl
@[simp] theorem State.setSessionValid_carrier (b : Bool) : (s.setSessionValid b).carrier = s.carrier := rfl
@[simp] theorem State.setSessionValid_pat (b : Bool) : (s.setSessionValid b).pat = s.pat := rfl
@[simp] theorem State.setSessionValid_cw (b : Bool) : (s.setSessionValid b).cw = s.cw := rfl
@[simp] theorem State.setSessionValid_modu (b : Bool) : (s.setSessionValid b).modu = s.modu := rfl
@[simp] theorem State.setSessionValid_frameCount (b : Bool) : (s.setSessionValid b).frameCount = s.frameCount := rfl
@[simp] theorem State.setSessionValid_sinkErrCount (b : Bool) : (s.setSessionValid b).sinkErrCount = s.sinkErrCount := rfl
@[simp] theorem State.setSessionValid_lastErr (b : Bool) : (s.setSessionValid b).lastErr = s.lastErr := rfl
@[simp] theorem State.setSessionValid_lastDetail (b : Bool) : (s.setSessionValid b).lastDetail = s.lastDetail := rfl
@[simp] theorem State.setSessionValid_hw (b : Bool) : (s.setSessionValid b).hw = s.hw := rfl
@[simp] theorem State.setSessionValid_env (b : Bool) : (s.setSessionValid b).env = s.env := rfl

/-! ### setStopReq -/

@[simp] theorem State.setStopReq_mode (b : Bool) : (s.setStopReq b).mode = s.mode := rfl
@[simp] theorem State.setStopReq_sessionValid (b : Bool) : (s.setStopReq b).sessionValid = s.sessionValid := rfl
@[simp] theorem State.setStopReq_stopReq (b : Bool) : (s.setStopReq b).stopReq = b := rfl
@[simp] theorem State.setStopReq_cfg (b : Bool) : (s.setStopReq b).cfg = s.cfg := rfl
@[simp] theorem State.setStopReq_tone (b : Bool) : (s.setStopReq b).tone = s.tone := rfl
@[simp] theorem State.setStopReq_carrier (b : Bool) : (s.setStopReq b).carrier = s.carrier := rfl
@[simp] theorem State.setStopReq_pat (b : Bool) : (s.setStopReq b).pat = s.pat := rfl
@[simp] theorem State.setStopReq_cw (b : Bool) : (s.setStopReq b).cw = s.cw := rfl
@[simp] theorem State.setStopReq_modu (b : Bool) : (s.setStopReq b).modu = s.modu := rfl
@[simp] theorem State.setStopReq_frameCount (b : Bool) : (s.setStopReq b).frameCount = s.frameCount := rfl
@[simp] theorem State.setStopReq_sinkErrCount (b : Bool) : (s.setStopReq b).sinkErrCount = s.sinkErrCount := rfl
@[simp] theorem State.setStopReq_lastErr (b : Bool) : (s.setStopReq b).lastErr = s.lastErr := rfl
@[simp] theorem State.setStopReq_lastDetail (b : Bool) : (s.setStopReq b).lastDetail = s.lastDetail := rfl
@[simp] theorem State.setStopReq_hw (b : Bool) : (s.setStopReq b).hw = s.hw := rfl
@[simp] theorem State.setStopReq_env (b : Bool) : (s.setStopReq b).env = s.env := rfl

/-! ### setCfg -/

@[simp] theorem State.setCfg_mode (c : CfgRegs) : (s.setCfg c).mode = s.mode := rfl
@[simp] theorem State.setCfg_sessionValid (c : CfgRegs) : (s.setCfg c).sessionValid = s.sessionValid := rfl
@[simp] theorem State.setCfg_stopReq (c : CfgRegs) : (s.setCfg c).stopReq = s.stopReq := rfl
@[simp] theorem State.setCfg_cfg (c : CfgRegs) : (s.setCfg c).cfg = c := rfl
@[simp] theorem State.setCfg_tone (c : CfgRegs) : (s.setCfg c).tone = s.tone := rfl
@[simp] theorem State.setCfg_carrier (c : CfgRegs) : (s.setCfg c).carrier = s.carrier := rfl
@[simp] theorem State.setCfg_pat (c : CfgRegs) : (s.setCfg c).pat = s.pat := rfl
@[simp] theorem State.setCfg_cw (c : CfgRegs) : (s.setCfg c).cw = s.cw := rfl
@[simp] theorem State.setCfg_modu (c : CfgRegs) : (s.setCfg c).modu = s.modu := rfl
@[simp] theorem State.setCfg_frameCount (c : CfgRegs) : (s.setCfg c).frameCount = s.frameCount := rfl
@[simp] theorem State.setCfg_sinkErrCount (c : CfgRegs) : (s.setCfg c).sinkErrCount = s.sinkErrCount := rfl
@[simp] theorem State.setCfg_lastErr (c : CfgRegs) : (s.setCfg c).lastErr = s.lastErr := rfl
@[simp] theorem State.setCfg_lastDetail (c : CfgRegs) : (s.setCfg c).lastDetail = s.lastDetail := rfl
@[simp] theorem State.setCfg_hw (c : CfgRegs) : (s.setCfg c).hw = s.hw := rfl
@[simp] theorem State.setCfg_env (c : CfgRegs) : (s.setCfg c).env = s.env := rfl

/-! ### setPat -/

@[simp] theorem State.setPat_mode (p : MorsePattern) : (s.setPat p).mode = s.mode := rfl
@[simp] theorem State.setPat_sessionValid (p : MorsePattern) : (s.setPat p).sessionValid = s.sessionValid := rfl
@[simp] theorem State.setPat_stopReq (p : MorsePattern) : (s.setPat p).stopReq = s.stopReq := rfl
@[simp] theorem State.setPat_cfg (p : MorsePattern) : (s.setPat p).cfg = s.cfg := rfl
@[simp] theorem State.setPat_tone (p : MorsePattern) : (s.setPat p).tone = s.tone := rfl
@[simp] theorem State.setPat_carrier (p : MorsePattern) : (s.setPat p).carrier = s.carrier := rfl
@[simp] theorem State.setPat_pat (p : MorsePattern) : (s.setPat p).pat = p := rfl
@[simp] theorem State.setPat_cw (p : MorsePattern) : (s.setPat p).cw = s.cw := rfl
@[simp] theorem State.setPat_modu (p : MorsePattern) : (s.setPat p).modu = s.modu := rfl
@[simp] theorem State.setPat_frameCount (p : MorsePattern) : (s.setPat p).frameCount = s.frameCount := rfl
@[simp] theorem State.setPat_sinkErrCount (p : MorsePattern) : (s.setPat p).sinkErrCount = s.sinkErrCount := rfl
@[simp] theorem State.setPat_lastErr (p : MorsePattern) : (s.setPat p).lastErr = s.lastErr := rfl
@[simp] theorem State.setPat_lastDetail (p : MorsePattern) : (s.setPat p).lastDetail = s.lastDetail := rfl
@[simp] theorem State.setPat_hw (p : MorsePattern) : (s.setPat p).hw = s.hw := rfl
@[simp] theorem State.setPat_env (p : MorsePattern) : (s.setPat p).env = s.env := rfl

/-! ### setCw -/

@[simp] theorem State.setCw_mode (c : CWState) : (s.setCw c).mode = s.mode := rfl
@[simp] theorem State.setCw_sessionValid (c : CWState) : (s.setCw c).sessionValid = s.sessionValid := rfl
@[simp] theorem State.setCw_stopReq (c : CWState) : (s.setCw c).stopReq = s.stopReq := rfl
@[simp] theorem State.setCw_cfg (c : CWState) : (s.setCw c).cfg = s.cfg := rfl
@[simp] theorem State.setCw_tone (c : CWState) : (s.setCw c).tone = s.tone := rfl
@[simp] theorem State.setCw_carrier (c : CWState) : (s.setCw c).carrier = s.carrier := rfl
@[simp] theorem State.setCw_pat (c : CWState) : (s.setCw c).pat = s.pat := rfl
@[simp] theorem State.setCw_cw (c : CWState) : (s.setCw c).cw = c := rfl
@[simp] theorem State.setCw_modu (c : CWState) : (s.setCw c).modu = s.modu := rfl
@[simp] theorem State.setCw_frameCount (c : CWState) : (s.setCw c).frameCount = s.frameCount := rfl
@[simp] theorem State.setCw_sinkErrCount (c : CWState) : (s.setCw c).sinkErrCount = s.sinkErrCount := rfl
@[simp] theorem State.setCw_lastErr (c : CWState) : (s.setCw c).lastErr = s.lastErr := rfl
@[simp] theorem State.setCw_lastDetail (c : CWState) : (s.setCw c).lastDetail = s.lastDetail := rfl
@[simp] theorem State.setCw_hw (c : CWState) : (s.setCw c).hw = s.hw := rfl
@[simp] theorem State.setCw_env (c : CWState) : (s.setCw c).env = s.env := rfl

/-! ### setModu -/

@[simp] theorem State.setModu_mode (m : ModulatorState) : (s.setModu m).mode = s.mode := rfl
@[simp] theorem State.setModu_sessionValid (m : ModulatorState) : (s.setModu m).sessionValid = s.sessionValid := rfl
@[simp] theorem State.setModu_stopReq (m : ModulatorState) : (s.setModu m).stopReq = s.stopReq := rfl
@[simp] theorem State.setModu_cfg (m : ModulatorState) : (s.setModu m).cfg = s.cfg := rfl
@[simp] theorem State.setModu_tone (m : ModulatorState) : (s.setModu m).tone = s.tone := rfl
@[simp] theorem State.setModu_carrier (m : ModulatorState) : (s.setModu m).carrier = s.carrier := rfl
@[simp] theorem State.setModu_pat (m : ModulatorState) : (s.setModu m).pat = s.pat := rfl
@[simp] theorem State.setModu_cw (m : ModulatorState) : (s.setModu m).cw = s.cw := rfl
@[simp] theorem State.setModu_modu (m : ModulatorState) : (s.setModu m).modu = m := rfl
@[simp] theorem State.setModu_frameCount (m : ModulatorState) : (s.setModu m).frameCount = s.frameCount := rfl
@[simp] theorem State.setModu_sinkErrCount (m : ModulatorState) : (s.setModu m).sinkErrCount = s.sinkErrCount := rfl
@[simp] theorem State.setModu_lastErr (m : ModulatorState) : (s.setModu m).lastErr = s.lastErr := rfl
@[simp] theorem State.setModu_lastDetail (m : ModulatorState) : (s.setModu m).lastDetail = s.lastDetail := rfl
@[simp] theorem State.setModu_hw (m : ModulatorState) : (s.setModu m).hw = s.hw := rfl
@[simp] theorem State.setModu_env (m : ModulatorState) : (s.setModu m).env = s.env := rfl

/-! ### setCounters -/

@[simp] theorem State.setCounters_mode (f e : Word) : (s.setCounters f e).mode = s.mode := rfl
@[simp] theorem State.setCounters_sessionValid (f e : Word) : (s.setCounters f e).sessionValid = s.sessionValid := rfl
@[simp] theorem State.setCounters_stopReq (f e : Word) : (s.setCounters f e).stopReq = s.stopReq := rfl
@[simp] theorem State.setCounters_cfg (f e : Word) : (s.setCounters f e).cfg = s.cfg := rfl
@[simp] theorem State.setCounters_tone (f e : Word) : (s.setCounters f e).tone = s.tone := rfl
@[simp] theorem State.setCounters_carrier (f e : Word) : (s.setCounters f e).carrier = s.carrier := rfl
@[simp] theorem State.setCounters_pat (f e : Word) : (s.setCounters f e).pat = s.pat := rfl
@[simp] theorem State.setCounters_cw (f e : Word) : (s.setCounters f e).cw = s.cw := rfl
@[simp] theorem State.setCounters_modu (f e : Word) : (s.setCounters f e).modu = s.modu := rfl
@[simp] theorem State.setCounters_frameCount (f e : Word) : (s.setCounters f e).frameCount = f := rfl
@[simp] theorem State.setCounters_sinkErrCount (f e : Word) : (s.setCounters f e).sinkErrCount = e := rfl
@[simp] theorem State.setCounters_lastErr (f e : Word) : (s.setCounters f e).lastErr = s.lastErr := rfl
@[simp] theorem State.setCounters_lastDetail (f e : Word) : (s.setCounters f e).lastDetail = s.lastDetail := rfl
@[simp] theorem State.setCounters_hw (f e : Word) : (s.setCounters f e).hw = s.hw := rfl
@[simp] theorem State.setCounters_env (f e : Word) : (s.setCounters f e).env = s.env := rfl

/-! ### setLast -/

@[simp] theorem State.setLast_mode (e d : BitVec 8) : (s.setLast e d).mode = s.mode := rfl
@[simp] theorem State.setLast_sessionValid (e d : BitVec 8) : (s.setLast e d).sessionValid = s.sessionValid := rfl
@[simp] theorem State.setLast_stopReq (e d : BitVec 8) : (s.setLast e d).stopReq = s.stopReq := rfl
@[simp] theorem State.setLast_cfg (e d : BitVec 8) : (s.setLast e d).cfg = s.cfg := rfl
@[simp] theorem State.setLast_tone (e d : BitVec 8) : (s.setLast e d).tone = s.tone := rfl
@[simp] theorem State.setLast_carrier (e d : BitVec 8) : (s.setLast e d).carrier = s.carrier := rfl
@[simp] theorem State.setLast_pat (e d : BitVec 8) : (s.setLast e d).pat = s.pat := rfl
@[simp] theorem State.setLast_cw (e d : BitVec 8) : (s.setLast e d).cw = s.cw := rfl
@[simp] theorem State.setLast_modu (e d : BitVec 8) : (s.setLast e d).modu = s.modu := rfl
@[simp] theorem State.setLast_frameCount (e d : BitVec 8) : (s.setLast e d).frameCount = s.frameCount := rfl
@[simp] theorem State.setLast_sinkErrCount (e d : BitVec 8) : (s.setLast e d).sinkErrCount = s.sinkErrCount := rfl
@[simp] theorem State.setLast_lastErr (e d : BitVec 8) : (s.setLast e d).lastErr = e := rfl
@[simp] theorem State.setLast_lastDetail (e d : BitVec 8) : (s.setLast e d).lastDetail = d := rfl
@[simp] theorem State.setLast_hw (e d : BitVec 8) : (s.setLast e d).hw = s.hw := rfl
@[simp] theorem State.setLast_env (e d : BitVec 8) : (s.setLast e d).env = s.env := rfl

/-! ### setEnv -/

@[simp] theorem State.setEnv_mode (e : Environment) : (s.setEnv e).mode = s.mode := rfl
@[simp] theorem State.setEnv_sessionValid (e : Environment) : (s.setEnv e).sessionValid = s.sessionValid := rfl
@[simp] theorem State.setEnv_stopReq (e : Environment) : (s.setEnv e).stopReq = s.stopReq := rfl
@[simp] theorem State.setEnv_cfg (e : Environment) : (s.setEnv e).cfg = s.cfg := rfl
@[simp] theorem State.setEnv_tone (e : Environment) : (s.setEnv e).tone = s.tone := rfl
@[simp] theorem State.setEnv_carrier (e : Environment) : (s.setEnv e).carrier = s.carrier := rfl
@[simp] theorem State.setEnv_pat (e : Environment) : (s.setEnv e).pat = s.pat := rfl
@[simp] theorem State.setEnv_cw (e : Environment) : (s.setEnv e).cw = s.cw := rfl
@[simp] theorem State.setEnv_modu (e : Environment) : (s.setEnv e).modu = s.modu := rfl
@[simp] theorem State.setEnv_frameCount (e : Environment) : (s.setEnv e).frameCount = s.frameCount := rfl
@[simp] theorem State.setEnv_sinkErrCount (e : Environment) : (s.setEnv e).sinkErrCount = s.sinkErrCount := rfl
@[simp] theorem State.setEnv_lastErr (e : Environment) : (s.setEnv e).lastErr = s.lastErr := rfl
@[simp] theorem State.setEnv_lastDetail (e : Environment) : (s.setEnv e).lastDetail = s.lastDetail := rfl
@[simp] theorem State.setEnv_hw (e : Environment) : (s.setEnv e).hw = s.hw := rfl
@[simp] theorem State.setEnv_env (e : Environment) : (s.setEnv e).env = e := rfl

/-! ### setCmdIn -/

@[simp] theorem State.setCmdIn_mode (ws : List Word) : (s.setCmdIn ws).mode = s.mode := rfl
@[simp] theorem State.setCmdIn_sessionValid (ws : List Word) : (s.setCmdIn ws).sessionValid = s.sessionValid := rfl
@[simp] theorem State.setCmdIn_stopReq (ws : List Word) : (s.setCmdIn ws).stopReq = s.stopReq := rfl
@[simp] theorem State.setCmdIn_cfg (ws : List Word) : (s.setCmdIn ws).cfg = s.cfg := rfl
@[simp] theorem State.setCmdIn_tone (ws : List Word) : (s.setCmdIn ws).tone = s.tone := rfl
@[simp] theorem State.setCmdIn_carrier (ws : List Word) : (s.setCmdIn ws).carrier = s.carrier := rfl
@[simp] theorem State.setCmdIn_pat (ws : List Word) : (s.setCmdIn ws).pat = s.pat := rfl
@[simp] theorem State.setCmdIn_cw (ws : List Word) : (s.setCmdIn ws).cw = s.cw := rfl
@[simp] theorem State.setCmdIn_modu (ws : List Word) : (s.setCmdIn ws).modu = s.modu := rfl
@[simp] theorem State.setCmdIn_frameCount (ws : List Word) : (s.setCmdIn ws).frameCount = s.frameCount := rfl
@[simp] theorem State.setCmdIn_sinkErrCount (ws : List Word) : (s.setCmdIn ws).sinkErrCount = s.sinkErrCount := rfl
@[simp] theorem State.setCmdIn_lastErr (ws : List Word) : (s.setCmdIn ws).lastErr = s.lastErr := rfl
@[simp] theorem State.setCmdIn_lastDetail (ws : List Word) : (s.setCmdIn ws).lastDetail = s.lastDetail := rfl
@[simp] theorem State.setCmdIn_hw (ws : List Word) : (s.setCmdIn ws).hw = s.hw := rfl
@[simp] theorem State.setCmdIn_env (ws : List Word) : (s.setCmdIn ws).env = { s.env with cmdIn := ws } := rfl

/-! ### respond -/

@[simp] theorem State.respond_mode (ws : List Word) : (s.respond ws).mode = s.mode := rfl
@[simp] theorem State.respond_sessionValid (ws : List Word) : (s.respond ws).sessionValid = s.sessionValid := rfl
@[simp] theorem State.respond_stopReq (ws : List Word) : (s.respond ws).stopReq = s.stopReq := rfl
@[simp] theorem State.respond_cfg (ws : List Word) : (s.respond ws).cfg = s.cfg := rfl
@[simp] theorem State.respond_tone (ws : List Word) : (s.respond ws).tone = s.tone := rfl
@[simp] theorem State.respond_carrier (ws : List Word) : (s.respond ws).carrier = s.carrier := rfl
@[simp] theorem State.respond_pat (ws : List Word) : (s.respond ws).pat = s.pat := rfl
@[simp] theorem State.respond_cw (ws : List Word) : (s.respond ws).cw = s.cw := rfl
@[simp] theorem State.respond_modu (ws : List Word) : (s.respond ws).modu = s.modu := rfl
@[simp] theorem State.respond_frameCount (ws : List Word) : (s.respond ws).frameCount = s.frameCount := rfl
@[simp] theorem State.respond_sinkErrCount (ws : List Word) : (s.respond ws).sinkErrCount = s.sinkErrCount := rfl
@[simp] theorem State.respond_lastErr (ws : List Word) : (s.respond ws).lastErr = s.lastErr := rfl
@[simp] theorem State.respond_lastDetail (ws : List Word) : (s.respond ws).lastDetail = s.lastDetail := rfl
@[simp] theorem State.respond_hw (ws : List Word) : (s.respond ws).hw = s.hw := rfl
@[simp] theorem State.respond_env (ws : List Word) : (s.respond ws).env = { s.env with responses := s.env.responses ++ ws } := rfl

/-! ### sinkWrite -/

@[simp] theorem State.sinkWrite_mode (y : List Sample) : (s.sinkWrite y).mode = s.mode := rfl
@[simp] theorem State.sinkWrite_sessionValid (y : List Sample) : (s.sinkWrite y).sessionValid = s.sessionValid := rfl
@[simp] theorem State.sinkWrite_stopReq (y : List Sample) : (s.sinkWrite y).stopReq = s.stopReq := rfl
@[simp] theorem State.sinkWrite_cfg (y : List Sample) : (s.sinkWrite y).cfg = s.cfg := rfl
@[simp] theorem State.sinkWrite_tone (y : List Sample) : (s.sinkWrite y).tone = s.tone := rfl
@[simp] theorem State.sinkWrite_carrier (y : List Sample) : (s.sinkWrite y).carrier = s.carrier := rfl
@[simp] theorem State.sinkWrite_pat (y : List Sample) : (s.sinkWrite y).pat = s.pat := rfl
@[simp] theorem State.sinkWrite_cw (y : List Sample) : (s.sinkWrite y).cw = s.cw := rfl
@[simp] theorem State.sinkWrite_modu (y : List Sample) : (s.sinkWrite y).modu = s.modu := rfl
@[simp] theorem State.sinkWrite_frameCount (y : List Sample) : (s.sinkWrite y).frameCount = s.frameCount := rfl
@[simp] theorem State.sinkWrite_sinkErrCount (y : List Sample) : (s.sinkWrite y).sinkErrCount = s.sinkErrCount := rfl
@[simp] theorem State.sinkWrite_lastErr (y : List Sample) : (s.sinkWrite y).lastErr = s.lastErr := rfl
@[simp] theorem State.sinkWrite_lastDetail (y : List Sample) : (s.sinkWrite y).lastDetail = s.lastDetail := rfl
@[simp] theorem State.sinkWrite_hw (y : List Sample) : (s.sinkWrite y).hw = s.hw := rfl
@[simp] theorem State.sinkWrite_env (y : List Sample) : (s.sinkWrite y).env = { s.env with sinkWrites := s.env.sinkWrites ++ [y] } := rfl

/-! ### releaseBoth -/

@[simp] theorem State.releaseBoth_mode : s.releaseBoth.mode = s.mode := rfl
@[simp] theorem State.releaseBoth_sessionValid : s.releaseBoth.sessionValid = s.sessionValid := rfl
@[simp] theorem State.releaseBoth_stopReq : s.releaseBoth.stopReq = s.stopReq := rfl
@[simp] theorem State.releaseBoth_cfg : s.releaseBoth.cfg = s.cfg := rfl
@[simp] theorem State.releaseBoth_tone : s.releaseBoth.tone = s.tone.released := rfl
@[simp] theorem State.releaseBoth_carrier : s.releaseBoth.carrier = s.carrier.released := rfl
@[simp] theorem State.releaseBoth_pat : s.releaseBoth.pat = s.pat := rfl
@[simp] theorem State.releaseBoth_cw : s.releaseBoth.cw = s.cw := rfl
@[simp] theorem State.releaseBoth_modu : s.releaseBoth.modu = s.modu := rfl
@[simp] theorem State.releaseBoth_frameCount : s.releaseBoth.frameCount = s.frameCount := rfl
@[simp] theorem State.releaseBoth_sinkErrCount : s.releaseBoth.sinkErrCount = s.sinkErrCount := rfl
@[simp] theorem State.releaseBoth_lastErr : s.releaseBoth.lastErr = s.lastErr := rfl
@[simp] theorem State.releaseBoth_lastDetail : s.releaseBoth.lastDetail = s.lastDetail := rfl
@[simp] theorem State.releaseBoth_hw : s.releaseBoth.hw = s.hw := rfl
@[simp] theorem State.releaseBoth_env : s.releaseBoth.env = s.env := rfl

/-! ### setChan, by channel -/

@[simp] theorem State.setChan_mode (ch : Channel) (g : GeneratorState) : (s.setChan ch g).mode = s.mode := by
  cases ch <;> rfl
@[simp] theorem State.setChan_sessionValid (ch : Channel) (g : GeneratorState) : (s.setChan ch g).sessionValid = s.sessionValid := by
  cases ch <;> rfl
@[simp] theorem State.setChan_stopReq (ch : Channel) (g : GeneratorState) : (s.setChan ch g).stopReq = s.stopReq := by
  cases ch <;> rfl
@[simp] theorem State.setChan_cfg (ch : Channel) (g : GeneratorState) : (s.setChan ch g).cfg = s.cfg := by
  cases ch <;> rfl
@[simp] theorem State.setChan_pat (ch : Channel) (g : GeneratorState) : (s.setChan ch g).pat = s.pat := by
  cases ch <;> rfl
@[simp] theorem State.setChan_cw (ch : Channel) (g : GeneratorState) : (s.setChan ch g).cw = s.cw := by
  cases ch <;> rfl
@[simp] theorem State.setChan_modu (ch : Channel) (g : GeneratorState) : (s.setChan ch g).modu = s.modu := by
  cases ch <;> rfl
@[simp] theorem State.setChan_frameCount (ch : Channel) (g : GeneratorState) : (s.setChan ch g).frameCount = s.frameCount := by
  cases ch <;> rfl
@[simp] theorem State.setChan_sinkErrCount (ch : Channel) (g : GeneratorState) : (s.setChan ch g).sinkErrCount = s.sinkErrCount := by
  cases ch <;> rfl
@[simp] theorem State.setChan_lastErr (ch : Channel) (g : GeneratorState) : (s.setChan ch g).lastErr = s.lastErr := by
  cases ch <;> rfl
@[simp] theorem State.setChan_lastDetail (ch : Channel) (g : GeneratorState) : (s.setChan ch g).lastDetail = s.lastDetail := by
  cases ch <;> rfl
@[simp] theorem State.setChan_hw (ch : Channel) (g : GeneratorState) : (s.setChan ch g).hw = s.hw := by
  cases ch <;> rfl
@[simp] theorem State.setChan_env (ch : Channel) (g : GeneratorState) : (s.setChan ch g).env = s.env := by
  cases ch <;> rfl

@[simp] theorem State.setChan_tone_tone (g : GeneratorState) : (s.setChan .tone g).tone = g := rfl
@[simp] theorem State.setChan_tone_carrier (g : GeneratorState) : (s.setChan .tone g).carrier = s.carrier := rfl
@[simp] theorem State.setChan_carrier_tone (g : GeneratorState) : (s.setChan .carrier g).tone = s.tone := rfl
@[simp] theorem State.setChan_carrier_carrier (g : GeneratorState) : (s.setChan .carrier g).carrier = g := rfl

@[simp] theorem State.chan_tone : s.chan .tone = s.tone := rfl
@[simp] theorem State.chan_carrier : s.chan .carrier = s.carrier := rfl

theorem State.chan_setChan_self (ch : Channel) (g : GeneratorState) : (s.setChan ch g).chan ch = g := by
  cases ch <;> rfl

theorem State.chan_setChan_other {ch ch' : Channel} (h : ch' ≠ ch) (g : GeneratorState) :
    (s.setChan ch g).chan ch' = s.chan ch' := by
  cases ch <;> cases ch' <;> first | rfl | exact absurd rfl h

theorem State.setChan_setChan (ch : Channel) (g g' : GeneratorState) :
    (s.setChan ch g).setChan ch g' = s.setChan ch g' := by
  cases ch <;> rfl

@[simp] theorem State.setCw_setCw (c c' : CWState) : (s.setCw c).setCw c' = s.setCw c' := rfl

@[simp] theorem State.setCw_self : s.setCw s.cw = s := rfl

@[simp] theorem State.setModu_self : s.setModu s.modu = s := rfl

@[simp] theorem GeneratorState.released_built (g : GeneratorState) : g.released.built = false := rfl
@[simp] theorem GeneratorState.released_len (g : GeneratorState) : g.released.len = 0 := rfl
@[simp] theorem GeneratorState.released_cursor (g : GeneratorState) : g.released.cursor = 0 := rfl
@[simp] theorem GeneratorState.released_buf (g : GeneratorState) : g.released.buf = g.buf := rfl

@[simp] theorem CWState.restarted_index (c : CWState) : c.restarted.index = 0 := rfl
@[simp] theorem CWState.restarted_gate (c : CWState) : c.restarted.gate = true := rfl
@[simp] theorem CWState.restarted_count (c : CWState) : c.restarted.count = 0 := rfl
@[simp] theorem CWState.restarted_ditLen (c : CWState) : c.restarted.ditLen = c.ditLen := rfl

/-! ### complete -/

variable (st : Status) (payload : List Word)

@[simp] theorem complete_mode : (complete st payload s).mode = s.mode := rfl
@[simp] theorem complete_sessionValid : (complete st payload s).sessionValid = s.sessionValid := rfl
@[simp] theorem complete_stopReq : (complete st payload s).stopReq = s.stopReq := rfl
@[simp] theorem complete_cfg : (complete st payload s).cfg = s.cfg := rfl
@[simp] theorem complete_tone : (complete st payload s).tone = s.tone := rfl
@[simp] theorem complete_carrier : (complete st payload s).carrier = s.carrier := rfl
@[simp] theorem complete_pat : (complete st payload s).pat = s.pat := rfl
@[simp] theorem complete_cw : (complete st payload s).cw = s.cw := rfl
@[simp] theorem complete_modu : (complete st payload s).modu = s.modu := rfl
@[simp] theorem complete_frameCount : (complete st payload s).frameCount = s.frameCount := rfl
@[simp] theorem complete_sinkErrCount : (complete st payload s).sinkErrCount = s.sinkErrCount := rfl
@[simp] theorem complete_lastErr : (complete st payload s).lastErr = statusCode st := rfl
@[simp] theorem complete_lastDetail : (complete st payload s).lastDetail = detailCode st := rfl
@[simp] theorem complete_hw : (complete st payload s).hw = s.hw := rfl
@[simp] theorem complete_env : (complete st payload s).env = { s.env with responses := s.env.responses ++ statusWord st :: payload } := rfl

/-! ### The configuration registers -/

theorem CfgRegs.get_set (c : CfgRegs) (r r' : CfgReg) (v : Word) :
    (c.set r v).get r' = if r' = r then v else c.get r' := by
  cases r <;> cases r' <;> rfl

end Sys2Proof.Machine
end

