-- ==== Sys2Proof/Laws/Ops.lean ====
section
/-! SUPPORT. What the shared operations can do: a checked command either fails, changing only the status and the
response stream, or has its effect; the draws, the streams and the internal memories. -/

namespace Sys2Proof.Machine

/-! ### Checks -/

theorem checked_next (checks : List Check) (s : State) (effect : State → State) :
    (∃ st, firstFailure checks = some st ∧ checked checks s effect = .next (failCommand st s)) ∨
      (firstFailure checks = none ∧ checked checks s effect = .next (effect s)) := by
  unfold checked
  cases h : firstFailure checks with
  | some st => exact .inl ⟨st, rfl, rfl⟩
  | none => exact .inr ⟨rfl, rfl⟩

theorem checked_of_none {checks : List Check} (h : firstFailure checks = none) (s : State)
    (effect : State → State) : checked checks s effect = .next (effect s) := by
  simp [checked, h]

theorem checked_of_some {checks : List Check} {st : Status} (h : firstFailure checks = some st) (s : State)
    (effect : State → State) : checked checks s effect = .next (failCommand st s) := by
  simp [checked, h]

@[simp] theorem firstFailure_nil : firstFailure [] = none := rfl

@[simp] theorem firstFailure_cons (ok : Bool) (st : Status) (cs : List Check) :
    firstFailure (⟨ok, st⟩ :: cs) = if ok = true then firstFailure cs else some st := rfl

theorem idleCheck_eq (s : State) : idleCheck s = ⟨s.mode == .idle, .busy⟩ := rfl

theorem sessionCheck_eq (s : State) : sessionCheck s = ⟨s.sessionValid, .notReady⟩ := rfl

theorem countCheck_eq (n : Nat) (s : State) :
    countCheck n s = ⟨decide (n ≤ s.hw.bufMax.toNat), .invalidParameter .count⟩ := rfl

/-- What is known of the state that a checked command answers. -/
theorem checked_eq_next {checks : List Check} {s t : State} {effect : State → State}
    (h : checked checks s effect = .next t) :
    (∃ st, firstFailure checks = some st ∧ t = failCommand st s) ∨ (firstFailure checks = none ∧ t = effect s) := by
  rcases checked_next checks s effect with ⟨st, h0, h'⟩ | ⟨h0, h'⟩ <;> rw [h'] at h <;> cases h
  · exact .inl ⟨st, h0, rfl⟩
  · exact .inr ⟨h0, rfl⟩

/-- A command that has passed its BUSY check runs in an IDLE block. -/
theorem idle_of_firstFailure {s : State} {cs : List Check} (h : firstFailure (idleCheck s :: cs) = none) :
    s.mode = .idle ∧ firstFailure cs = none := by
  rw [idleCheck_eq, firstFailure_cons] at h
  split at h
  · exact ⟨eq_of_beq ‹_›, h⟩
  · cases h

/-- A command that has passed its NOT_READY check runs in a session. -/
theorem session_of_firstFailure {s : State} {cs : List Check} (h : firstFailure (sessionCheck s :: cs) = none) :
    s.sessionValid = true ∧ firstFailure cs = none := by
  rw [sessionCheck_eq, firstFailure_cons] at h
  split at h
  · exact ⟨‹_›, h⟩
  · cases h

/-- A command that needs an IDLE block ends with BUSY while the engine runs. -/
theorem checked_busy {s : State} (h : s.mode = .running) (cs : List Check) (effect : State → State) :
    checked (idleCheck s :: cs) s effect = .next (failCommand .busy s) := by
  apply checked_of_some
  simp [idleCheck_eq, h]

/-- The checks of WRCFG, RELEASE and ENCODE pass in an IDLE block. -/
theorem checked_idle {s : State} (h : s.mode = .idle) (effect : State → State) :
    checked [idleCheck s] s effect = .next (effect s) := by
  apply checked_of_none
  simp [idleCheck_eq, h]

/-- The checks of RUN pass in an IDLE block with a session. -/
theorem checked_session {s : State} (h : s.mode = .idle) (hv : s.sessionValid = true) (effect : State → State) :
    checked [idleCheck s, sessionCheck s] s effect = .next (effect s) := by
  apply checked_of_none
  simp [idleCheck_eq, sessionCheck_eq, h, hv]

/-- The checks of GEN, GATE and MOD pass in an IDLE block with a session, up to BUF_MAX. -/
theorem checked_count {s : State} {n : Nat} (h : s.mode = .idle) (hv : s.sessionValid = true)
    (hn : n ≤ s.hw.bufMax.toNat) (effect : State → State) :
    checked [idleCheck s, sessionCheck s, countCheck n s] s effect = .next (effect s) := by
  apply checked_of_none
  simp [idleCheck_eq, sessionCheck_eq, countCheck_eq, h, hv, hn]

/-! ### Status words -/

theorem statusWord_ok : statusWord .ok = 0 := rfl

theorem statusCode_eq_zero {st : Status} : statusCode st = 0 ↔ st = .ok := by
  cases st <;> simp [statusCode]

/-! ### Internal memories -/

theorem writePrefix_length {α : Type} (new old : List α) :
    (writePrefix new old).length = max new.length old.length := by
  simp [writePrefix]
  omega

theorem writePrefix_getElem?_lt {α : Type} (new old : List α) {k : Nat} (h : k < new.length) :
    (writePrefix new old)[k]? = new[k]? := by
  simp [writePrefix, List.getElem?_append_left h]

theorem writePrefix_getElem?_ge {α : Type} (new old : List α) {k : Nat} (h : new.length ≤ k) :
    (writePrefix new old)[k]? = old[k]? := by
  rw [writePrefix, List.getElem?_append_right h, List.getElem?_drop]
  congr 1
  omega

/-! ### Streams -/

theorem bufferWords_nil : bufferWords [] = [] := rfl

theorem bufferWords_append (a b : List Sample) : bufferWords (a ++ b) = bufferWords a ++ bufferWords b := by
  simp [bufferWords]

theorem bufferWords_length (a : List Sample) : (bufferWords a).length = 2 * a.length := by
  induction a with
  | nil => rfl
  | cons x xs ih =>
    simp only [bufferWords, List.flatMap_cons, List.length_append, sampleWords, List.length_cons,
      List.length_nil] at ih ⊢
    omega

/-! ### Draws -/

theorem drawTurn_scripted {s : State} {a : Agent} {rest : List Agent} (h : s.env.turns = a :: rest) :
    drawTurn s = (a, s.setEnv { s.env with turns := rest }) := by
  simp [drawTurn, h]

theorem drawTurn_free {s : State} (h : s.env.turns = []) :
    drawTurn s =
      (if Config.engineMovesNext s.env.draws then .engine else .host,
        s.setEnv { s.env with draws := s.env.draws + 1 }) := by
  simp [drawTurn, h]

/-- Drawing a turn touches only the script and the draw counter. -/
theorem drawTurn_state (s : State) :
    ∃ turns draws, (drawTurn s).2 = s.setEnv { s.env with turns := turns, draws := draws } := by
  unfold drawTurn
  split
  · exact ⟨_, s.env.draws, rfl⟩
  · exact ⟨s.env.turns, _, rfl⟩

theorem drawAnswer_scripted {s : State} {a : Word} {rest : List Word} (h : s.env.answers = a :: rest) :
    drawAnswer s = (a, s.setEnv { s.env with answers := rest }) := by
  simp [drawAnswer, h]

theorem drawAnswer_free {s : State} (h : s.env.answers = []) :
    drawAnswer s = (Config.sinkAnswer s.env.draws, s.setEnv { s.env with draws := s.env.draws + 1 }) := by
  simp [drawAnswer, h]

/-- Drawing the sink's answer touches only the script and the draw counter. -/
theorem drawAnswer_state (s : State) :
    ∃ answers draws, (drawAnswer s).2 = s.setEnv { s.env with answers := answers, draws := draws } := by
  unfold drawAnswer
  split
  · exact ⟨_, s.env.draws, rfl⟩
  · exact ⟨s.env.answers, _, rfl⟩

end Sys2Proof.Machine
end

