-- ==== Sys2Proof/Laws/Gate.lean ====
section
/-! SUPPORT. What the gate does to the CW state and to a buffer (spec/42_cw_gate.md R103, R105, R108). -/

namespace Sys2Proof.Machine

@[simp] theorem cwDecrement_index (c : CWState) : (cwDecrement c).index = c.index := by
  unfold cwDecrement; split <;> rfl

@[simp] theorem cwDecrement_gate (c : CWState) : (cwDecrement c).gate = c.gate := by
  unfold cwDecrement; split <;> rfl

@[simp] theorem cwDecrement_ditLen (c : CWState) : (cwDecrement c).ditLen = c.ditLen := by
  unfold cwDecrement; split <;> rfl

@[simp] theorem cwDecrement_count (c : CWState) : (cwDecrement c).count.toNat = c.count.toNat - 1 := by
  unfold cwDecrement
  have := c.count.isLt
  split
  · rw [BitVec.toNat_sub]
    simp
    omega
  · omega

/-- The condition under which a sample advances the gate (R105). -/
def advances (hw : Params) (p : MorsePattern) (c : CWState) (x : Sample) : Prop :=
  c.count = 0 ∧ 0 < p.len.toNat ∧ zeroCrossing hw x = true

theorem gateNext_of_advances {hw : Params} {p : MorsePattern} {c : CWState} {x : Sample}
    (h : advances hw p c x) : gateNext hw p c x = cwDecrement (cwAdvance p c) := by
  unfold gateNext
  exact if_pos h

theorem gateNext_of_not {hw : Params} {p : MorsePattern} {c : CWState} {x : Sample}
    (h : ¬advances hw p c x) : gateNext hw p c x = cwDecrement c := by
  unfold gateNext
  exact if_neg h

@[simp] theorem gateNext_ditLen (hw : Params) (p : MorsePattern) (c : CWState) (x : Sample) :
    (gateNext hw p c x).ditLen = c.ditLen := by
  unfold gateNext; split <;> simp [cwAdvance]

theorem cwAdvance_index (p : MorsePattern) (c : CWState) (h : 0 < p.len.toNat) :
    (cwAdvance p c).index.toNat = (c.index.toNat + 1) % p.len.toNat := by
  have h1 := Nat.mod_lt (c.index.toNat + 1) h
  have h2 := p.len.isLt
  simp only [cwAdvance, BitVec.toNat_ofNat]
  omega

/-- One sample keeps R35 and R37. -/
theorem PatternOk.gateNext {hw hw' : Params} {p : MorsePattern} {c : CWState} (h : PatternOk hw p c) (x : Sample) :
    PatternOk hw p (gateNext hw' p c x) := by
  by_cases ha : advances hw' p c x
  · have hp := ha.2.1
    refine ⟨h.capacity, h.size, h.written, fun _ => ?_, fun he => ?_, ?_⟩
    · rw [gateNext_of_advances ha, cwDecrement_index, cwAdvance_index p c hp]
      exact Nat.mod_lt _ hp
    · simp [he] at hp
    · rw [gateNext_of_advances ha, cwDecrement_count]
      simp [cwAdvance]
  · refine ⟨h.capacity, h.size, h.written, fun hp => ?_, fun he => ?_, ?_⟩
    · rw [gateNext_of_not ha, cwDecrement_index]; exact h.index hp
    · rw [gateNext_of_not ha, cwDecrement_index]; exact h.empty he
    · rw [gateNext_of_not ha, cwDecrement_count]
      have := h.count
      simp
      omega

/-! ### Buffers -/

@[simp] theorem gateBuffer_nil (hw : Params) (p : MorsePattern) (c : CWState) : gateBuffer hw p c [] = ([], c) := rfl

theorem gateBuffer_cons (hw : Params) (p : MorsePattern) (c : CWState) (x : Sample) (xs : List Sample) :
    gateBuffer hw p c (x :: xs) =
      (gateOut (gateNext hw p c x).gate x :: (gateBuffer hw p (gateNext hw p c x) xs).1,
        (gateBuffer hw p (gateNext hw p c x) xs).2) := rfl

/-- The CW state a buffer leaves is the fold of the per-sample step. -/
theorem gateBuffer_state (hw : Params) (p : MorsePattern) (c : CWState) (xs : List Sample) :
    (gateBuffer hw p c xs).2 = xs.foldl (gateNext hw p) c := by
  induction xs generalizing c with
  | nil => rfl
  | cons x xs ih => rw [gateBuffer_cons, List.foldl_cons, ← ih]

theorem gateBuffer_length (hw : Params) (p : MorsePattern) (c : CWState) (xs : List Sample) :
    (gateBuffer hw p c xs).1.length = xs.length := by
  induction xs generalizing c with
  | nil => rfl
  | cons x xs ih => simp [gateBuffer_cons, ih]

/-- R108: the CW state one call leaves is the state the next call starts from. -/
theorem gateBuffer_append (hw : Params) (p : MorsePattern) (c : CWState) (xs ys : List Sample) :
    gateBuffer hw p c (xs ++ ys) =
      ((gateBuffer hw p c xs).1 ++ (gateBuffer hw p (gateBuffer hw p c xs).2 ys).1,
        (gateBuffer hw p (gateBuffer hw p c xs).2 ys).2) := by
  induction xs generalizing c with
  | nil => rfl
  | cons x xs ih => simp [gateBuffer_cons, ih]

theorem foldl_gateNext_ditLen (hw : Params) (p : MorsePattern) (xs : List Sample) (c : CWState) :
    (xs.foldl (gateNext hw p) c).ditLen = c.ditLen := by
  induction xs generalizing c with
  | nil => rfl
  | cons x xs ih => rw [List.foldl_cons, ih, gateNext_ditLen]

theorem PatternOk.foldl {hw hw' : Params} {p : MorsePattern} (xs : List Sample) {c : CWState}
    (h : PatternOk hw p c) : PatternOk hw p (xs.foldl (Machine.gateNext hw' p) c) := by
  induction xs generalizing c with
  | nil => exact h
  | cons x xs ih => exact ih (h.gateNext x)

/-- Gating touches the CW state only. -/
theorem gateSamples_eq (buf : List Sample) (s : State) :
    gateSamples buf s =
      ((gateBuffer s.hw s.pat s.cw buf).1, s.setCw (buf.foldl (gateNext s.hw s.pat) s.cw)) := by
  simp [gateSamples, gateBuffer_state]

end Sys2Proof.Machine
end

