-- ==== Sys2Proof/Laws/Generator.lean ====
section
/-! SUPPORT. What building and generating do (spec/40_sample_generation.md R77, R78, R83, R84, R89). -/

namespace Sys2Proof.Machine

/-! ### The table check -/

theorem tableOk_iff (hw : Params) (f r : Int) :
    tableOk hw f r = true ↔ 0 < f ∧ 2 * f ≤ r ∧ r / f ≤ hw.tableCapacity.toNat := by
  unfold tableOk
  rw [Bool.and_eq_true, Bool.and_eq_true, decide_eq_true_iff, decide_eq_true_iff, decide_eq_true_iff, and_assoc]
  exact Iff.rfl

/-- R78: a legal table has at least two slots. -/
theorem tableOk_two_le {hw : Params} {f r : Int} (h : tableOk hw f r = true) :
    2 ≤ periodLength f r ∧ periodLength f r ≤ hw.tableCapacity.toNat := by
  obtain ⟨hf, hr, hc⟩ := (tableOk_iff hw f r).1 h
  exact ⟨Int.le_ediv_of_mul_le hf (by omega), hc⟩

/-! ### Building -/

/-- What a build leaves, for a legal table: `l` slots of the ROM, cursor at slot 0, old contents beyond. -/
theorem build_spec {hw : Params} {c : CfgRegs} {ch : Channel} (g : GeneratorState)
    (h : tableOk hw (channelFreq c ch) (sampleRate c) = true) :
    ∃ l : Nat, (l : Int) = periodLength (channelFreq c ch) (sampleRate c) ∧ 2 ≤ l ∧
      l ≤ hw.tableCapacity.toNat ∧ (build hw c ch g).built = true ∧ (build hw c ch g).len.toNat = l ∧
      (build hw c ch g).cursor = 0 ∧
      (∀ k, k < l → (build hw c ch g).buf[k]? = some (trigRom hw.trig l k)) ∧
      (∀ k, l ≤ k → (build hw c ch g).buf[k]? = g.buf[k]?) ∧
      (build hw c ch g).buf.length = max l g.buf.length := by
  obtain ⟨h2, hc⟩ := tableOk_two_le h
  obtain ⟨l, hl⟩ := Int.eq_ofNat_of_zero_le (show 0 ≤ periodLength (channelFreq c ch) (sampleRate c) by omega)
  have hcap := hw.tableCapacity.isLt
  have hlen : ((List.range l).map (trigRom hw.trig l)).length = l := by simp
  refine ⟨l, hl.symm, by omega, by omega, rfl, ?_, rfl, ?_, ?_, ?_⟩
  · simp only [build, hl, Int.toNat_natCast, BitVec.toNat_ofNat]
    omega
  · intro k hk
    simp only [build, hl, Int.toNat_natCast]
    rw [writePrefix_getElem?_lt _ _ (by omega)]
    simp [hk]
  · intro k hk
    simp only [build, hl, Int.toNat_natCast]
    exact writePrefix_getElem?_ge _ _ (by omega)
  · simp only [build, hl, Int.toNat_natCast, writePrefix_length, hlen]

/-! ### Generating -/

@[simp] theorem generate_zero (ch : Channel) (s : State) : generate ch 0 s = ([], s) := by
  simp [generate]

theorem generate_pos (ch : Channel) {n : Nat} (h : n ≠ 0) (s : State) :
    generate ch n s =
      (channelSamples ch (builtState s.hw s.cfg ch (s.chan ch)) n,
        s.setChan ch (advanceCursor (builtState s.hw s.cfg ch (s.chan ch)) n)) := by
  simp [generate, h]

theorem channelSamples_length (ch : Channel) (g : GeneratorState) (n : Nat) :
    (channelSamples ch g n).length = n := by
  simp [channelSamples]

theorem generate_length (ch : Channel) (n : Nat) (s : State) : (generate ch n s).1.length = n := by
  by_cases h : n = 0
  · simp [h]
  · simp [generate_pos ch h, channelSamples_length]

/-- Generating touches one channel only. -/
theorem generate_state (ch : Channel) (n : Nat) (s : State) :
    ∃ g, (generate ch n s).2 = s.setChan ch g ∧ ((s.chan ch).built = true → g.built = true ∧
      g.len = (s.chan ch).len ∧ g.buf = (s.chan ch).buf) := by
  by_cases h : n = 0
  · subst h
    exact ⟨s.chan ch, by cases ch <;> simp [State.setChan], fun h => ⟨h, rfl, rfl⟩⟩
  · refine ⟨_, by rw [generate_pos ch h], fun hb => ?_⟩
    simp [advanceCursor, builtState, hb]

theorem builtState_built (hw : Params) (c : CfgRegs) (ch : Channel) (g : GeneratorState) :
    (builtState hw c ch g).built = true := by
  unfold builtState
  split
  · assumption
  · rfl

theorem builtState_of_built {hw : Params} {c : CfgRegs} {ch : Channel} {g : GeneratorState}
    (h : g.built = true) : builtState hw c ch g = g := by
  simp [builtState, h]

/-- The cursor of a channel with a period, after a count. -/
theorem advanceCursor_cursor (g : GeneratorState) (n : Nat) (h : 0 < g.len.toNat) :
    (advanceCursor g n).cursor.toNat = (g.cursor.toNat + n) % g.len.toNat := by
  have h1 := Nat.mod_lt (g.cursor.toNat + n) h
  have h2 := g.len.isLt
  simp only [advanceCursor, BitVec.toNat_ofNat]
  omega

@[simp] theorem advanceCursor_built (g : GeneratorState) (n : Nat) : (advanceCursor g n).built = g.built := rfl
@[simp] theorem advanceCursor_len (g : GeneratorState) (n : Nat) : (advanceCursor g n).len = g.len := rfl
@[simp] theorem advanceCursor_buf (g : GeneratorState) (n : Nat) : (advanceCursor g n).buf = g.buf := rfl

/-- Two counts in a row move the cursor as their sum does. -/
theorem advanceCursor_add (g : GeneratorState) (n1 n2 : Nat) (h : 0 < g.len.toNat) :
    advanceCursor (advanceCursor g n1) n2 = advanceCursor g (n1 + n2) := by
  have e := advanceCursor_cursor g n1 h
  unfold advanceCursor at e ⊢
  simp only [GeneratorState.mk.injEq, true_and, and_true]
  simp only at e
  rw [e, Nat.mod_add_mod, Nat.add_assoc]

theorem channelSamples_add (ch : Channel) (g : GeneratorState) (n1 n2 : Nat) (h : 0 < g.len.toNat) :
    channelSamples ch g (n1 + n2) = channelSamples ch g n1 ++ channelSamples ch (advanceCursor g n1) n2 := by
  have e := advanceCursor_cursor g n1 h
  unfold channelSamples
  rw [List.range_add, List.map_append, List.map_map]
  congr 1
  apply List.map_congr_left
  intro j _
  simp only [Function.comp, advanceCursor_len, advanceCursor_buf, e, Nat.mod_add_mod, Nat.add_assoc]

/-- A channel that keeps R33 reads the ROM. -/
theorem pbRead_of_ok {hw : Params} {g : GeneratorState} (h : ChannelOk hw g) (hb : g.built = true) (ch : Channel)
    {k : Nat} (hk : k < g.len.toNat) : pbRead ch g.buf k = trigRom hw.trig g.len.toNat k := by
  simp [pbRead, List.getD, h.table hb k hk]

/-- Advancing the cursor keeps R33. -/
theorem ChannelOk.advance {hw : Params} {g : GeneratorState} (h : ChannelOk hw g) (hb : g.built = true) (n : Nat) :
    ChannelOk hw (advanceCursor g n) := by
  have hl := h.long hb
  refine ⟨fun hf => by simp [hb] at hf, fun _ => hl, fun _ => h.capacity hb, fun _ => ?_, fun _ => h.table hb, h.size⟩
  rw [advanceCursor_cursor g n (by omega)]
  exact Nat.mod_lt _ (show 0 < g.len.toNat by omega)

theorem ChannelOk.released {hw : Params} {g : GeneratorState} (h : ChannelOk hw g) : ChannelOk hw g.released := by
  refine ⟨fun _ => ⟨rfl, rfl⟩, ?_, ?_, ?_, ?_, h.size⟩ <;> · intro hf; simp at hf

theorem ChannelOk.empty (hw : Params) : ChannelOk hw .empty := by
  refine ⟨fun _ => ⟨rfl, rfl⟩, ?_, ?_, ?_, ?_, by simp [GeneratorState.empty]⟩ <;>
    · intro hf; simp [GeneratorState.empty] at hf

/-- A build on a legal table gives a channel that keeps R33. -/
theorem ChannelOk.build {hw : Params} {c : CfgRegs} {ch : Channel} {g : GeneratorState} (h : ChannelOk hw g)
    (ht : tableOk hw (channelFreq c ch) (sampleRate c) = true) : ChannelOk hw (build hw c ch g) := by
  obtain ⟨l, -, h2, hc, hb, hl, hcur, htab, -, hs⟩ := build_spec g ht
  refine ⟨fun hf => ?_, fun _ => by omega, fun _ => by omega, fun _ => ?_, fun _ k hk => ?_, ?_⟩
  · rw [hb] at hf; cases hf
  · rw [hcur]; simp; omega
  · rw [hl] at hk ⊢; exact htab k hk
  · have := h.size; omega

/-- In a valid session both tables are legal. -/
theorem ConfigOk.table {hw : Params} {c : CfgRegs} (h : ConfigOk hw c) (ch : Channel) :
    tableOk hw (channelFreq c ch) (sampleRate c) = true := by
  simp only [ConfigOk, setupChecks, firstFailure_cons, firstFailure_nil] at h
  split_ifs at h
  cases ch <;> assumption

/-- The generator state that `generate` reads from keeps R33 in a valid session, and has the configured period. -/
theorem Inv.builtState {s : State} (h : Inv s) (hv : s.sessionValid = true) (ch : Channel) :
    ChannelOk s.hw (builtState s.hw s.cfg ch (s.chan ch)) ∧
      ((Machine.builtState s.hw s.cfg ch (s.chan ch)).len.toNat : Int) =
        periodLength (channelFreq s.cfg ch) (sampleRate s.cfg) := by
  have hs := h.session hv
  have hok : ChannelOk s.hw (s.chan ch) := by
    cases ch
    · exact h.tone
    · exact h.carrier
  unfold Machine.builtState
  split
  · exact ⟨hok, hs.period ch ‹_›⟩
  · obtain ⟨l, hl, -, -, -, hlen, -⟩ := build_spec (s.chan ch) (hs.config.table ch)
    exact ⟨hok.build (hs.config.table ch), by rw [hlen, hl]⟩

end Sys2Proof.Machine
end

