-- ==== Sys2Proof/Laws/Modulator.lean ====
section
/-! SUPPORT. What the modulator does to a buffer and to the FM phase (spec/43_modulator.md R116, R123, R124). -/

namespace Sys2Proof.Machine

@[simp] theorem fmBuffer_nil (hw : Params) (k : F32) (ph : Word) : fmBuffer hw k ph [] = ([], ph) := rfl

theorem fmBuffer_cons (hw : Params) (k : F32) (ph : Word) (p : Sample × Sample) (rest : List (Sample × Sample)) :
    fmBuffer hw k ph (p :: rest) =
      (fmRotate hw.canonNan p.1 (rotationRom hw.fmrot (fmNextPhase hw.canonNan k ph p.2)) ::
          (fmBuffer hw k (fmNextPhase hw.canonNan k ph p.2) rest).1,
        (fmBuffer hw k (fmNextPhase hw.canonNan k ph p.2) rest).2) := rfl

/-- The phase a buffer leaves is the fold of the per-sample phase. -/
theorem fmBuffer_phase (hw : Params) (k : F32) (ph : Word) (buf : List (Sample × Sample)) :
    (fmBuffer hw k ph buf).2 = buf.foldl (fun q p => fmNextPhase hw.canonNan k q p.2) ph := by
  induction buf generalizing ph with
  | nil => rfl
  | cons p rest ih => rw [fmBuffer_cons, List.foldl_cons, ← ih]

theorem fmBuffer_length (hw : Params) (k : F32) (ph : Word) (buf : List (Sample × Sample)) :
    (fmBuffer hw k ph buf).1.length = buf.length := by
  induction buf generalizing ph with
  | nil => rfl
  | cons p rest ih => simp [fmBuffer_cons, ih]

theorem fmBuffer_append (hw : Params) (k : F32) (ph : Word) (a b : List (Sample × Sample)) :
    fmBuffer hw k ph (a ++ b) =
      ((fmBuffer hw k ph a).1 ++ (fmBuffer hw k (fmBuffer hw k ph a).2 b).1,
        (fmBuffer hw k (fmBuffer hw k ph a).2 b).2) := by
  induction a generalizing ph with
  | nil => rfl
  | cons p rest ih => simp [fmBuffer_cons, ih]

theorem modulate_am {s : State} (h : s.cfg.modKind = 0) (buf : List (Sample × Sample)) :
    modulate buf s = (amBuffer s.hw s.cfg.modIndex s.modu.pilot buf, s) := by
  unfold modulate
  exact if_pos h

theorem modulate_fm {s : State} (h : s.cfg.modKind ≠ 0) (buf : List (Sample × Sample)) :
    modulate buf s =
      ((fmBuffer s.hw s.modu.fmK s.modu.fmPhase buf).1,
        s.setModu { s.modu with fmPhase := (fmBuffer s.hw s.modu.fmK s.modu.fmPhase buf).2 }) := by
  unfold modulate
  exact if_neg h

theorem modulate_length (buf : List (Sample × Sample)) (s : State) : (modulate buf s).1.length = buf.length := by
  by_cases h : s.cfg.modKind = 0
  · simp [modulate_am h, amBuffer]
  · simp [modulate_fm h, fmBuffer_length]

/-- Modulating touches the FM phase at most, and in AM nothing. -/
theorem modulate_state (buf : List (Sample × Sample)) (s : State) :
    ∃ ph, (modulate buf s).2 = s.setModu { s.modu with fmPhase := ph } ∧
      (s.cfg.modKind = 0 → ph = s.modu.fmPhase) := by
  by_cases h : s.cfg.modKind = 0
  · exact ⟨s.modu.fmPhase, by rw [modulate_am h]; rfl, fun _ => rfl⟩
  · exact ⟨_, by rw [modulate_fm h], fun h' => absurd h' h⟩

/-- R124: modulating in two calls is modulating in one, the phase carried over. -/
theorem modulate_append (a b : List (Sample × Sample)) (s : State) :
    modulate (a ++ b) s =
      ((modulate a s).1 ++ (modulate b (modulate a s).2).1, (modulate b (modulate a s).2).2) := by
  by_cases h : s.cfg.modKind = 0
  · simp [modulate_am h, amBuffer]
  · have again := fun m => modulate_fm (s := s.setModu m) h b
    rw [modulate_fm h (a ++ b), modulate_fm h a, again, fmBuffer_append]
    rfl

end Sys2Proof.Machine
end

