-- ==== Sys2Proof/Laws/Exec.lean ====
section
/-! SUPPORT. What a command can do, said once: `exec` answers a next state, which is either the error of the first
failing check or the command's effect. Citing these needs no unfolding of a meaning. -/

namespace Sys2Proof.Machine

variable (s : State)

/-! ### One equation per command -/

theorem exec_nop : exec .nop s = .next (complete .ok [] s) := rfl

theorem exec_wrcfg (r : CfgReg) (v : Word) :
    exec (.wrcfg r v) s =
      checked [idleCheck s] s fun s => complete .ok [] ((s.setCfg (s.cfg.set r v)).setSessionValid false) := rfl

theorem exec_rdcfg (r : ReadReg) : exec (.rdcfg r) s = .next (complete .ok [readReg s r] s) := rfl

theorem exec_gen (ch : Channel) (n : Word) :
    exec (.gen ch n) s =
      checked [idleCheck s, sessionCheck s, countCheck n.toNat s] s fun s =>
        complete .ok (bufferWords (generate ch n.toNat s).1) (generate ch n.toNat s).2 := rfl

theorem exec_release (ch : Channel) :
    exec (.release ch) s =
      checked [idleCheck s] s fun s => complete .ok [] (s.setChan ch (s.chan ch).released) := rfl

/-- The pattern ENCODE makes of a message in a state. -/
def patternAfter (msg : List Byte) (s : State) : MorsePattern :=
  encodedPattern s.hw.patternCapacity.toNat (messageSlots msg) (paddingSlots s.cfg) s.pat

theorem exec_encode (msg : List Byte) :
    exec (.encode msg) s =
      checked [idleCheck s] s fun s =>
        complete .ok [(patternAfter msg s).len, flagWord (patternAfter msg s).trunc]
          (((s.setPat (patternAfter msg s)).setCw s.cw.restarted).setSessionValid false) := rfl

theorem exec_gate (buf : List Sample) :
    exec (.gate buf) s =
      checked [idleCheck s, sessionCheck s, countCheck buf.length s] s fun s =>
        complete .ok (bufferWords (gateSamples buf s).1) (gateSamples buf s).2 := rfl

theorem exec_mod (buf : List (Sample × Sample)) :
    exec (.mod buf) s =
      checked [idleCheck s, sessionCheck s, countCheck buf.length s] s fun s =>
        complete .ok (bufferWords (modulate buf s).1) (modulate buf s).2 := rfl

theorem exec_setup :
    exec .setup s =
      checked (idleCheck s :: setupChecks s.hw s.cfg) s fun s => complete .ok [] (startSession s) := rfl

theorem exec_run :
    exec .run s =
      checked [idleCheck s, sessionCheck s] s fun s => complete .ok [] ((s.setMode .running).setStopReq false) := rfl

theorem exec_stop :
    exec .stop s = .next (complete .ok [] (if s.mode = .running then s.setStopReq true else s)) := rfl

/-! ### Every command -/

theorem firstFailure_ne_ok {cs : List Check} {st : Status} (hc : ∀ c ∈ cs, c.raises ≠ .ok)
    (h : firstFailure cs = some st) : st ≠ .ok := by
  induction cs with
  | nil => cases h
  | cons c cs ih =>
    rw [firstFailure_cons] at h
    split at h
    · exact ih (fun d hd => hc d (List.mem_cons_of_mem _ hd)) h
    · cases h; exact hc c List.mem_cons_self

/-- A command ends with an error and no other effect, or with OK: its status word and a payload, on a state whose
streams and draws it has not touched. -/
theorem exec_cases (i : Instr) :
    (∃ st, st ≠ Status.ok ∧ exec i s = .next (failCommand st s)) ∨
      (∃ payload t, t.env = s.env ∧ t.hw = s.hw ∧ exec i s = .next (complete .ok payload t)) := by
  have key : ∀ (cs : List Check) (pay : State → List Word) (eff : State → State),
      (∀ c ∈ cs, c.raises ≠ .ok) → (eff s).env = s.env → (eff s).hw = s.hw →
      (∃ st, st ≠ Status.ok ∧ checked cs s (fun s => complete .ok (pay s) (eff s)) = .next (failCommand st s)) ∨
        (∃ payload t, t.env = s.env ∧ t.hw = s.hw ∧
          checked cs s (fun s => complete .ok (pay s) (eff s)) = .next (complete .ok payload t)) := by
    intro cs pay eff hc he hh
    rcases checked_next cs s (fun s => complete .ok (pay s) (eff s)) with ⟨st, hf, h⟩ | ⟨-, h⟩
    · exact .inl ⟨st, firstFailure_ne_ok hc hf, h⟩
    · exact .inr ⟨_, _, he, hh, h⟩
  have hs : ∀ c ∈ setupChecks s.hw s.cfg, c.raises ≠ .ok := by simp [setupChecks]
  cases i with
  | nop => exact .inr ⟨_, s, rfl, rfl, exec_nop s⟩
  | wrcfg r v =>
    exact key [idleCheck s] (fun _ => []) (fun s => (s.setCfg (s.cfg.set r v)).setSessionValid false)
      (by simp [idleCheck_eq]) rfl rfl
  | rdcfg r => exact .inr ⟨_, s, rfl, rfl, exec_rdcfg s r⟩
  | gen ch n =>
    obtain ⟨g, hg, -⟩ := generate_state ch n.toNat s
    exact key _ (fun s => bufferWords (generate ch n.toNat s).1) (fun s => (generate ch n.toNat s).2)
      (by simp [idleCheck_eq, sessionCheck_eq, countCheck_eq]) (by simp [hg]) (by simp [hg])
  | release ch =>
    exact key [idleCheck s] (fun _ => []) (fun s => s.setChan ch (s.chan ch).released) (by simp [idleCheck_eq])
      (by simp) (by simp)
  | encode msg =>
    exact key [idleCheck s] (fun s => [(patternAfter msg s).len, flagWord (patternAfter msg s).trunc])
      (fun s => ((s.setPat (patternAfter msg s)).setCw s.cw.restarted).setSessionValid false)
      (by simp [idleCheck_eq]) rfl rfl
  | gate buf =>
    exact key _ (fun s => bufferWords (gateSamples buf s).1) (fun s => (gateSamples buf s).2)
      (by simp [idleCheck_eq, sessionCheck_eq, countCheck_eq]) (by simp [gateSamples_eq]) (by simp [gateSamples_eq])
  | mod buf =>
    obtain ⟨ph, hp, -⟩ := modulate_state buf s
    exact key _ (fun s => bufferWords (modulate buf s).1) (fun s => (modulate buf s).2)
      (by simp [idleCheck_eq, sessionCheck_eq, countCheck_eq]) (by simp [hp]) (by simp [hp])
  | setup =>
    exact key (idleCheck s :: setupChecks s.hw s.cfg) (fun _ => []) startSession
      (by simpa [idleCheck_eq] using hs) rfl rfl
  | run =>
    exact key [idleCheck s, sessionCheck s] (fun _ => []) (fun s => (s.setMode .running).setStopReq false)
      (by simp [idleCheck_eq, sessionCheck_eq]) rfl rfl
  | stop =>
    refine .inr ⟨_, _, ?_, ?_, exec_stop s⟩ <;> split <;> rfl

end Sys2Proof.Machine
end

