-- ==== Sys2Proof/Laws/Invariant.lean ====
section
/-! SUPPORT. The block's invariant under an update of one part of the state. -/

namespace Sys2Proof.Machine

/-- What a session fixes depends on these parts of the state only. -/
theorem SessionOk.congr {s t : State} (h : SessionOk s) (hw : t.hw = s.hw) (hc : t.cfg = s.cfg)
    (hd : t.cw.ditLen = s.cw.ditLen) (hp : t.modu.pilot = s.modu.pilot) (hk : t.modu.fmK = s.modu.fmK)
    (ht : t.tone.built = true →
      (t.tone.len.toNat : Int) = periodLength (channelFreq s.cfg .tone) (sampleRate s.cfg))
    (hcr : t.carrier.built = true →
      (t.carrier.len.toNat : Int) = periodLength (channelFreq s.cfg .carrier) (sampleRate s.cfg)) : SessionOk t := by
  refine ⟨?_, ?_, ?_, ?_, ?_⟩
  · rw [hw, hc]; exact h.config
  · rw [hd, hc]; exact h.ditLen
  · rw [hp, hw, hc]; exact h.pilot
  · rw [hk, hw, hc]; exact h.fmK
  · rw [hc]
    intro ch
    cases ch
    · exact ht
    · exact hcr

theorem Inv.chanOk {s : State} (h : Inv s) (ch : Channel) : ChannelOk s.hw (s.chan ch) := by
  cases ch
  · exact h.tone
  · exact h.carrier

/-- No stop request is pending in an IDLE block (R30). -/
theorem Inv.stopReq_of_idle {s : State} (h : Inv s) (hm : s.mode = .idle) : s.stopReq = false := by
  cases hs : s.stopReq with
  | false => rfl
  | true => have := h.stopping hs; rw [hm] at this; cases this

/-- The streams, the scripts and the draws are free, but for the bytes of an incomplete word. -/
theorem Inv.setEnv {s : State} (h : Inv s) (e : Environment) (he : e.rxBytes.length < 4) : Inv (s.setEnv e) :=
  ⟨h.params, h.tone, h.carrier, h.pattern, h.running, h.stopping,
    fun hv => (h.session hv).congr rfl rfl rfl rfl rfl ((h.session hv).period .tone) ((h.session hv).period .carrier), he⟩

/-- Ending a command keeps the invariant. -/
theorem Inv.complete {s : State} (h : Inv s) (st : Status) (payload : List Word) :
    Inv (Machine.complete st payload s) :=
  ⟨h.params, h.tone, h.carrier, h.pattern, h.running, h.stopping,
    fun hv => (h.session hv).congr rfl rfl rfl rfl rfl ((h.session hv).period .tone) ((h.session hv).period .carrier),
    h.bytes⟩

/-- A channel that meets R33 and, in a session, has the configured period. -/
theorem Inv.setChan {s : State} (h : Inv s) (ch : Channel) (g : GeneratorState) (hg : ChannelOk s.hw g)
    (hp : s.sessionValid = true → g.built = true →
      (g.len.toNat : Int) = periodLength (channelFreq s.cfg ch) (sampleRate s.cfg)) : Inv (s.setChan ch g) := by
  cases ch with
  | tone =>
    exact ⟨h.params, hg, h.carrier, h.pattern, h.running, h.stopping,
      fun hv => (h.session hv).congr rfl rfl rfl rfl rfl (hp hv) ((h.session hv).period .carrier),
      h.bytes⟩
  | carrier =>
    exact ⟨h.params, h.tone, hg, h.pattern, h.running, h.stopping,
      fun hv => (h.session hv).congr rfl rfl rfl rfl rfl ((h.session hv).period .tone) (hp hv),
      h.bytes⟩

/-- A CW state that stays within the pattern, with the session's dit length. -/
theorem Inv.setCw {s : State} (h : Inv s) (c : CWState) (hc : PatternOk s.hw s.pat c)
    (hd : c.ditLen = s.cw.ditLen) : Inv (s.setCw c) :=
  ⟨h.params, h.tone, h.carrier, hc, h.running, h.stopping,
    fun hv => (h.session hv).congr rfl rfl hd rfl rfl ((h.session hv).period .tone) ((h.session hv).period .carrier), h.bytes⟩

/-- Any FM phase. -/
theorem Inv.setPhase {s : State} (h : Inv s) (ph : Word) : Inv (s.setModu { s.modu with fmPhase := ph }) :=
  ⟨h.params, h.tone, h.carrier, h.pattern, h.running, h.stopping,
    fun hv => (h.session hv).congr rfl rfl rfl rfl rfl ((h.session hv).period .tone) ((h.session hv).period .carrier), h.bytes⟩

end Sys2Proof.Machine
end

