-- ==== Sys2Proof/Laws/Morse.lean ====
section
/-! SUPPORT. What ENCODE writes (spec/41_morse_encoder.md R96, R98), and the dit length. -/

namespace Sys2Proof.Machine

theorem writtenSlots_length (cap : Nat) (slots : List Bool) (pad : Nat) :
    (writtenSlots cap slots pad).length = min cap (slots.length + pad) := by
  simp [writtenSlots]
  omega

/-- R96: what is written is the first `cap` of all the slots due. -/
theorem writtenSlots_eq_take (cap : Nat) (slots : List Bool) (pad : Nat) :
    writtenSlots cap slots pad = (slots ++ List.replicate pad false).take cap := by
  rw [writtenSlots, List.take_append, List.take_replicate, Nat.min_comm]

theorem encodedPattern_len (cap : Word) (slots : List Bool) (pad : Nat) (old : MorsePattern) :
    (encodedPattern cap.toNat slots pad old).len.toNat = min cap.toNat (slots.length + pad) := by
  have := cap.isLt
  simp only [encodedPattern, writtenSlots_length, BitVec.toNat_ofNat]
  omega

end Sys2Proof.Machine
end

