-- ==== Sys2Proof/Laws/PerInstr.lean ====
section
/-! SUPPORT. Facts about every instruction as syntax, one lemma per constructor. -/

namespace Sys2Proof.Laws.EncodeLength

/-- A well-formed instruction is two words and a payload, of the length that the two words give (R62, R65), and its
header's reserved bits are zero (R63). -/
def Statement (i : Instr) : Prop :=
  i.wellFormed = true →
    ∃ w0 w1 payload, Sys2Proof.encode i = w0 :: w1 :: payload ∧ rsvField w0 = 0 ∧
      payload.length = payloadLength w0 w1

theorem nop : Statement .nop := fun _ => ⟨_, _, [], rfl, by decide, by decide⟩

theorem wrcfg (r : CfgReg) (v : Word) : Statement (.wrcfg r v) := fun _ =>
  ⟨_, _, [], rfl, by cases r <;> decide, by cases r <;> rfl⟩

theorem rdcfg (r : ReadReg) : Statement (.rdcfg r) := fun _ =>
  ⟨_, _, [], rfl, by rcases r with ⟨_ | _⟩ | _ <;> decide, by rcases r with ⟨_ | _⟩ | _ <;> rfl⟩

theorem gen (ch : Channel) (n : Word) : Statement (.gen ch n) := fun _ =>
  ⟨_, _, [], rfl, by cases ch <;> decide, by cases ch <;> rfl⟩

theorem release (ch : Channel) : Statement (.release ch) := fun _ =>
  ⟨_, _, [], rfl, by cases ch <;> decide, by cases ch <;> rfl⟩

theorem encode (msg : List Byte) : Statement (.encode msg) := fun h => by
  have hn : (countWord msg.length).toNat = msg.length := countWord_toNat (by simpa [Instr.wellFormed, countFits] using h)
  refine ⟨header 0x05 0, countWord msg.length, packBytes msg, rfl, rsvField_header _ _, ?_⟩
  rw [packBytes_length, payloadLength, opcField_header, hn]
  rfl

theorem gate (buf : List Sample) : Statement (.gate buf) := fun h => by
  have hn : (countWord buf.length).toNat = buf.length := countWord_toNat (by simpa [Instr.wellFormed, countFits] using h)
  refine ⟨header 0x06 0, countWord buf.length, bufferWords buf, rfl, rsvField_header _ _, ?_⟩
  rw [payloadLength, opcField_header, hn]
  simp [bufferWords, sampleWords]
  omega

theorem mod (buf : List (Sample × Sample)) : Statement (.mod buf) := fun h => by
  have hn : (countWord buf.length).toNat = buf.length := countWord_toNat (by simpa [Instr.wellFormed, countFits] using h)
  refine ⟨header 0x07 0, countWord buf.length, _, rfl, rsvField_header _ _, ?_⟩
  rw [payloadLength, opcField_header, hn]
  simp [sampleWords]
  omega

theorem setup : Statement .setup := fun _ => ⟨_, _, [], rfl, by decide, by decide⟩

theorem run : Statement .run := fun _ => ⟨_, _, [], rfl, by decide, by decide⟩

theorem stop : Statement .stop := fun _ => ⟨_, _, [], rfl, by decide, by decide⟩

end Sys2Proof.Laws.EncodeLength
end

