-- ==== Sys2Proof/Laws/Step.lean ====
section
/-! SUPPORT. What a step can do, said once: a reset, a host command (waiting, illegal, or executed) or an engine step
(the end of the stream, or a frame). -/

namespace Sys2Proof.Machine

/-- `s` with other values in the interleaving script and the draw counter. -/
def State.setTurns (s : State) (turns : List Agent) (draws : Nat) : State :=
  s.setEnv { s.env with turns := turns, draws := draws }

/-- The three kinds of step. In an IDLE block the step is the host's, and no turn is drawn. -/
theorem step_cases (s : State) :
    (s.env.resetReq = true ∧ step s = .next (applyReset s)) ∨
      (s.env.resetReq = false ∧
        ((s.mode = .idle ∧ step s = hostStep s) ∨
          (s.mode = .running ∧ ∃ turns draws,
            step s = hostStep (s.setTurns turns draws) ∨ step s = .next (engineStep (s.setTurns turns draws))))) := by
  unfold step machineStep
  cases hr : s.env.resetReq with
  | true => exact .inl ⟨rfl, if_pos rfl⟩
  | false =>
    refine .inr ⟨rfl, ?_⟩
    rw [if_neg Bool.false_ne_true]
    cases hm : s.mode with
    | idle => exact .inl ⟨rfl, rfl⟩
    | running =>
      obtain ⟨turns, draws, hd⟩ := drawTurn_state s
      refine .inr ⟨rfl, turns, draws, ?_⟩
      rcases hp : drawTurn s with ⟨a, s'⟩
      simp only [hp] at hd
      subst hd
      cases a
      · exact .inl rfl
      · exact .inr rfl

/-- The three kinds of host step. -/
theorem hostStep_cases (s : State) :
    (decode s.env.cmdIn = .incomplete ∧ hostStep s = .next s) ∨
      (∃ d rest, decode s.env.cmdIn = .illegal d rest ∧
        hostStep s = .next (failCommand (.illegalCommand d) (s.setCmdIn rest))) ∨
      (∃ i rest, decode s.env.cmdIn = .command i rest ∧ hostStep s = exec i (s.setCmdIn rest)) := by
  unfold hostStep
  cases decode s.env.cmdIn with
  | incomplete => exact .inl ⟨rfl, rfl⟩
  | illegal d rest => exact .inr (.inl ⟨d, rest, rfl, rfl⟩)
  | command i rest => exact .inr (.inr ⟨i, rest, rfl, rfl⟩)

/-- One frame, field by field: what of the state it can change. -/
theorem frame_spec (answer : Word) (s : State) :
    ∃ tone carrier cw modu y,
      frame answer s =
        { s with
          tone := tone, carrier := carrier, cw := cw, modu := modu
          frameCount := s.frameCount + 1
          sinkErrCount := sinkErrAfter s.sinkErrCount answer
          env := { s.env with sinkWrites := s.env.sinkWrites ++ [y] } } ∧
      y.length = s.cfg.bufLen.toNat ∧ cw.ditLen = s.cw.ditLen ∧ modu.pilot = s.modu.pilot ∧
      modu.fmK = s.modu.fmK ∧ (s.cfg.modKind = 0 → modu.fmPhase = s.modu.fmPhase) ∧
      (s.carrier.built = true → carrier.built = true ∧ carrier.len = s.carrier.len ∧ carrier.buf = s.carrier.buf) ∧
      (s.tone.built = true → tone.built = true ∧ tone.len = s.tone.len ∧ tone.buf = s.tone.buf) := by
  obtain ⟨gc, hc, hcb⟩ := generate_state .carrier s.cfg.bufLen.toNat s
  obtain ⟨gt, ht, htb⟩ := generate_state .tone s.cfg.bufLen.toNat (s.setChan .carrier gc)
  have hlc := generate_length .carrier s.cfg.bufLen.toNat s
  have hlt := generate_length .tone s.cfg.bufLen.toNat (s.setChan .carrier gc)
  generalize hC : (generate .carrier s.cfg.bufLen.toNat s).1 = c at hlc
  generalize hT : (generate .tone s.cfg.bufLen.toNat (s.setChan .carrier gc)).1 = t at hlt
  let cw := t.foldl (gateNext s.hw s.pat) s.cw
  let s3 := ((s.setChan .carrier gc).setChan .tone gt).setCw cw
  let pairs := c.zip (gateBuffer s.hw s.pat s.cw t).1
  have hs : frameSamples s = modulate pairs s3 := by
    unfold frameSamples
    simp only [hc, hC, ht, hT, gateSamples_eq]
    rfl
  obtain ⟨ph, hm, hp⟩ := modulate_state pairs s3
  have hlen : (modulate pairs s3).1.length = s.cfg.bufLen.toNat := by
    rw [modulate_length, List.length_zip, gateBuffer_length, hlc, hlt, Nat.min_self]
  refine ⟨gt, gc, cw, { s.modu with fmPhase := ph }, (modulate pairs s3).1, ?_, hlen,
    foldl_gateNext_ditLen _ _ _ _, rfl, rfl, hp, hcb, htb⟩
  unfold frame
  rw [hs]
  simp only [hm]
  rfl

/-- The two kinds of engine step; a frame's answer is scripted or drawn. -/
theorem engineStep_cases (s : State) :
    (s.stopReq = true ∧ engineStep s = endStream s) ∨
      (s.stopReq = false ∧ ∃ answer answers draws,
        engineStep s = frame answer (s.setEnv { s.env with answers := answers, draws := draws })) := by
  unfold engineStep
  cases hs : s.stopReq with
  | true => exact .inl ⟨rfl, if_pos rfl⟩
  | false =>
    obtain ⟨answers, draws, hd⟩ := drawAnswer_state s
    refine .inr ⟨rfl, (drawAnswer s).1, answers, draws, ?_⟩
    rw [if_neg Bool.false_ne_true]
    exact congrArg (frame (drawAnswer s).1) hd

end Sys2Proof.Machine
end

