-- ==== Sys2Proof/Tests/Slice0.lean ====
section
/-! SUPPORT. Tests, each expected value taken from a vector, table or example of spec/ (named in the docstring), and one
witness for every statement that has hypotheses: a concrete state and operands that meet all of them. -/

namespace Sys2Proof.Tests

open Sys2Proof Sys2Proof.Machine

/-! ## Small states -/

/-- The configuration of session A (spec/95_test_vectors.md, conventions), with a modulation kind. -/
def cfgA (kind : Word) : CfgRegs := ⟨8, 2, 4, kind, 0x3F800000, 4, 0, 4⟩

/-- Session A right after SETUP: dit length 2, pilot 0.1f, FM scale 2^30. -/
def sessionA (kind : Word) : State :=
  { State.reset with
    cfg := cfgA kind
    sessionValid := true
    cw := ⟨0, true, 0, 2⟩
    modu := ⟨0x3DCCCCCD, 0x4E800000, 0⟩
    hw := { Params.reference with hasFm := kind == 1 } }

/-- The tone slots of session A. -/
def toneSlots : List Sample := [⟨0, 0x3F800000⟩, ⟨0xBF800000, 0⟩, ⟨0, 0xBF800000⟩, ⟨0x3F800000, 0⟩]

/-- Session A with the tone built and its cursor at 1. -/
def sessionBuilt : State := { sessionA 0 with tone := ⟨true, 4, 1, toneSlots⟩ }

/-- The pattern of "E" (R99). -/
def patE : MorsePattern := ⟨[true, false, false, false], 4, false⟩

def runningOf (s : State) : State := { s with mode := .running }

/-- `s` with command words waiting, and the interleaving and the sink scripted. -/
def given (ws : List Word) (turns : List Agent) (answers : List Word) (s : State) : State :=
  { s with env := { s.env with cmdIn := ws, turns := turns, answers := answers } }

/-- The state a step or a command gives, the reset state where it gives none. -/
def stateAfter (o : Host.Outcome State Fault Refusal) : State :=
  match o with
  | .next t => t
  | .fault _ => State.reset
  | .refused _ => State.reset

/-- The words answered since a quiet environment. -/
def answers (o : Host.Outcome State Fault Refusal) : List Word := (stateAfter o).env.responses

/-! ## WellFormed: an ill-formed term for each check, refused -/

theorem test_encode_too_long : (Instr.encode (List.replicate (2 ^ 32) 0)).wellFormed = false := by
  simp only [Instr.wellFormed, countFits, List.length_replicate]
  decide

theorem test_gate_too_long : (Instr.gate (List.replicate (2 ^ 32) ⟨0, 0⟩)).wellFormed = false := by
  simp only [Instr.wellFormed, countFits, List.length_replicate]
  decide

theorem test_mod_too_long : (Instr.mod (List.replicate (2 ^ 32) (⟨0, 0⟩, ⟨0, 0⟩))).wellFormed = false := by
  simp only [Instr.wellFormed, countFits, List.length_replicate]
  decide

theorem test_gate_longest : (Instr.gate (List.replicate (2 ^ 32 - 1) ⟨0, 0⟩)).wellFormed = true := by
  simp only [Instr.wellFormed, countFits, List.length_replicate]
  decide

/-! ## Decoding: words written out from the encodings of R63, R66 and R97 -/

theorem test_decode_nop : decode [0x00000000, 0x00000000] = .command .nop [] := by decide

theorem test_decode_wrcfg : decode [0x01070000, 0x00001000] = .command (.wrcfg .bufLen 4096) [] := by decide

theorem test_decode_rdcfg : decode [0x02230000, 0x00000000] = .command (.rdcfg .zcEps) [] := by decide

/-- R73: the words of RDSTAT. -/
theorem test_encode_rdstat : encode rdstat = [0x02100000, 0x00000000] := by decide +kernel

theorem test_decode_gen : decode [0x03010000, 0x00000004] = .command (.gen .carrier 4) [] := by decide

theorem test_decode_release : decode [0x04010000, 0x00000000] = .command (.release .carrier) [] := by decide

/-- "PARIS" (R74): the bytes past the fifth are ignored (R97). -/
theorem test_decode_encode :
    decode [0x05000000, 0x00000005, 0x49524150, 0xFFFFFF53, 0x0A000000] =
      .command (.encode [0x50, 0x41, 0x52, 0x49, 0x53]) [0x0A000000] := by decide

theorem test_decode_gate :
    decode [0x06000000, 0x00000001, 0x3F800000, 0x80000000] = .command (.gate [⟨0x3F800000, 0x80000000⟩]) [] := by
  decide

theorem test_decode_mod :
    decode [0x07000000, 0x00000001, 0x00000001, 0x00000002, 0x00000003, 0x00000004] =
      .command (.mod [(⟨1, 2⟩, ⟨3, 4⟩)]) [] := by decide

theorem test_decode_setup : decode [0x08000000, 0x00000000] = .command .setup [] := by decide

theorem test_decode_run : decode [0x09000000, 0x00000000] = .command .run [] := by decide

theorem test_decode_stop : decode [0x0A000000, 0x00000000] = .command .stop [] := by decide

/-- Vectors 2.1: each check, and which comes first. -/
theorem test_decode_illegal :
    decode [0x0B05FFFF, 0x00000007] = .illegal .opcode [] ∧
    decode [0x02000001, 0x00000001] = .illegal .reservedBits [] ∧
    decode [0x021F0000, 0x00000000] = .illegal .selector [] ∧
    decode [0x01080000, 0x00000005] = .illegal .selector [] ∧
    decode [0x05010000, 0x00000001, 0x00000045, 0x00000000] = .illegal .selector [0x00000000] ∧
    decode [0x08000000, 0x00000001] = .illegal .operand [] := by decide

/-- A command waits for its last word (R52). -/
theorem test_decode_incomplete :
    decode [0x05000000, 0x00000005, 0x49524150] = .incomplete ∧ decode [0x00000000] = .incomplete := by decide

/-- R49, R74: the bytes of `WRCFG SAMPLE_RATE, 48000`. -/
theorem test_decode_bytes :
    decodeBytes [0x00, 0x00, 0x00, 0x01, 0x80, 0xBB, 0x00, 0x00] = .command (.wrcfg .sampleRate 48000) [] := by
  decide

/-- The opcode table's numbering: the header word in bits 31 to 0. -/
theorem test_decode_table_word :
    decodeTableWord 32 0x0A000000 = some .stop ∧ decodeTableWord 32 0x07000000 = some (.mod []) ∧
    decodeTableWord 64 0x0000BB8001000000 = some (.wrcfg .sampleRate 48000) ∧
    decodeTableWord 64 0x0000000805000000 = some (.encode [0, 0, 0, 0, 0, 0, 0, 0]) ∧
    decodeTableWord 32 0x0B000000 = none := by decide

/-! ## A step from reset -/

theorem test_step_fetched_word :
    stateAfter (step (State.reset.withFetchWord 64 0x0000BB8001000000)) =
      { State.reset with
        cfg := ⟨48000, 0, 0, 0, 0, 0, 0, 0⟩
        env := { Environment.quiet with responses := [0] } } := by decide

/-- While the block runs the fetched word comes with the host's turn. -/
theorem test_step_fetched_word_running :
    (stateAfter (step ((runningOf (sessionA 0)).withFetchWord 32 0x0A000000))).stopReq = true := by decide

/-- R160: the first command after reset. -/
theorem test_status_after_reset :
    answers (step (State.reset.withFetchWord 32 0x02100000)) = [0, 0] ∧
    answers (step ((sessionA 1).withFetchWord 32 0x02150000)) = [0, 1] := by decide

/-- R162: SETUP with every register at its reset value. -/
theorem test_setup_after_reset : answers (step (State.reset.withFetchWord 32 0x08000000)) = [0x00000401] := by
  decide

/-- P4, step 5: the STATUS register shows the error of the command before. -/
theorem test_status_after_illegal :
    answers (exec (.rdcfg .status) (stateAfter (step (given [0x01100000, 1] [] [] State.reset)))) =
      [0x00000304, 0, 0x00030400] := by decide

/-- A reset with a word and a byte of a command waiting (R158): they are discarded, and the registers are 0. -/
theorem test_reset_event :
    let s := given [0x00000000, 0x00000000, 0x06000000] [] [] (sessionA 0)
    let t := stateAfter (step (requestReset (sendBytes [0x01] s)))
    t.env.cmdIn = [0x00000000, 0x00000000] ∧ t.env.rxBytes = [] ∧ t.cfg.wpm = 0 ∧ t.sessionValid = false := by
  decide

/-! ## One or two small cases per command -/

/-- R136: a NOP clears an earlier error. -/
theorem test_nop :
    let t := stateAfter (exec .nop { State.reset with lastErr := 4, lastDetail := 3 })
    t.lastErr = 0 ∧ t.lastDetail = 0 ∧ t.env.responses = [0] := by decide

/-- Vectors 2.2: a NaN is stored bit for bit, and the session ends. -/
theorem test_wrcfg :
    let t := stateAfter (exec (.wrcfg .modIndex 0x7FC00001) (sessionA 0))
    t.cfg.modIndex = 0x7FC00001 ∧ t.sessionValid = false ∧ t.cfg.modKind = 0 := by decide

/-- P3, step 17: BUSY while RUNNING. -/
theorem test_wrcfg_busy : answers (exec (.wrcfg .wpm 5) (runningOf (sessionA 0))) = [2] := by decide

/-- P3, step 21: STATUS while RUNNING, after a BUSY. -/
theorem test_rdcfg_status :
    answers (exec (.rdcfg .status)
      { runningOf (sessionA 0) with
        lastErr := 2
        tone := ⟨true, 4, 0, toneSlots⟩
        carrier := ⟨true, 2, 0, []⟩ }) = [0, 0x0000021D] := by decide

/-- Vectors 2.2: constants. -/
theorem test_rdcfg_constants :
    answers (exec (.rdcfg .capPattern) State.reset) = [0, 0x00004000] ∧
    answers (exec (.rdcfg .zcEps) State.reset) = [0, 0x3A800000] := by decide

/-- Vectors 2.3, step 1: `GEN TONE, 5`. -/
theorem test_gen :
    answers (exec (.gen .tone 5) (sessionA 0)) =
      [0, 0, 0x3F800000, 0xBF800000, 0, 0, 0xBF800000, 0x3F800000, 0, 0, 0x3F800000] ∧
    (stateAfter (exec (.gen .tone 5) (sessionA 0))).tone.cursor = 1 := by decide +kernel

/-- Vectors 2.3: r = 6, f = 2, so L = 3. -/
theorem test_gen_third_of_a_turn :
    answers (exec (.gen .tone 2) { sessionA 0 with cfg := { cfgA 0 with sampleRate := 6 } }) =
      [0, 0xBF000000, 0x3F5DB3D7, 0xBF000000, 0xBF5DB3D7] := by decide +kernel

/-- Vectors 2.3, step 5. -/
theorem test_release :
    (stateAfter (exec (.release .tone) sessionBuilt)).tone = ⟨false, 0, 0, toneSlots⟩ ∧
    (stateAfter (exec (.release .carrier) sessionBuilt)).tone.built = true := by decide

/-- Vectors 2.4: "E E". -/
theorem test_encode :
    answers (exec (.encode [0x45, 0x20, 0x45]) State.reset) = [0, 15, 0] ∧
    (stateAfter (exec (.encode [0x45, 0x20, 0x45]) State.reset)).pat.slots =
      [true, false, false, false, false, false, false, false, false, false, false, true, false, false, false] := by
  decide

/-- S8: a RAM of two slots cuts the dash of "T". -/
theorem test_encode_truncated :
    let t := stateAfter (exec (.encode [0x54]) { State.reset with hw := { Params.reference with patternCapacity := 2 } })
    t.env.responses = [0, 2, 1] ∧ t.pat = ⟨[true, true], 2, true⟩ := by decide

/-- S10, R110: the source's gate vector. -/
theorem test_gate :
    let s := { sessionA 0 with pat := ⟨[true, false], 2, true⟩, cw := ⟨0, true, 0, 4⟩ }
    let t := stateAfter (exec (.gate
      [ ⟨0x3F800000, 0⟩, ⟨0x3F000000, 0x3F000000⟩, ⟨0, 0x3F800000⟩, ⟨0xBF000000, 0x3F000000⟩
      , ⟨0xBF800000, 0⟩, ⟨0xBF000000, 0xBF000000⟩, ⟨0, 0xBF800000⟩, ⟨0x3F000000, 0xBF000000⟩ ]) s)
    t.env.responses =
      [0, 0x3F800000, 0, 0x3F000000, 0x3F000000, 0, 0x3F800000, 0xBF000000, 0x3F000000, 0, 0, 0, 0, 0, 0, 0, 0] ∧
    t.cw = ⟨0, false, 0, 4⟩ := by decide

/-- Vectors 2.5: the closed band, one ulp above it, minus zero and a NaN. -/
theorem test_gate_band :
    let cwAfter := fun q => (stateAfter (exec (.gate [⟨0x3F800000, q⟩]) { sessionA 0 with pat := patE })).cw
    cwAfter 0x3A800000 = ⟨1, true, 1, 2⟩ ∧ cwAfter 0x3A800001 = ⟨0, true, 0, 2⟩ ∧
    cwAfter 0x80000000 = ⟨1, true, 1, 2⟩ ∧ cwAfter 0x7FC00000 = ⟨0, true, 0, 2⟩ := by decide

/-- Vectors 2.6, AM: -0.9f, 0.6f on Q, CANON_NAN from infinity times zero, and overflow. -/
theorem test_mod_am :
    answers (exec (.mod
      [ (⟨0x3F800000, 0⟩, ⟨0xBF800000, 0⟩), (⟨0, 0x3F800000⟩, ⟨0x3F000000, 0x40E00000⟩)
      , (⟨0x7F800000, 0⟩, ⟨0, 0⟩), (⟨0x00000001, 0⟩, ⟨0, 0⟩) ]) (sessionA 0)) =
      [0, 0xBF666666, 0, 0, 0x3F19999A, 0x7FC00000, 0, 0, 0] := by decide

/-- Vectors 2.6, FM: a negative step, a clamped step. -/
theorem test_mod_fm :
    let t := stateAfter (exec (.mod
      [ (⟨0x3F800000, 0⟩, ⟨0xBF800000, 0⟩), (⟨0x3F800000, 0⟩, ⟨0xBF800000, 0⟩), (⟨0x3F800000, 0⟩, ⟨0, 0⟩)
      , (⟨0x3F800000, 0⟩, ⟨0x3F000000, 0⟩), (⟨0x3F800000, 0⟩, ⟨0x40800000, 0⟩) ]) (sessionA 1))
    t.env.responses =
      [ 0, 0, 0xBF800000, 0xBF800000, 0, 0xBF800000, 0, 0xBF3504F3, 0xBF3504F3, 0x3F3504F3, 0x3F3504F3 ] ∧
    t.modu.fmPhase = 0x1FFFFFFF := by decide +kernel

/-- Vectors 2.7, base configuration B. -/
theorem test_setup :
    let t := stateAfter (exec .setup { State.reset with cfg := ⟨48000, 600, 1000, 0, 0x3F800000, 15, 0, 4800⟩ })
    t.env.responses = [0] ∧ t.cw.ditLen = 3840 ∧ t.modu.pilot = 0x3DCCCCCD ∧ t.modu.fmK = 0x4C4CCCCD ∧
    t.sessionValid = true := by decide

/-- Vectors 2.7: the smallest subnormal index, and the table check at 65537 slots. -/
theorem test_setup_edges :
    let t := stateAfter (exec .setup { State.reset with cfg := ⟨48000, 600, 1000, 0, 0x00000001, 15, 0, 4800⟩ })
    t.modu.pilot = 0 ∧ t.modu.fmK = 0x01CCCCCD ∧
    answers (exec .setup { State.reset with cfg := ⟨65537, 1, 2, 0, 0x3F800000, 15, 0, 4800⟩ }) = [0x00000601] := by
  decide

/-- Vectors 2.7: RUN. -/
theorem test_run :
    (stateAfter (exec .run (sessionA 0))).mode = .running ∧ answers (exec .run State.reset) = [3] ∧
    answers (exec .run (runningOf (sessionA 0))) = [2] := by decide

/-- Vectors 2.7: STOP. -/
theorem test_stop :
    (stateAfter (exec .stop (runningOf (sessionA 0)))).stopReq = true ∧
    (stateAfter (exec .stop (sessionA 0))).stopReq = false := by decide

/-- P3, frame 2: the sink answers 0. -/
theorem test_engine_frame :
    let t := stateAfter (step (given [] [.engine] [0]
      { runningOf sessionBuilt with
        pat := patE
        tone := ⟨true, 4, 0, toneSlots⟩
        cw := ⟨2, false, 1, 2⟩
        frameCount := 1 }))
    t.env.sinkWrites = [[⟨0xBDCCCCCD, 0⟩, ⟨0x3DCCCCCD, 0⟩, ⟨0xBDCCCCCD, 0⟩, ⟨0x3DCCCCCD, 0⟩]] ∧
    t.frameCount = 2 ∧ t.sinkErrCount = 1 ∧ t.cw = ⟨0, false, 1, 2⟩ := by decide +kernel

/-- P3, step 26: the end of the stream. -/
theorem test_engine_stop :
    let t := stateAfter (step (given [] [.engine] [] { runningOf sessionBuilt with stopReq := true }))
    t.mode = .idle ∧ t.sessionValid = false ∧ t.tone.built = false ∧ t.env.sinkWrites = [] := by decide

/-- R121 and vectors 2.6: ties to even, and the clamp. -/
theorem test_cvt :
    cvtI32 0x40200000 = 2 ∧ cvtI32 0x40600000 = 4 ∧ cvtI32 0xC0200000 = -2 ∧ cvtI32 0x4F000000 = 2147483647 := by
  decide

/-- S3: slots 0, 1 and 79 of a period of 80. -/
theorem test_trig :
    trigRom .correctlyRounded 80 0 = ⟨0x3F7F35F9, 0x3DA0AF2A⟩ ∧
    trigRom .correctlyRounded 80 1 = ⟨0x3F7CD925, 0x3E20305B⟩ ∧
    trigRom .correctlyRounded 80 79 = ⟨0x3F800000, 0⟩ := by decide +kernel

/-- S5: the dit length. -/
theorem test_dit_length :
    ditLength 48000 15 = 3840 ∧ ditLength 65536 15 = 5242 ∧ ditLength 8 10 = 0 ∧
    ditLength 2147483647 1 = 2576980376 := by decide

/-- Slots written as a string of 0 and 1, as the table of R99 writes them. -/
def slotsOf (s : String) : List Bool := s.toList.map (· == '1')

/-- R99: the letters A to M. -/
theorem test_slots_a_to_m :
    [ "10111000", "111010101000", "11101011101000", "1110101000", "1000", "101011101000", "111011101000"
    , "1010101000", "101000", "1011101110111000", "111010111000", "101110101000", "1110111000" ].map slotsOf =
      [ 0x41, 0x42, 0x43, 0x44, 0x45, 0x46, 0x47, 0x48, 0x49, 0x4A, 0x4B, 0x4C, 0x4D ].map byteSlots := by
  decide

/-- R99: the letters N to Z. -/
theorem test_slots_n_to_z :
    [ "11101000", "11101110111000", "10111011101000", "1110111010111000", "1011101000", "10101000", "111000"
    , "1010111000", "101010111000", "101110111000", "11101010111000", "1110101110111000"
    , "11101110101000" ].map slotsOf =
      [ 0x4E, 0x4F, 0x50, 0x51, 0x52, 0x53, 0x54, 0x55, 0x56, 0x57, 0x58, 0x59, 0x5A ].map byteSlots := by
  decide

/-- R99: the digits and the space. -/
theorem test_slots_digits :
    [ "1110111011101110111000", "10111011101110111000", "101011101110111000", "1010101110111000", "10101010111000"
    , "101010101000", "11101010101000", "1110111010101000", "111011101110101000", "11101110111011101000"
    , "0000000" ].map slotsOf =
      [ 0x30, 0x31, 0x32, 0x33, 0x34, 0x35, 0x36, 0x37, 0x38, 0x39, 0x20 ].map byteSlots := by
  decide

/-! ## Witnesses: the hypotheses of each statement, met together -/

/-- A session on a fresh block of session A's configuration meets the invariant. -/
theorem inv_sessionA : Inv (sessionA 0) ∧ Inv (sessionA 1) := by
  constructor <;>
    refine ⟨⟨by decide, by decide, by decide, by decide⟩, .empty _, .empty _,
      ⟨by decide, by decide, by decide, ?_, ?_, by decide⟩, ?_, ?_, fun _ => ⟨?_, ?_, ?_, ?_, ?_⟩, by decide⟩
  all_goals first
    | (intro ch hb; cases ch <;> cases hb)
    | (unfold ConfigOk; decide)
    | decide

/-- So it does with a built channel. -/
theorem inv_sessionBuilt : Inv sessionBuilt := by
  have h := inv_sessionA.1
  refine ⟨h.params, ⟨?_, ?_, ?_, ?_, fun _ => ?_, ?_⟩, h.carrier, h.pattern, h.running, h.stopping,
    fun _ => ⟨(h.session rfl).config, (h.session rfl).ditLen, (h.session rfl).pilot, (h.session rfl).fmK, ?_⟩, h.bytes⟩
  case refine_7 => intro ch hb; cases ch <;> [decide; cases hb]
  all_goals decide +kernel

/-- And while it runs. -/
theorem inv_running : Inv (runningOf sessionBuilt) := by
  have h := inv_sessionBuilt
  refine ⟨h.params, h.tone, h.carrier, h.pattern, fun _ => rfl, fun _ => rfl, fun _ =>
    ⟨(h.session rfl).config, (h.session rfl).ditLen, (h.session rfl).pilot, (h.session rfl).fmK, ?_⟩, h.bytes⟩
  intro ch
  cases ch <;> [exact (h.session rfl).period .tone; exact (h.session rfl).period .carrier]

theorem legal_reference : LegalParams Params.reference := ⟨by decide, by decide, by decide, by decide⟩

/-- ZC_EPS -0.0 is legal (R12, R16). -/
theorem legal_negativeZeroEps : LegalParams { Params.reference with zcEps := 0x80000000 } :=
  ⟨by decide, by decide, by decide, by decide⟩

theorem witness_DecodeOfEncodeIsIdentity :
    (Instr.encode [0x45]).wellFormed = true ∧ (Instr.gate [⟨1, 2⟩]).wellFormed = true ∧
      (Instr.mod [(⟨1, 2⟩, ⟨3, 4⟩)]).wellFormed = true := by decide

theorem witness_DecodedCommandHasOneSpelling :
    decode [0x06000000, 1, 5, 6, 7] = .command (.gate [⟨5, 6⟩]) [7] ∧ (∀ msg, Instr.gate [⟨5, 6⟩] ≠ .encode msg) ∧
      decode [0x05000000, 1, 0xFFFFFF45] = .command (.encode [0x45]) [] :=
  ⟨by decide, fun _ => by simp, by decide⟩

/-- The five clauses, each at the edge of the one before. -/
theorem witness_DecodeChecksInOrder :
    0x0A < (0x0B000000 : Word).toNat / 2 ^ 24 ∧
    ((0x0A000001 : Word).toNat / 2 ^ 24 ≤ 0x0A ∧ (0x0A000001 : Word).toNat % 2 ^ 16 ≠ 0) ∧
    (legalSelector 1 8 = false ∧ legalSelector 1 7 = true) ∧
    (legalSelector 2 0x0F = false ∧ legalSelector 2 0x10 = true ∧ legalSelector 2 0x1E = true ∧
      legalSelector 2 0x1F = false ∧ legalSelector 2 0x20 = true ∧ legalSelector 2 0x23 = true ∧
      legalSelector 2 0x24 = false) ∧
    (legalSelector 3 1 = true ∧ legalSelector 4 2 = false ∧ legalSelector 10 0 = true ∧ legalSelector 10 1 = false) ∧
    (zeroOperand 10 = true ∧ (1 : Word) ≠ 0 ∧ zeroOperand 7 = false ∧ zeroOperand 9 = true) := by decide

/-- One word short of the payload, and exactly the payload. -/
theorem witness_LengthFromFirstTwoWords :
    payloadWords 5 5 = 2 ∧ payloadWords 5 4 = 1 ∧ payloadWords 6 1 = 2 ∧ payloadWords 7 1 = 4 ∧ payloadWords 3 9 = 0 ∧
      [(0 : Word)].length < payloadWords 5 5 ∧ payloadWords 5 4 ≤ [(0 : Word)].length := by decide

theorem witness_ByteTransportCarriesWords : State.reset.env.rxBytes = [] := rfl

/-- The host moves next in an IDLE block. -/
theorem hostMoves_idle {s : State} (hr : s.env.resetReq = false) (hm : s.mode = .idle) : hostMoves s s.env :=
  ⟨hr, .inl ⟨hm, rfl⟩⟩

/-- In a running block a scripted turn goes to the agent it names. -/
theorem moves_scripted {s : State} {a : Agent} {turns : List Agent} (hr : s.env.resetReq = false)
    (hm : s.mode = .running) (ht : s.env.turns = a :: turns) :
    match a with
    | .host => hostMoves s { s.env with turns := turns }
    | .engine => engineMoves s { s.env with turns := turns } := by
  cases a
  · exact ⟨hr, .inr ⟨hm, .inl ⟨ht, rfl⟩⟩⟩
  · exact ⟨hr, hm, .inl ⟨ht, rfl⟩⟩

/-- With no turn scripted the free value gives the turn to the one or to the other. -/
theorem moves_free {s : State} (hr : s.env.resetReq = false) (hm : s.mode = .running) (ht : s.env.turns = []) :
    hostMoves s { s.env with draws := s.env.draws + 1 } ∨ engineMoves s { s.env with draws := s.env.draws + 1 } := by
  cases hd : Config.engineMovesNext s.env.draws
  · exact .inl ⟨hr, .inr ⟨hm, .inr ⟨ht, hd, rfl⟩⟩⟩
  · exact .inr ⟨hr, hm, .inr ⟨ht, hd, rfl⟩⟩

theorem witness_StepRunsDecodedCommand :
    let s := given [0x0A000000, 0, 7] [.host, .engine] [] (runningOf sessionBuilt)
    hostMoves s { s.env with turns := [.engine] } ∧ decode s.env.cmdIn = .command .stop [7] :=
  ⟨moves_scripted (a := .host) rfl rfl rfl, by decide⟩

theorem witness_EveryStepGoesOn : (runningOf sessionBuilt).env.resetReq = false := rfl

theorem witness_IllegalCommandOnlyAnswers :
    let s := fun ws => given ws [] [] State.reset
    (∀ ws, hostMoves (s ws) (s ws).env) ∧
    decode (s [0x0B000000, 0]).env.cmdIn = .illegal .opcode [] ∧
    decode (s [0x00000001, 0]).env.cmdIn = .illegal .reservedBits [] ∧
    decode (s [0x00010000, 0]).env.cmdIn = .illegal .selector [] ∧
    decode (s [0x00000000, 1]).env.cmdIn = .illegal .operand [] :=
  ⟨fun _ => hostMoves_idle rfl rfl, by decide⟩

theorem witness_IncompleteCommandWaits :
    let s := given [0x06000000, 1, 5] [] [] State.reset
    hostMoves s s.env ∧ decode s.env.cmdIn = .incomplete :=
  ⟨hostMoves_idle rfl rfl, by decide⟩

theorem witness_ResetEventDiscardsPartialCommand :
    (requestReset (given [0x00000000, 0, 0x06000000] [] [] (runningOf sessionBuilt))).env.resetReq = true := rfl

theorem witness_StepKeepsInvariant :
    Inv (sessionA 0) ∧ ∃ t, step (sessionA 0) = .next t := ⟨inv_sessionA.1, _, rfl⟩

theorem witness_InputsKeepInvariant : Inv (runningOf sessionBuilt) := inv_running

theorem witness_WrcfgWritesOneRegister : State.reset.mode = .idle := rfl

theorem witness_RdcfgReadsRegisterMap :
    ((0x00 : BitVec 8), (8 : Word)) ∈ registerMap (sessionA 0) ∧
      ((0x15 : BitVec 8), (1 : Word)) ∈ registerMap (sessionA 0) ∧
      ((0x23 : BitVec 8), (0x3A800000 : Word)) ∈ registerMap (sessionA 0) := by decide

theorem witness_RunningRefusesAsBusy :
    let s := given [0x01050000, 5] [.host] [] (runningOf sessionBuilt)
    s.mode = .running ∧ needsIdle (.wrcfg .wpm 5) = true ∧ needsIdle .setup = true ∧ needsIdle .run = true ∧
      hostMoves s { s.env with turns := [] } ∧ decode s.env.cmdIn = .command (.wrcfg .wpm 5) [] :=
  ⟨rfl, rfl, rfl, rfl, moves_scripted (a := .host) rfl rfl rfl, by decide⟩

theorem witness_NoSessionIsNotReady :
    State.reset.mode = .idle ∧ State.reset.sessionValid = false ∧
      ((∃ ch n, Instr.gen .tone 1048577 = .gen ch n) ∨ (∃ buf, Instr.gen .tone 1048577 = .gate buf) ∨
        (∃ buf, Instr.gen .tone 1048577 = .mod buf) ∨ Instr.gen .tone 1048577 = .run) :=
  ⟨rfl, rfl, .inl ⟨_, _, rfl⟩⟩

/-- One above BUF_MAX, in each of the three commands. -/
theorem witness_CountAboveBufMaxIsInvalid :
    let s := { sessionA 0 with hw := { (sessionA 0).hw with bufMax := 1 } }
    s.mode = .idle ∧ s.sessionValid = true ∧ s.hw.bufMax.toNat < (2 : Word).toNat ∧
      s.hw.bufMax.toNat < [(⟨0, 0⟩ : Sample), ⟨0, 0⟩].length ∧
      s.hw.bufMax.toNat < [((⟨0, 0⟩, ⟨0, 0⟩) : Sample × Sample), (⟨0, 0⟩, ⟨0, 0⟩)].length := by decide

theorem witness_FailedCommandHasNoPartialEffect :
    ∃ t, exec .run State.reset = .next t ∧ t.lastErr ≠ 0 := ⟨_, rfl, by decide⟩

/-- The edges of the table check: r = 2f, and L = TABLE_CAPACITY. -/
theorem witness_LegalTableHasTwoSlots :
    tableLegal Params.reference (24000 : Word).toInt (48000 : Word).toInt ∧
      tableLegal Params.reference (1 : Word).toInt (65536 : Word).toInt := by
  unfold tableLegal
  decide

theorem witness_DefaultTableExactSlots : 0 < 2 ∧ 2 % 2 = 0 ∧ 4 % 4 = 0 ∧ 3 < 4 := by decide

theorem witness_EveryPeriodHasAZeroCrossing :
    LegalParams Params.reference ∧ Params.reference.trig = .correctlyRounded ∧ 0 < 1 :=
  ⟨legal_reference, rfl, by decide⟩

theorem witness_GenOfZeroBuildsNothing : (sessionA 0).mode = .idle ∧ (sessionA 0).sessionValid = true := ⟨rfl, rfl⟩

theorem witness_GenReadsBuiltChannel :
    Inv sessionBuilt ∧ sessionBuilt.mode = .idle ∧ sessionBuilt.sessionValid = true ∧
      (1048576 : Word).toNat ≤ sessionBuilt.hw.bufMax.toNat ∧ (1048576 : Word) ≠ 0 ∧
      (sessionBuilt.chan .tone).built = true := ⟨inv_sessionBuilt, rfl, rfl, by decide, by decide, rfl⟩

theorem witness_GenBuildsOnFirstUse :
    Inv sessionBuilt ∧ sessionBuilt.mode = .idle ∧ sessionBuilt.sessionValid = true ∧
      (1 : Word).toNat ≤ sessionBuilt.hw.bufMax.toNat ∧ (1 : Word) ≠ 0 ∧
      (sessionBuilt.chan .carrier).built = false := ⟨inv_sessionBuilt, rfl, rfl, by decide, by decide, rfl⟩

theorem witness_GenerateSplitsAnywhere : Inv sessionBuilt ∧ sessionBuilt.sessionValid = true := ⟨inv_sessionBuilt, rfl⟩

theorem witness_GenerateIsPeriodic :
    (sessionBuilt.chan .tone).built = true ∧ 0 + (sessionBuilt.chan .tone).len.toNat < 5 := by decide

theorem witness_ReleaseDiscardsOneChannel : sessionBuilt.mode = .idle := rfl

/-- The edges of the mapped ranges, and their neighbours outside. -/
theorem witness_MappedBytesWriteSlots :
    [0x41, 0x5A, 0x61, 0x7A, 0x30, 0x39, 0x20].all (fun b => (morseOf b).isSome) = true ∧
      [0x40, 0x5B, 0x60, 0x7B, 0x2F, 0x3A, 0x1F, 0x21, 0x00, 0x80, 0xFF].all (fun b => (morseOf b).isNone) = true := by
  decide

theorem witness_EncodePutsSlotsOneByOne : State.reset.mode = .idle := rfl

/-- The smallest and the largest operands. -/
theorem witness_DitLengthIsExactQuotient :
    0 < (1 : Word).toInt ∧ 0 < (0x7FFFFFFF : Word).toInt := by decide

theorem witness_ZeroCrossingIsClosedBand :
    LegalParams Params.reference ∧ LegalParams { Params.reference with zcEps := 0x80000000 } :=
  ⟨legal_reference, legal_negativeZeroEps⟩

/-- An advance, and the two states in which the same sample does not advance. -/
theorem witness_GateStepAdvancesAtCrossing :
    let hw := Params.reference
    let c : CWState := ⟨3, true, 0, 2⟩
    let x : Sample := ⟨0x3F800000, 0x3A800000⟩
    (c.count = 0 ∧ 0 < patE.len.toNat ∧ f32Le (f32Abs x.q) hw.zcEps = true) ∧
    ¬({ c with count := 1 }.count = 0 ∧ 0 < patE.len.toNat ∧ f32Le (f32Abs x.q) hw.zcEps = true) ∧
    ¬(c.count = 0 ∧ 0 < patE.len.toNat ∧ f32Le (f32Abs (0x3A800001 : F32)) hw.zcEps = true) := by decide

theorem witness_GateFoldsOverBuffer :
    (sessionA 0).mode = .idle ∧ (sessionA 0).sessionValid = true ∧ toneSlots.length ≤ (sessionA 0).hw.bufMax.toNat := by
  decide

theorem witness_EmptyPatternPassesEverySample :
    (sessionA 0).mode = .idle ∧ (sessionA 0).sessionValid = true ∧ toneSlots.length ≤ (sessionA 0).hw.bufMax.toNat ∧
      (sessionA 0).pat.len = 0 ∧ (sessionA 0).cw.gate = true := by decide

theorem witness_AdvanceHoldsForDitLength :
    let c : CWState := ⟨0, true, 0, 2⟩
    let x : Sample := ⟨0x3F800000, 0⟩
    c.count = 0 ∧ 0 < patE.len.toNat ∧ zeroCrossing Params.reference x = true ∧ [x].length < c.ditLen.toNat := by
  decide

theorem witness_ModAmplitudeMultiplies :
    (sessionA 0).mode = .idle ∧ (sessionA 0).sessionValid = true ∧
      [((⟨1, 2⟩, ⟨3, 4⟩) : Sample × Sample)].length ≤ (sessionA 0).hw.bufMax.toNat ∧ (sessionA 0).cfg.modKind = 0 := by
  decide

theorem witness_ModPhaseAccumulates :
    (sessionA 1).mode = .idle ∧ (sessionA 1).sessionValid = true ∧
      [((⟨1, 2⟩, ⟨3, 4⟩) : Sample × Sample)].length ≤ (sessionA 1).hw.bufMax.toNat ∧ (sessionA 1).cfg.modKind = 1 := by
  decide

/-- The index -0.0, the largest finite one, and carrier components at both ends. -/
theorem witness_SilentToneSendsPilotAlone :
    f32IsFinite 0x80000000 = true ∧ f32Le 0 0x80000000 = true ∧ f32IsFinite 0x7F7FFFFF = true ∧
      f32Le 0 0x7F7FFFFF = true ∧ f32IsFinite 0x80000001 = true := by decide

/-- Each clause: NaN, the infinities, just outside the range on both sides, and its two ends. -/
theorem witness_CvtRoundsToNearestAndClamps :
    f32IsNan 0x7FC00000 = true ∧
    (f32IsFinite 0x4F000000 = true ∧ (2 ^ 31 - 1) * 2 ^ 149 < f32Int 0x4F000000) ∧
    (f32IsFinite 0xCF000001 = true ∧ f32Int 0xCF000001 < -2 ^ 31 * 2 ^ 149) ∧
    (-2 ^ 31 * 2 ^ 149 ≤ f32Int 0xCF000000 ∧ f32Int 0xCF000000 ≤ (2 ^ 31 - 1) * 2 ^ 149) ∧
    (-2 ^ 31 * 2 ^ 149 ≤ f32Int 0x4EFFFFFF ∧ f32Int 0x4EFFFFFF ≤ (2 ^ 31 - 1) * 2 ^ 149) ∧
    2 * |cvtI32 0x40200000 * 2 ^ 149 - f32Int 0x40200000| = 2 ^ 149 := by decide

/-- A tie between two neighbours, the largest finite value, and the last and first units on the two sides of overflow;
then a datum of every class: NaN, finite, zero, infinite, and a sum and a difference of zero. -/
theorem witness_RoundingIsToNearestEven :
    (0 < 2 ∧ 1 < overflowUnits * 2 ∧ 1 < infinityBits ∧
      (|(unitsOfBits (rneBits 1 2) : Int) * 2 - 1| = |(unitsOfBits 1 : Int) * 2 - 1| ∧ 1 ≠ rneBits 1 2) ∧
      (overflowUnits - 1 < overflowUnits * 1 ∧ rneBits (overflowUnits - 1) 1 = 0x7F7FFFFF) ∧
      (overflowUnits * 1 ≤ overflowUnits ∧ rneBits overflowUnits 1 = 0x7F800000) ∧ (-1 : Int) < 0) ∧
    infinityBits < bitsOf 0x7F800001 ∧ infinityBits < bitsOf 0xFFC00000 ∧
    (bitsOf 0x7F7FFFFF < infinityBits ∧ unitsOf 0x80000001 ≠ 0 ∧ unitsOf 0x80000000 = 0) ∧
    (valueOf 0x3F800000 + valueOf 0xBF800000 = 0 ∧ valueOf 0x80000000 - valueOf 0 = 0 ∧
      valueOf 0x3F800000 + valueOf 1 ≠ 0 ∧ valueOf 0x3F800000 - valueOf 1 ≠ 0) ∧
    bitsOf 0x7F800000 = infinityBits ∧ bitsOf 0xFF800000 = infinityBits := by
  decide

theorem witness_LeComparesValues :
    f32IsNan 0xFFC00000 = true ∧ f32IsFinite 0x80000000 = true ∧ f32IsFinite 0x00000000 = true ∧
      f32IsNan 0x7F800000 = false ∧ f32IsNan 0xFF800000 = false := by decide

/-- Session A's configuration, and one with both edges of BUF_LEN's and the tables' ranges. -/
theorem witness_SetupStartsSession :
    (sessionA 0).mode = .idle ∧ SetupLegal (sessionA 0).hw (sessionA 0).cfg ∧
      SetupLegal Params.reference ⟨65536, 1, 32768, 0, 0x80000000, 1, 0, 1048576⟩ := by
  refine ⟨rfl, ⟨?_, ?_, ?_, ?_, ?_, ?_, ?_⟩, ⟨?_, ?_, ?_, ?_, ?_, ?_, ?_⟩⟩
  all_goals first
    | (unfold tableLegal; decide)
    | decide

/-- Each check failing at its edge, the ones before it passing. -/
theorem witness_SetupReportsFirstFailure :
    let hw := Params.reference
    State.reset.mode = .idle ∧
    ¬(2 : Word).toNat ≤ 1 ∧
    ((1 : Word).toNat ≤ 1 ∧ ¬((1 : Word).toNat = 1 → hw.hasFm = true)) ∧
    (((0 : Word).toNat = 1 → hw.hasFm = true) ∧ ¬(f32IsFinite 0x80000001 = true ∧ f32Le 0 0x80000001 = true)) ∧
    ((f32IsFinite 0x80000000 = true ∧ f32Le 0 0x80000000 = true) ∧ ¬0 < (0 : Word).toInt) ∧
    (0 < (1 : Word).toInt ∧ ¬(1 ≤ (0 : Word).toNat ∧ (0 : Word).toNat ≤ hw.bufMax.toNat) ∧
      ¬(1 ≤ (1048577 : Word).toNat ∧ (1048577 : Word).toNat ≤ hw.bufMax.toNat)) ∧
    ((1 ≤ (1048576 : Word).toNat ∧ (1048576 : Word).toNat ≤ hw.bufMax.toNat) ∧
      ¬tableLegal hw (24001 : Word).toInt (48000 : Word).toInt) ∧
    (tableLegal hw (24000 : Word).toInt (48000 : Word).toInt ∧
      ¬tableLegal hw (0 : Word).toInt (48000 : Word).toInt ∧ ¬tableLegal hw (1 : Word).toInt (65537 : Word).toInt) := by
  unfold tableLegal
  decide

theorem witness_RunStartsEngine : (sessionA 0).mode = .idle ∧ (sessionA 0).sessionValid = true := ⟨rfl, rfl⟩

theorem witness_StopLatchesRequest : (runningOf sessionBuilt).mode = .running ∧ sessionBuilt.mode = .idle := ⟨rfl, rfl⟩

theorem witness_EngineStepEndsStream :
    let s := given [] [.engine] [] { runningOf sessionBuilt with stopReq := true }
    engineMoves s { s.env with turns := [] } ∧ s.stopReq = true := ⟨moves_scripted (a := .engine) rfl rfl rfl, rfl⟩

/-- With a counter about to wrap, the other at its top, an answer at the edge of failure, and no answer scripted. -/
theorem witness_EngineStepWritesOneFrame :
    let s := given [] [.engine] [0, 1]
      { runningOf sessionBuilt with frameCount := 0xFFFFFFFF, sinkErrCount := 0xFFFFFFFF }
    let e : Environment := { s.env with turns := [] }
    engineMoves s e ∧ s.stopReq = false ∧ sinkAnswers 0 e { e with answers := [1] } ∧
      sinkAnswers (Config.sinkAnswer 0) { e with answers := [] } { e with answers := [], draws := 1 } :=
  ⟨moves_scripted (a := .engine) rfl rfl rfl, rfl, .inl ⟨rfl, rfl⟩, .inr ⟨rfl, rfl, rfl⟩⟩

theorem witness_FrameIsTheCommandsInTurn :
    Inv (runningOf sessionBuilt) ∧ (runningOf sessionBuilt).mode = .running := ⟨inv_running, rfl⟩

theorem witness_FrameBoundariesAreInvisible :
    Inv (runningOf sessionBuilt) ∧ (runningOf sessionBuilt).sessionValid = true ∧ [(4 : Word), 0] ≠ [] ∧
      [(4 : Word), 0].length * (runningOf sessionBuilt).cfg.bufLen.toNat < 2 ^ 32 :=
  ⟨inv_running, rfl, by decide, by decide⟩

theorem witness_OnlySetupStartsASession :
    let s := given [0x08000000, 0] [] [] { State.reset with cfg := cfgA 0 }
    s.sessionValid = false ∧ ∃ t, step s = .next t ∧ t.sessionValid = true :=
  ⟨rfl, stateAfter (step (given [0x08000000, 0] [] [] { State.reset with cfg := cfgA 0 })), rfl, by decide⟩

/-- RUN in an IDLE block, and the engine's last step. -/
theorem witness_ModeChangesOnlyByRunStopAndReset :
    let s := given [0x09000000, 0] [] [] (sessionA 0)
    let u := given [] [.engine] [] { runningOf sessionBuilt with stopReq := true }
    (∃ t, step s = .next t ∧ s.env.resetReq = false ∧ s.mode = .idle ∧ t.mode = .running) ∧
    (∃ t, step u = .next t ∧ u.env.resetReq = false ∧ u.mode = .running ∧ t.mode = .idle) :=
  ⟨⟨_, rfl, rfl, rfl, by decide⟩, ⟨_, rfl, rfl, rfl, by decide⟩⟩

theorem witness_RunningFreezesConfigurationAndPattern :
    let s := given [] [.engine] [4] (runningOf sessionBuilt)
    s.mode = .running ∧ s.env.resetReq = false ∧ (∃ t, step s = .next t ∧ t.mode = .running) ∧
      (s.chan .tone).built = true :=
  ⟨rfl, rfl, ⟨_, rfl, by decide⟩, rfl⟩

theorem witness_StreamsOnlyGrow : ∃ t, step State.reset = .next t := ⟨_, rfl⟩

theorem witness_WrcfgLeavesDerivedState :
    (∃ t, exec (.wrcfg .padding 1) sessionBuilt = .next t) ∧ sessionBuilt.mode = .idle := ⟨⟨_, rfl⟩, rfl⟩

end Sys2Proof.Tests
end

section
/-! PROOFS. Rounding to binary32 and the ordered comparison (spec/00_scope.md R16). A magnitude is a scale `s` and a
significand `m` of at most 24 bits: its bits are `s * 2 ^ 23 + m` and its value is `m * 2 ^ s` units. -/

namespace Sys2Proof.Machine

/-! ### Scale and significand -/

/-- The carry `m = 2 ^ 24` included: it runs into the exponent field. -/
theorem magUnits_of_significand {s m : Nat} (hm : m ≤ 2 ^ 24) (hs : s = 0 ∨ 2 ^ 23 ≤ m) :
    magUnits (s * 2 ^ 23 + m) = m * 2 ^ s := by
  rcases Nat.lt_or_ge m (2 ^ 23) with hlow | hhigh
  · obtain rfl : s = 0 := by omega
    rw [Nat.zero_mul, Nat.zero_add, pow_zero, Nat.mul_one, magUnits, if_pos (by omega)]
  rcases Nat.lt_or_eq_of_le hm with hlt | rfl
  · have hexp : (s * 2 ^ 23 + m) / 2 ^ 23 = s + 1 := by omega
    have hfrac : 2 ^ 23 + (s * 2 ^ 23 + m) % 2 ^ 23 = m := by omega
    rw [magUnits, hexp, hfrac, if_neg s.succ_ne_zero, Nat.add_sub_cancel]
  · have hexp : (s * 2 ^ 23 + 2 ^ 24) / 2 ^ 23 = s + 1 + 1 := by omega
    have hfrac : 2 ^ 23 + (s * 2 ^ 23 + 2 ^ 24) % 2 ^ 23 = 2 ^ 23 := by omega
    rw [magUnits, hexp, hfrac, if_neg (s + 1).succ_ne_zero, Nat.add_sub_cancel]
    ring

theorem exists_significand (b : Nat) :
    ∃ s m, b = s * 2 ^ 23 + m ∧ m < 2 ^ 24 ∧ (s = 0 ∨ 2 ^ 23 ≤ m) := by
  rcases Nat.lt_or_ge b (2 ^ 23) with hsub | hnorm
  · exact ⟨0, b, by omega, by omega, .inl rfl⟩
  · exact ⟨b / 2 ^ 23 - 1, 2 ^ 23 + b % 2 ^ 23, by omega, by omega, .inr (by omega)⟩

/-- The next magnitude has the next significand at the same scale. -/
theorem magUnits_strictMono : StrictMono magUnits := by
  refine strictMono_nat_of_lt_succ fun b => ?_
  obtain ⟨s, m, rfl, hm, hs⟩ := exists_significand b
  rw [magUnits_of_significand hm.le hs, Nat.add_assoc, magUnits_of_significand hm (hs.imp_right Nat.le_succ_of_le)]
  exact Nat.mul_lt_mul_of_pos_right m.lt_succ_self (by positivity)

theorem magUnits_eq_zero {b : Nat} : magUnits b = 0 ↔ b = 0 :=
  magUnits_strictMono.injective.eq_iff' (by decide)

/-- A magnitude is a multiple of the scale's unit, or lies below the significands of that scale. -/
theorem magUnits_multiple_or_below (s b : Nat) :
    (∃ k, magUnits b = k * 2 ^ s) ∨ magUnits b < 2 ^ 23 * 2 ^ s := by
  obtain ⟨t, k, rfl, hk, ht⟩ := exists_significand b
  rw [magUnits_of_significand hk.le ht]
  rcases Nat.lt_or_ge t s with hts | hst
  · right
    calc k * 2 ^ t < 2 ^ 24 * 2 ^ t := Nat.mul_lt_mul_of_pos_right hk (by positivity)
      _ = 2 ^ 23 * 2 ^ (t + 1) := by ring
      _ ≤ 2 ^ 23 * 2 ^ s := Nat.mul_le_mul_left _ (Nat.pow_le_pow_right (by decide) hts)
  · left
    refine ⟨k * 2 ^ (t - s), ?_⟩
    rw [Nat.mul_assoc, ← pow_add, Nat.sub_add_cancel hst]

/-! ### The nearest integer -/

theorem rneDiv_le {n d k : Nat} (hd : 0 < d) (h : n ≤ k * d) : rneDiv n d ≤ k := by
  obtain ⟨-, hhigh, htie⟩ := rneDiv_spec n d hd
  by_contra! hlt
  nlinarith

theorem le_rneDiv {n d k : Nat} (hd : 0 < d) (h : k * d ≤ n) : k ≤ rneDiv n d := by
  obtain ⟨hlow, -, -⟩ := rneDiv_spec n d hd
  by_contra! hlt
  nlinarith

/-- Half a unit at most, and an even quotient at exactly half. -/
theorem rneDiv_error (n : Nat) {d : Nat} (hd : 0 < d) :
    2 * |(rneDiv n d : Int) * d - n| ≤ d ∧ (2 * |(rneDiv n d : Int) * d - n| = d → rneDiv n d % 2 = 0) := by
  obtain ⟨hlow, hhigh, htie⟩ := rneDiv_spec n d hd
  rw [Nat.add_mul, Nat.mul_assoc, Nat.one_mul] at hlow htie
  rw [Nat.mul_assoc] at hhigh
  rw [← Nat.cast_mul]
  generalize rneDiv n d * d = p at *
  rcases abs_cases ((p : Int) - n) with ⟨he, -⟩ | ⟨he, -⟩
  · exact ⟨by omega, fun h => htie (.inr (by omega))⟩
  · exact ⟨by omega, fun h => htie (.inl (by omega))⟩

/-- An odd quotient gives way to the next one at the half. -/
theorem rneDiv_le_odd_iff (n : Nat) {d k : Nat} (hd : 0 < d) (hk : k % 2 = 1) :
    rneDiv n d ≤ k ↔ 2 * n < (2 * k + 1) * d := by
  obtain ⟨hlow, hhigh, htie⟩ := rneDiv_spec n d hd
  constructor
  · intro h
    rcases Nat.lt_or_eq_of_le h with hlt | rfl
    · nlinarith
    · exact lt_of_le_of_ne hlow fun heq => by have := htie (.inl heq); omega
  · intro h
    by_contra! hlt
    nlinarith

/-- No integer is nearer, and of two equally near it is the even one. -/
theorem rneDiv_nearest (n : Nat) {d : Nat} (hd : 0 < d) (k : Nat) :
    |(rneDiv n d : Int) * d - n| ≤ |(k : Int) * d - n| ∧
      (|(rneDiv n d : Int) * d - n| = |(k : Int) * d - n| → k ≠ rneDiv n d → rneDiv n d % 2 = 0) := by
  obtain ⟨herr, htie⟩ := rneDiv_error n hd
  by_cases hk : k = rneDiv n d
  · exact ⟨by rw [hk], fun _ hne => absurd hk hne⟩
  have hstep : (1 : Int) ≤ |(k : Int) - rneDiv n d| := Int.one_le_abs (by omega)
  have hgap : (d : Int) ≤ |(k : Int) * d - n| + |(rneDiv n d : Int) * d - n| := by
    calc (d : Int) ≤ |(k : Int) - rneDiv n d| * d := le_mul_of_one_le_left (by positivity) hstep
      _ = |((k : Int) * d - n) - ((rneDiv n d : Int) * d - n)| := by
        rw [← Nat.abs_cast d, ← abs_mul, Nat.abs_cast]; congr 1; ring
      _ ≤ _ := abs_sub _ _
  exact ⟨by omega, fun heq _ => htie (by omega)⟩

/-! ### The rounded magnitude -/

/-- The scale at which `n / d` units are rounded: there the significand fits in 24 bits. -/
def roundScale (n d : Nat) : Nat := Nat.log2 (n / d) - 23

/-- The unit of that scale, over the denominator `d`. -/
def roundQuantum (n d : Nat) : Nat := d * 2 ^ roundScale n d

/-- The significand to which `n / d` units are rounded. -/
def roundSignificand (n d : Nat) : Nat := rneDiv n (roundQuantum n d)

theorem rneBits_eq_roundSignificand (n d : Nat) :
    rneBits n d = min (roundScale n d * 2 ^ 23 + roundSignificand n d) f32InfBits := rfl

theorem roundQuantum_pos (n : Nat) {d : Nat} (hd : 0 < d) : 0 < roundQuantum n d := by
  unfold roundQuantum; positivity

theorem lt_roundQuantum (n : Nat) {d : Nat} (hd : 0 < d) : n < 2 ^ 24 * roundQuantum n d := by
  have hq : n / d < 2 ^ (24 + roundScale n d) :=
    Nat.lt_log2_self.trans_le (Nat.pow_le_pow_right (by decide) (by unfold roundScale; omega))
  calc n < 2 ^ (24 + roundScale n d) * d := (Nat.div_lt_iff_lt_mul hd).1 hq
    _ = 2 ^ 24 * roundQuantum n d := by rw [roundQuantum, pow_add]; ring

theorem roundQuantum_le {n d : Nat} (hd : 0 < d) (hs : roundScale n d ≠ 0) : 2 ^ 23 * roundQuantum n d ≤ n := by
  have hlog : Nat.log2 (n / d) = 23 + roundScale n d := by unfold roundScale at *; omega
  have hne : n / d ≠ 0 := by intro h; rw [h, Nat.log2_zero] at hlog; omega
  have hq : 2 ^ (23 + roundScale n d) ≤ n / d := hlog ▸ Nat.log2_self_le hne
  calc 2 ^ 23 * roundQuantum n d = 2 ^ (23 + roundScale n d) * d := by rw [roundQuantum, pow_add]; ring
    _ ≤ n := (Nat.le_div_iff_mul_le hd).1 hq

theorem roundSignificand_le (n : Nat) {d : Nat} (hd : 0 < d) : roundSignificand n d ≤ 2 ^ 24 :=
  rneDiv_le (roundQuantum_pos n hd) (lt_roundQuantum n hd).le

theorem roundScale_eq_zero_or (n : Nat) {d : Nat} (hd : 0 < d) :
    roundScale n d = 0 ∨ 2 ^ 23 ≤ roundSignificand n d :=
  (Decidable.em _).imp_right fun hs => le_rneDiv (roundQuantum_pos n hd) (roundQuantum_le hd hs)

/-- The value of the rounded magnitude, before overflow. -/
theorem magUnits_round_mul (n : Nat) {d : Nat} (hd : 0 < d) :
    magUnits (roundScale n d * 2 ^ 23 + roundSignificand n d) * d = roundSignificand n d * roundQuantum n d := by
  rw [magUnits_of_significand (roundSignificand_le n hd) (roundScale_eq_zero_or n hd), roundQuantum]
  ring

/-- No magnitude is nearer to `n / d`, and of two equally near the rounded one is even. -/
theorem round_nearest (n : Nat) {d : Nat} (hd : 0 < d) (b : Nat) :
    let r := roundScale n d * 2 ^ 23 + roundSignificand n d
    |(magUnits r : Int) * d - n| ≤ |(magUnits b : Int) * d - n| ∧
      (|(magUnits r : Int) * d - n| = |(magUnits b : Int) * d - n| → b ≠ r → r % 2 = 0) := by
  intro r
  have hr : (magUnits r : Int) * d = roundSignificand n d * roundQuantum n d := mod_cast magUnits_round_mul n hd
  have hnear := rneDiv_nearest n (roundQuantum_pos n hd)
  have hd' : (roundQuantum n d : Int) = d * 2 ^ roundScale n d := mod_cast rfl
  rw [hr]
  by_cases hmul : ∃ k, magUnits b = k * 2 ^ roundScale n d
  · obtain ⟨k, hk⟩ := hmul
    have hb : (magUnits b : Int) * d = k * roundQuantum n d := by rw [hk, hd']; push_cast; ring
    rw [hb]
    refine ⟨(hnear k).1, fun heq hne => ?_⟩
    have hk' : k ≠ roundSignificand n d := by
      rintro rfl
      refine hne (magUnits_strictMono.injective ?_)
      rw [hk, magUnits_of_significand (roundSignificand_le n hd) (roundScale_eq_zero_or n hd)]
    have heven : roundSignificand n d % 2 = 0 := (hnear k).2 heq hk'
    omega
  · have hlt := (magUnits_multiple_or_below (roundScale n d) b).resolve_left hmul
    have hs : roundScale n d ≠ 0 := fun h => hmul ⟨magUnits b, by rw [h, pow_zero, Nat.mul_one]⟩
    have hbelow : magUnits b * d < 2 ^ 23 * roundQuantum n d := by
      calc magUnits b * d < 2 ^ 23 * 2 ^ roundScale n d * d := Nat.mul_lt_mul_of_pos_right hlt hd
        _ = 2 ^ 23 * roundQuantum n d := by rw [roundQuantum]; ring
    have hle := roundQuantum_le hd hs
    have hfloor := (hnear (2 ^ 23)).1
    have hstrict : |(roundSignificand n d : Int) * roundQuantum n d - n| < |(magUnits b : Int) * d - n| := by
      refine hfloor.trans_lt ?_
      zify at hbelow hle
      rw [abs_of_nonpos (by push_cast; linarith), abs_of_nonpos (by linarith)]
      push_cast
      linarith
    exact ⟨hstrict.le, fun heq => absurd heq hstrict.ne⟩

/-- Overflow begins half a unit above the largest significand at the largest scale, 253. -/
theorem round_lt_infinity_iff (n : Nat) {d : Nat} (hd : 0 < d) :
    roundScale n d * 2 ^ 23 + roundSignificand n d < f32InfBits ↔ n < overflowUnits * d := by
  have hm := roundSignificand_le n hd
  have hhigh := lt_roundQuantum n hd
  unfold f32InfBits overflowUnits
  rcases lt_trichotomy (roundScale n d) 253 with hs | hs | hs
  · have hpow : 2 ^ roundScale n d ≤ 2 ^ 252 := Nat.pow_le_pow_right (by decide) (by omega)
    have hq : roundQuantum n d ≤ d * 2 ^ 252 := Nat.mul_le_mul_left d hpow
    exact iff_of_true (by omega) (by omega)
  · have hq : roundQuantum n d = d * 2 ^ 253 := by rw [roundQuantum, hs]
    have hodd : roundSignificand n d ≤ 2 ^ 24 - 1 ↔ 2 * n < (2 * (2 ^ 24 - 1) + 1) * roundQuantum n d :=
      rneDiv_le_odd_iff n (roundQuantum_pos n hd) (by decide)
    constructor
    · intro h
      have := hodd.1 (by omega)
      omega
    · intro h
      have := hodd.2 (by omega)
      omega
  · have hpow : 2 ^ 254 ≤ 2 ^ roundScale n d := Nat.pow_le_pow_right (by decide) (by omega)
    have hq : d * 2 ^ 254 ≤ roundQuantum n d := Nat.mul_le_mul_left d hpow
    have hle := roundQuantum_le hd (by omega : roundScale n d ≠ 0)
    have hmin := (roundScale_eq_zero_or n hd).resolve_left (by omega)
    exact iff_of_false (by omega) (by omega)

theorem roundsToNearestEven (n : Nat) {d : Nat} (hd : 0 < d) : RoundsToNearestEven n d := by
  have hov := round_lt_infinity_iff n hd
  refine ⟨fun h => ?_, fun h => ?_⟩
  · have hfin := hov.2 h
    have hbits : rneBits n d = roundScale n d * 2 ^ 23 + roundSignificand n d := min_eq_left hfin.le
    rw [hbits]
    exact ⟨hfin, fun b _ => round_nearest n hd b⟩
  · exact min_eq_right (not_lt.1 (mt hov.1 (not_lt.2 h)))

/-! ### The statements' readings of a datum are the model's -/

theorem signOf_eq (a : F32) : signOf a = f32Neg a := (BitVec.msb_eq_decide a).symm

theorem bitsOf_eq (a : F32) : bitsOf a = f32Mag a := rfl

theorem unitsOf_eq (a : F32) : unitsOf a = f32Units a := (f32Units_eq a).symm

theorem valueOf_eq (a : F32) : valueOf a = f32Int a := by
  rw [valueOf, signOf_eq, unitsOf_eq, f32Int]

theorem datum_eq (neg : Bool) (bits : Nat) : datum neg bits = f32Pack neg bits := rfl

theorem infinityBits_eq : infinityBits = f32InfBits := rfl

/-! ### Classes of operands -/

theorem f32IsNan_eq (a : F32) : f32IsNan a = decide (f32InfBits < f32Mag a) := by
  rw [Bool.eq_iff_iff, f32IsNan_iff, decide_eq_true_iff]

theorem f32IsInf_eq (a : F32) : f32IsInf a = decide (f32Mag a = f32InfBits) := by
  rw [Bool.eq_iff_iff, f32IsInf_iff, decide_eq_true_iff]

theorem f32IsFinite_eq (a : F32) : f32IsFinite a = decide (f32Mag a < f32InfBits) := by
  rw [Bool.eq_iff_iff, f32IsFinite_iff, decide_eq_true_iff]

theorem f32IsZero_eq (a : F32) : f32IsZero a = decide (f32Units a = 0) := by
  rw [Bool.eq_iff_iff, f32IsZero_iff, decide_eq_true_iff, f32Units_eq, magUnits_eq_zero]

theorem class_of_finite {a : F32} (h : f32Mag a < f32InfBits) : f32IsNan a = false ∧ f32IsInf a = false := by
  rw [f32IsNan_eq, f32IsInf_eq, decide_eq_false_iff_not, decide_eq_false_iff_not]
  omega

theorem class_of_infinite {a : F32} (h : f32Mag a = f32InfBits) :
    f32IsNan a = false ∧ f32IsInf a = true ∧ f32IsZero a = false := by
  simp [f32IsNan_eq, f32IsInf_eq, f32IsZero, h, f32InfBits]

/-! ### The operations, class by class -/

theorem ops_of_nan (nan : F32) {a b : F32} (h : f32InfBits < f32Mag a ∨ f32InfBits < f32Mag b) :
    f32Mul nan a b = nan ∧ f32Div nan a b = nan ∧ f32Add nan a b = nan ∧ f32Sub nan a b = nan := by
  have hn : (f32IsNan a || f32IsNan b) = true := by
    rw [Bool.or_eq_true]
    exact h.imp (f32IsNan_iff a).2 (f32IsNan_iff b).2
  simp [f32Mul, f32Div, f32Add, f32Sub, hn]

theorem f32Mul_of_finite (nan : F32) {a b : F32} (ha : f32Mag a < f32InfBits) (hb : f32Mag b < f32InfBits) :
    f32Mul nan a b =
      f32Pack (xor (f32Neg a) (f32Neg b)) (rneBits (f32Units a * f32Units b) f32One) := by
  obtain ⟨han, hai⟩ := class_of_finite ha
  obtain ⟨hbn, hbi⟩ := class_of_finite hb
  simp [f32Mul, han, hai, hbn, hbi]

theorem f32Div_of_finite (nan : F32) {a b : F32} (ha : f32Mag a < f32InfBits) (hb : f32Mag b < f32InfBits) :
    f32Div nan a b =
      if f32Units b = 0 then
        if f32Units a = 0 then nan else f32Pack (xor (f32Neg a) (f32Neg b)) f32InfBits
      else f32Pack (xor (f32Neg a) (f32Neg b)) (rneBits (f32Units a * f32One) (f32Units b)) := by
  obtain ⟨han, hai⟩ := class_of_finite ha
  obtain ⟨hbn, hbi⟩ := class_of_finite hb
  simp [f32Div, han, hai, hbn, hbi, f32IsZero_eq]

theorem roundedSum_f32Add (nan : F32) {a b : F32} (ha : f32Mag a < f32InfBits) (hb : f32Mag b < f32InfBits) :
    RoundedSum (f32Add nan a b) (f32Int a + f32Int b) (f32Neg a && f32Neg b) := by
  obtain ⟨han, hai⟩ := class_of_finite ha
  obtain ⟨hbn, hbi⟩ := class_of_finite hb
  have hadd : f32Add nan a b =
      if f32Int a + f32Int b = 0 then f32Pack (f32Neg a && f32Neg b) 0 else rne32 (f32Int a + f32Int b) 1 := by
    simp [f32Add, han, hai, hbn, hbi]
  rw [hadd]
  exact ⟨fun h => if_neg h, fun h => if_pos h⟩

theorem roundedSum_f32Sub (nan : F32) {a b : F32} (ha : f32Mag a < f32InfBits) (hb : f32Mag b < f32InfBits) :
    RoundedSum (f32Sub nan a b) (f32Int a - f32Int b) (f32Neg a && !f32Neg b) := by
  have hsum := roundedSum_f32Add nan ha (b := f32Negate b) (by rwa [f32Mag_negate])
  rwa [f32Int_negate, f32Neg_negate, ← Int.sub_eq_add_neg] at hsum

theorem ops_of_infinite_finite (nan : F32) {a b : F32} (ha : f32Mag a = f32InfBits) (hb : f32Mag b < f32InfBits) :
    f32Mul nan a b = (if f32Units b = 0 then nan else f32Pack (xor (f32Neg a) (f32Neg b)) f32InfBits) ∧
      f32Div nan a b = f32Pack (xor (f32Neg a) (f32Neg b)) f32InfBits ∧
      f32Add nan a b = a ∧ f32Sub nan a b = a := by
  obtain ⟨han, hai, haz⟩ := class_of_infinite ha
  obtain ⟨hbn, hbi⟩ := class_of_finite hb
  refine ⟨?_, ?_, ?_, ?_⟩
  · simp [f32Mul, han, hai, haz, hbn, f32IsZero_eq b]
  · simp [f32Div, han, hai, hbn, hbi]
  · simp [f32Add, han, hai, hbn, hbi]
  · simp [f32Sub, f32Add, han, hai, hbn, hbi]

theorem ops_of_finite_infinite (nan : F32) {a b : F32} (ha : f32Mag a < f32InfBits) (hb : f32Mag b = f32InfBits) :
    f32Mul nan a b = (if f32Units a = 0 then nan else f32Pack (xor (f32Neg a) (f32Neg b)) f32InfBits) ∧
      f32Div nan a b = f32Pack (xor (f32Neg a) (f32Neg b)) 0 ∧
      f32Add nan a b = b ∧ f32Sub nan a b = f32Pack (!f32Neg b) f32InfBits := by
  obtain ⟨han, hai⟩ := class_of_finite ha
  obtain ⟨hbn, hbi, hbz⟩ := class_of_infinite hb
  have hneg : f32Pack (!f32Neg b) f32InfBits = f32Negate b := by
    rw [← hb, ← f32Neg_negate, ← f32Mag_negate, f32Pack_self]
  refine ⟨?_, ?_, ?_, ?_⟩
  · simp [f32Mul, han, hbi, hbz, hbn, f32IsZero_eq a]
  · simp [f32Div, han, hai, hbn, hbi]
  · simp [f32Add, han, hai, hbn, hbi]
  · simp [f32Sub, f32Add, han, hai, hbn, hbi, hneg]

theorem ops_of_infinite_infinite (nan : F32) {a b : F32} (ha : f32Mag a = f32InfBits) (hb : f32Mag b = f32InfBits) :
    f32Mul nan a b = f32Pack (xor (f32Neg a) (f32Neg b)) f32InfBits ∧ f32Div nan a b = nan ∧
      f32Add nan a b = (if xor (f32Neg a) (f32Neg b) then nan else a) ∧
      f32Sub nan a b = if xor (f32Neg a) (f32Neg b) then a else nan := by
  obtain ⟨han, hai, haz⟩ := class_of_infinite ha
  obtain ⟨hbn, hbi, hbz⟩ := class_of_infinite hb
  refine ⟨?_, ?_, ?_, ?_⟩
  · simp [f32Mul, han, hai, haz, hbn, hbz]
  · simp [f32Div, han, hai, hbn, hbi]
  · cases ha : f32Neg a <;> cases hb : f32Neg b <;> simp [f32Add, han, hai, hbn, hbi, ha, hb]
  · cases ha : f32Neg a <;> cases hb : f32Neg b <;> simp [f32Sub, f32Add, han, hai, hbn, hbi, ha, hb]

/-! ### The ordered comparison -/

/-- The four sign cases differ only in which of the two orders of the magnitudes counts. -/
theorem f32Key_le_iff (a b : F32) : f32Key a ≤ f32Key b ↔ f32Int a ≤ f32Int b := by
  have hab := magUnits_strictMono.le_iff_le (a := f32Mag a) (b := f32Mag b)
  have hba := magUnits_strictMono.le_iff_le (a := f32Mag b) (b := f32Mag a)
  have ha := magUnits_eq_zero (b := f32Mag a)
  have hb := magUnits_eq_zero (b := f32Mag b)
  unfold f32Key f32Int
  rw [f32Units_eq, f32Units_eq]
  cases f32Neg a <;> cases f32Neg b <;> simp only [Bool.false_eq_true, if_true, if_false] <;> omega

theorem f32Le_of_not_nan {a b : F32} (ha : f32IsNan a = false) (hb : f32IsNan b = false) :
    f32Le a b = decide (f32Key a ≤ f32Key b) := by
  simp [f32Le, ha, hb]

theorem f32Key_bounds {a : F32} (h : f32IsNan a = false) :
    -(f32InfBits : Int) ≤ f32Key a ∧ f32Key a ≤ f32InfBits := by
  have hm : f32Mag a ≤ f32InfBits := not_lt.1 (by simpa [f32IsNan_eq] using h)
  unfold f32Key
  split <;> omega

theorem natAbs_f32Key (a : F32) : (f32Key a).natAbs = f32Mag a := by
  unfold f32Key
  split <;> omega

theorem f32Neg_eq_of_f32Key_ne_zero {a : F32} (h : f32Key a ≠ 0) : f32Neg a = decide (f32Key a < 0) := by
  cases hneg : f32Neg a
  · simp [f32Key, hneg]
  · simp only [f32Key, hneg, if_true] at h ⊢
    exact (decide_eq_true (by omega)).symm

/-- Away from the two zeros a key has one datum. -/
theorem eq_of_f32Key_eq {a b : F32} (h : f32Key a = f32Key b) (hb : f32Key b ≠ 0) : a = b := by
  rw [← f32Pack_self a, ← f32Pack_self b, f32Neg_eq_of_f32Key_ne_zero (h ▸ hb), f32Neg_eq_of_f32Key_ne_zero hb,
    ← natAbs_f32Key, ← natAbs_f32Key, h]

/-! ### The obligations -/

/-- Settles O46: the rounded significand is the nearest integer at its scale, magnitudes of a lower scale lie below all
significands of it, and each operation rounds once on finite data. -/
theorem roundingIsToNearestEven : Obligations.RoundingIsToNearestEven := by
  refine ⟨fun n d hd => roundsToNearestEven n hd, fun x d _ => ⟨rfl, by simp [rne32, f32Pack]⟩,
    fun a => ?_, fun nan a b => ?_⟩
  · exact ⟨f32Abs_toNat a, f32IsNan_eq a, f32IsFinite_eq a, fun _ => (valueOf_eq a).symm⟩
  · simp only [signOf_eq, bitsOf_eq, unitsOf_eq, valueOf_eq, datum_eq, infinityBits_eq]
    refine ⟨ops_of_nan nan, fun ha hb => ⟨f32Mul_of_finite nan ha hb, fun h => ?_, fun h => ?_,
      roundedSum_f32Add nan ha hb, roundedSum_f32Sub nan ha hb⟩, ops_of_infinite_finite nan,
      ops_of_finite_infinite nan, ops_of_infinite_infinite nan⟩
    · rw [f32Div_of_finite nan ha hb, if_neg h, f32One]
    · rw [f32Div_of_finite nan ha hb, if_pos h]

/-- Settles O47: the keys that f32_le compares are ordered as the values, and the infinities' keys are the two ends. -/
theorem leComparesValues : Obligations.LeComparesValues := by
  refine fun a b => ⟨fun h => ?_, fun ha hb => ?_, fun h => ?_⟩
  · rcases h with h | h <;> simp [f32Le, h]
  · have han := (class_of_finite ((f32IsFinite_iff a).1 ha)).1
    have hbn := (class_of_finite ((f32IsFinite_iff b).1 hb)).1
    rw [f32Le_of_not_nan han hbn, decide_eq_decide, f32Key_le_iff]
  · have hpos : f32IsNan 0x7F800000 = false := by decide
    have hneg : f32IsNan 0xFF800000 = false := by decide
    have kpos : f32Key 0x7F800000 = f32InfBits := by decide
    have kneg : f32Key 0xFF800000 = -f32InfBits := by decide
    obtain ⟨hlow, hhigh⟩ := f32Key_bounds h
    rw [f32Le_of_not_nan h hpos, f32Le_of_not_nan hneg h, f32Le_of_not_nan hpos h, f32Le_of_not_nan h hneg]
    refine ⟨by simpa [kpos], by simpa [kneg], decide_eq_decide.2 ⟨fun hle => ?_, ?_⟩,
      decide_eq_decide.2 ⟨fun hle => ?_, ?_⟩⟩
    · exact eq_of_f32Key_eq (le_antisymm (kpos ▸ hhigh) hle) (by rw [kpos]; decide)
    · rintro rfl; exact le_rfl
    · exact eq_of_f32Key_eq (le_antisymm hle (kneg ▸ hlow)) (by rw [kneg]; decide)
    · rintro rfl; exact le_rfl

end Sys2Proof.Machine
end

section
/-! PROOFS. What a step does to the whole state, who moves next, and which commands change the mode or start a session
(spec/10_state.md R27, R28, spec/20_memory.md R53 to R56, spec/44_session_control.md R129, R131). -/

namespace Sys2Proof.Machine

/-! ### What a step does to the whole state -/

/-- `s` with other values in the two scripts and the draw counter. -/
def State.setScripts (s : State) (turns : List Agent) (answers : List Word) (draws : Nat) : State :=
  s.setEnv { s.env with turns := turns, answers := answers, draws := draws }

/-- The step from `s` to `t`, one constructor for each thing that a step can do: what decided it, and the state it
gives. The environment differs from that of `s` in what is consumed only. -/
inductive StepResult (s t : State) : Prop where
  | reset (asserted : s.env.resetReq = true) (result : t = applyReset s)
  | waits (turns : List Agent) (draws : Nat) (calm : s.env.resetReq = false)
      (head : decode s.env.cmdIn = .incomplete) (result : t = s.setTurns turns draws)
  | illegal (d : IllegalDetail) (rest : List Word) (turns : List Agent) (draws : Nat) (calm : s.env.resetReq = false)
      (head : decode s.env.cmdIn = .illegal d rest)
      (result : t = failCommand (.illegalCommand d) ((s.setTurns turns draws).setCmdIn rest))
  | command (i : Instr) (rest : List Word) (turns : List Agent) (draws : Nat) (calm : s.env.resetReq = false)
      (head : decode s.env.cmdIn = .command i rest)
      (result : exec i ((s.setTurns turns draws).setCmdIn rest) = .next t)
  | endsStream (turns : List Agent) (draws : Nat) (calm : s.env.resetReq = false) (running : s.mode = .running)
      (stop : s.stopReq = true) (result : t = endStream (s.setTurns turns draws))
  | frame (answer : Word) (turns : List Agent) (answers : List Word) (draws : Nat) (calm : s.env.resetReq = false)
      (running : s.mode = .running) (noStop : s.stopReq = false)
      (result : t = Machine.frame answer (s.setScripts turns answers draws))

/-- A host step is a wait, an illegal command or a command, whatever turn has been drawn for it. -/
theorem stepResult_of_hostStep {s t : State} {turns : List Agent} {draws : Nat} (calm : s.env.resetReq = false)
    (h : hostStep (s.setTurns turns draws) = .next t) : StepResult s t := by
  rcases hostStep_cases (s.setTurns turns draws) with ⟨hd, hs⟩ | ⟨d, rest, hd, hs⟩ | ⟨i, rest, hd, hs⟩
  · rw [hs] at h
    exact .waits turns draws calm hd (by injection h with h; exact h.symm)
  · rw [hs] at h
    exact .illegal d rest turns draws calm hd (by injection h with h; exact h.symm)
  · exact .command i rest turns draws calm hd (hs ▸ h)

/-- An engine step is the end of the stream or a frame. -/
theorem stepResult_of_engineStep {s : State} (turns : List Agent) (draws : Nat) (calm : s.env.resetReq = false)
    (running : s.mode = .running) : StepResult s (engineStep (s.setTurns turns draws)) := by
  rcases engineStep_cases (s.setTurns turns draws) with ⟨hs, he⟩ | ⟨hs, answer, answers, draws', he⟩
  · exact .endsStream turns draws calm running hs he
  · exact .frame answer turns answers draws' calm running hs he

theorem stepResult_of_step {s t : State} (h : step s = .next t) : StepResult s t := by
  rcases step_cases s with ⟨hr, hs⟩ | ⟨hr, ⟨-, hs⟩ | ⟨hm, turns, draws, hs | hs⟩⟩ <;> rw [hs] at h
  · exact .reset hr (by injection h with h; exact h.symm)
  · exact stepResult_of_hostStep (turns := s.env.turns) (draws := s.env.draws) hr h
  · exact stepResult_of_hostStep hr h
  · injection h with h
    exact h ▸ stepResult_of_engineStep turns draws hr hm

/-! ### The agent that moves next -/

theorem drawTurn_of_turnGoesTo {s : State} {a : Agent} {e : Environment} (h : turnGoesTo a s.env e) :
    drawTurn s = (a, s.setEnv e) := by
  rcases h with ⟨hturns, he⟩ | ⟨hturns, hfree, he⟩
  · rw [drawTurn_scripted hturns, ← he]
  · rw [drawTurn_free hturns, ← he, hfree]
    cases a <;> rfl

/-- A turn consumes no command word. -/
theorem cmdIn_of_turnGoesTo {a : Agent} {e e' : Environment} (h : turnGoesTo a e e') : e'.cmdIn = e.cmdIn := by
  rcases h with ⟨-, he⟩ | ⟨-, -, he⟩ <;> rw [he]

theorem cmdIn_of_hostMoves {s : State} {e : Environment} (h : hostMoves s e) : e.cmdIn = s.env.cmdIn := by
  rcases h with ⟨-, ⟨-, rfl⟩ | ⟨-, hturn⟩⟩
  · rfl
  · exact cmdIn_of_turnGoesTo hturn

theorem step_of_hostMoves {s : State} {e : Environment} (h : hostMoves s e) : step s = hostStep (s.setEnv e) := by
  rcases h with ⟨hr, ⟨hm, rfl⟩ | ⟨hm, hturn⟩⟩
  · rw [show s.setEnv s.env = s from rfl]
    simp [step, machineStep, hr, hm]
  · simp [step, machineStep, hr, hm, drawTurn_of_turnGoesTo hturn]

theorem hostStep_of_command {s : State} {i : Instr} {rest : List Word}
    (h : decode s.env.cmdIn = .command i rest) : hostStep s = exec i (s.setCmdIn rest) := by
  unfold hostStep
  rw [h]

/-- Settles O7: the turn, if one is drawn, leaves the command stream to the host's step. -/
theorem stepRunsDecodedCommand : Obligations.StepRunsDecodedCommand := by
  intro s i rest e hmoves hdecode
  rw [step_of_hostMoves hmoves, hostStep_of_command (by simpa [cmdIn_of_hostMoves hmoves] using hdecode)]
  rfl

/-! ### The mode and the session under a command -/

/-- What a command may do to the mode and to the session, as R27 and R28 have it: only RUN changes the mode, in an IDLE
block with a session, and only SETUP starts a session. -/
structure ControlKept (i : Instr) (s t : State) : Prop where
  mode : t.mode = s.mode ∨ (i = .run ∧ s.mode = .idle ∧ s.sessionValid = true)
  session : t.sessionValid = true → s.sessionValid = true ∨ i = .setup

theorem ControlKept.same {i : Instr} {s t : State} (hm : t.mode = s.mode) (hv : t.sessionValid = s.sessionValid) :
    ControlKept i s t := ⟨.inl hm, fun h => .inl (hv ▸ h)⟩

theorem ControlKept.ended {i : Instr} {s t : State} (hm : t.mode = s.mode) (hv : t.sessionValid = false) :
    ControlKept i s t := ⟨.inl hm, fun h => absurd (hv.symm.trans h) Bool.false_ne_true⟩

/-- A failed check leaves both as they are. -/
theorem ControlKept.checked {i : Instr} {checks : List Check} {s t : State} {effect : State → State}
    (ht : Machine.checked checks s effect = .next t)
    (he : firstFailure checks = none → ControlKept i s (effect s)) : ControlKept i s t := by
  rcases checked_eq_next ht with ⟨st, -, rfl⟩ | ⟨hc, rfl⟩
  · exact .same rfl rfl
  · exact he hc

theorem controlKept_exec {i : Instr} {s t : State} (ht : exec i s = .next t) : ControlKept i s t := by
  cases i with
  | nop | rdcfg =>
    injection ht with ht
    exact ht ▸ .same rfl rfl
  | wrcfg r v =>
    rw [exec_wrcfg] at ht
    exact .checked ht fun _ => .ended rfl rfl
  | gen ch n =>
    obtain ⟨g, hg, -⟩ := generate_state ch n.toNat s
    rw [exec_gen] at ht
    exact .checked ht fun _ => .same (by simp [hg]) (by simp [hg])
  | release ch =>
    rw [exec_release] at ht
    exact .checked ht fun _ => .same (by simp) (by simp)
  | encode msg =>
    rw [exec_encode] at ht
    exact .checked ht fun _ => .ended rfl rfl
  | gate buf =>
    rw [exec_gate] at ht
    exact .checked ht fun _ => .same rfl rfl
  | mod buf =>
    obtain ⟨ph, hp, -⟩ := modulate_state buf s
    rw [exec_mod] at ht
    exact .checked ht fun _ => .same (by simp [hp]) (by simp [hp])
  | setup =>
    rw [exec_setup] at ht
    exact .checked ht fun _ => ⟨.inl rfl, fun _ => .inr rfl⟩
  | run =>
    rw [exec_run] at ht
    refine .checked ht fun hc => ?_
    obtain ⟨hm, hc⟩ := idle_of_firstFailure hc
    exact ⟨.inr ⟨rfl, hm, (session_of_firstFailure hc).1⟩, .inl⟩
  | stop =>
    injection ht with ht
    subst ht
    split <;> exact .same rfl rfl

/-! ### The mode and the session under a frame -/

theorem frame_mode (answer : Word) (s : State) : (frame answer s).mode = s.mode := by
  obtain ⟨tone, carrier, cw, modu, y, hf, -⟩ := frame_spec answer s
  rw [hf]

theorem frame_sessionValid (answer : Word) (s : State) : (frame answer s).sessionValid = s.sessionValid := by
  obtain ⟨tone, carrier, cw, modu, y, hf, -⟩ := frame_spec answer s
  rw [hf]

/-! ### The obligations -/

/-- Settles O56: a reset and the end of the stream leave no session, a wait, an illegal command and a frame keep what
there is, and of the commands only SETUP starts one. -/
theorem onlySetupStartsASession : Obligations.OnlySetupStartsASession := by
  intro s t hs ht hv
  cases stepResult_of_step ht with
  | reset _ ht => rw [ht] at hv; cases hv
  | waits _ _ _ _ ht => rw [ht] at hv; exact absurd (hs.symm.trans hv) Bool.false_ne_true
  | illegal _ _ _ _ _ _ ht => rw [ht] at hv; exact absurd (hs.symm.trans hv) Bool.false_ne_true
  | command i rest _ _ hr hd ht =>
    rcases (controlKept_exec ht).session hv with hv | rfl
    · exact absurd (hs.symm.trans hv) Bool.false_ne_true
    · exact ⟨rest, hd, hr⟩
  | endsStream _ _ _ _ _ ht => rw [ht] at hv; cases hv
  | frame answer _ _ _ _ _ _ ht =>
    rw [ht, frame_sessionValid] at hv
    exact absurd (hs.symm.trans hv) Bool.false_ne_true

/-- Settles O57: of the commands only RUN changes the mode, and of the engine's steps only the end of the stream. -/
theorem modeChangesOnlyByRunStopAndReset : Obligations.ModeChangesOnlyByRunStopAndReset := by
  intro s t ht hr
  have kept : t.mode = s.mode →
      (s.mode = .idle → t.mode = .running →
        s.sessionValid = true ∧ ∃ rest, decode s.env.cmdIn = .command .run rest) ∧
      (s.mode = .running → t.mode = .idle → s.stopReq = true ∧ t.sessionValid = false) := by
    intro hm
    rw [hm]
    constructor <;> · intro h h'; rw [h] at h'; cases h'
  cases stepResult_of_step ht with
  | reset hreset _ => exact absurd (hr.symm.trans hreset) Bool.false_ne_true
  | waits _ _ _ _ ht => exact kept (ht ▸ rfl)
  | illegal _ _ _ _ _ _ ht => exact kept (ht ▸ rfl)
  | command i rest _ _ _ hd ht =>
    rcases (controlKept_exec ht).mode with hm | ⟨rfl, hidle, hv⟩
    · exact kept hm
    · refine ⟨fun _ _ => ⟨hv, rest, hd⟩, fun hm => ?_⟩
      cases hm.symm.trans hidle
  | endsStream _ _ _ hm hstop ht =>
    refine ⟨fun hidle => ?_, fun _ _ => ⟨hstop, ht ▸ rfl⟩⟩
    rw [hm] at hidle
    cases hidle
  | frame answer _ _ _ _ _ _ ht => exact kept (by rw [ht, frame_mode]; rfl)

end Sys2Proof.Machine
end

section
/-! PROOFS. The block's invariant (spec/10_state.md R30, R33, R35, R37, spec/44_session_control.md R128): it holds after
reset, the inputs keep it, and every step keeps it. Each part of a step has its own lemma `Inv.<operation>`; the
commands and the engine are assembled from them. -/

namespace Sys2Proof.Machine

/-! ### The invariant under the parts of a command -/

/-- R35, R37: at the start of any pattern that lies within the capacity. -/
theorem PatternOk.atStart {hw : Params} {p : MorsePattern} {c : CWState}
    (capacity : p.len.toNat ≤ hw.patternCapacity.toNat) (size : p.slots.length ≤ hw.patternCapacity.toNat)
    (written : p.len.toNat ≤ p.slots.length) (index : c.index = 0) (count : c.count = 0) : PatternOk hw p c :=
  ⟨capacity, size, written, fun hp => by simpa [index] using hp, fun _ => index, by simp [count]⟩

/-- Without a session an IDLE block owes nothing to its configuration. -/
theorem Inv.ofNoSession {s : State} (params : LegalParams s.hw) (channels : ∀ ch, ChannelOk s.hw (s.chan ch))
    (pattern : PatternOk s.hw s.pat s.cw) (mode : s.mode = .idle) (stopReq : s.stopReq = false)
    (session : s.sessionValid = false) (bytes : s.env.rxBytes.length < 4) : Inv s where
  params := params
  tone := channels .tone
  carrier := channels .carrier
  pattern := pattern
  running := fun hr => by rw [mode] at hr; cases hr
  stopping := fun hs => by rw [stopReq] at hs; cases hs
  session := fun hv => by rw [session] at hv; cases hv
  bytes := bytes

/-- R30: RUNNING in a session only, and a stop request while RUNNING only. -/
theorem Inv.setControl {s : State} (h : Inv s) (m : Mode) (stop : Bool)
    (hm : m = .running → s.sessionValid = true) (hs : stop = true → m = .running) :
    Inv ((s.setMode m).setStopReq stop) :=
  ⟨h.params, h.tone, h.carrier, h.pattern, hm, hs, fun hv => (h.session hv).congr rfl rfl rfl rfl rfl
    ((h.session hv).period .tone) ((h.session hv).period .carrier), h.bytes⟩

theorem Inv.setCounters {s : State} (h : Inv s) (frames errs : Word) : Inv (s.setCounters frames errs) :=
  ⟨h.params, h.tone, h.carrier, h.pattern, h.running, h.stopping, fun hv => (h.session hv).congr rfl rfl rfl rfl rfl
    ((h.session hv).period .tone) ((h.session hv).period .carrier), h.bytes⟩

theorem Inv.setTurns {s : State} (h : Inv s) (turns : List Agent) (draws : Nat) : Inv (s.setTurns turns draws) :=
  h.setEnv _ h.bytes

theorem Inv.setScripts {s : State} (h : Inv s) (turns : List Agent) (answers : List Word) (draws : Nat) :
    Inv (s.setScripts turns answers draws) := h.setEnv _ h.bytes

theorem Inv.setCmdIn {s : State} (h : Inv s) (ws : List Word) : Inv (s.setCmdIn ws) := h.setEnv _ h.bytes

theorem Inv.writeCfg {s : State} (h : Inv s) (hm : s.mode = .idle) (c : CfgRegs) :
    Inv ((s.setCfg c).setSessionValid false) :=
  .ofNoSession h.params h.chanOk h.pattern hm (h.stopReq_of_idle hm) rfl h.bytes

/-- R87: a channel that is not built meets R33 whatever the session. -/
theorem Inv.release {s : State} (h : Inv s) (ch : Channel) : Inv (s.setChan ch (s.chan ch).released) :=
  h.setChan ch _ (h.chanOk ch).released fun _ hb => by cases hb

theorem chan_releaseBoth (s : State) (ch : Channel) : s.releaseBoth.chan ch = (s.chan ch).released := by
  cases ch <;> rfl

/-- R98: the pattern of ENCODE lies within the capacity, and its slots have been written. -/
theorem PatternOk.encoded {hw : Params} {p : MorsePattern} {c : CWState} (h : PatternOk hw p c) (slots : List Bool)
    (pad : Nat) : PatternOk hw (encodedPattern hw.patternCapacity.toNat slots pad p) c.restarted := by
  have hlen := encodedPattern_len hw.patternCapacity slots pad p
  have hslots : (encodedPattern hw.patternCapacity.toNat slots pad p).slots.length =
      max (min hw.patternCapacity.toNat (slots.length + pad)) p.slots.length := by
    rw [encodedPattern, writePrefix_length, writtenSlots_length]
  have hold := h.size
  exact .atStart (by omega) (by omega) (by omega) rfl rfl

theorem Inv.encode {s : State} (h : Inv s) (hm : s.mode = .idle) (msg : List Byte) :
    Inv (((s.setPat (patternAfter msg s)).setCw s.cw.restarted).setSessionValid false) :=
  .ofNoSession h.params h.chanOk (h.pattern.encoded _ _) hm (h.stopReq_of_idle hm) rfl h.bytes

/-- R84: building and advancing keep R33, and a build takes the session's period. -/
theorem Inv.generate {s : State} (h : Inv s) (hv : s.sessionValid = true) (ch : Channel) (n : Nat) :
    Inv (Machine.generate ch n s).2 := by
  by_cases hn : n = 0
  · rw [hn, generate_zero]; exact h
  · obtain ⟨hok, hperiod⟩ := h.builtState hv ch
    rw [generate_pos ch hn]
    exact h.setChan ch _ (hok.advance (builtState_built _ _ _ _) n) fun _ _ => hperiod

theorem Inv.gateSamples {s : State} (h : Inv s) (buf : List Sample) : Inv (Machine.gateSamples buf s).2 := by
  rw [gateSamples_eq]
  exact h.setCw _ (h.pattern.foldl buf) (foldl_gateNext_ditLen _ _ _ _)

theorem Inv.modulate {s : State} (h : Inv s) (buf : List (Sample × Sample)) : Inv (Machine.modulate buf s).2 := by
  obtain ⟨ph, hp, -⟩ := modulate_state buf s
  rw [hp]
  exact h.setPhase ph

theorem startSession_modu (s : State) : (Machine.startSession s).modu = sessionModulator s.hw s.cfg := rfl

theorem startSession_cw (s : State) : (Machine.startSession s).cw = ⟨0, true, 0, sessionDitLen s.cfg⟩ := rfl

theorem startSession_chan (s : State) (ch : Channel) : (Machine.startSession s).chan ch = (s.chan ch).released := by
  cases ch <;> rfl

/-- R128: what SETUP derives from the configuration is what a session guarantees. -/
theorem sessionOk_startSession {s : State} (hc : ConfigOk s.hw s.cfg) : SessionOk (Machine.startSession s) where
  config := hc
  ditLen := by rw [startSession_cw]; rfl
  pilot := by rw [startSession_modu]; rfl
  fmK := by rw [startSession_modu]; rfl
  period := fun ch hb => by rw [startSession_chan] at hb; cases hb

theorem Inv.startSession {s : State} (h : Inv s) (hc : ConfigOk s.hw s.cfg) : Inv (Machine.startSession s) where
  params := h.params
  tone := h.tone.released
  carrier := h.carrier.released
  pattern := .atStart h.pattern.capacity h.pattern.size h.pattern.written rfl rfl
  running := fun _ => rfl
  stopping := h.stopping
  session := fun _ => sessionOk_startSession hc
  bytes := h.bytes

/-- R131: the end of the stream. -/
theorem Inv.endStream {s : State} (h : Inv s) : Inv (Machine.endStream s) :=
  .ofNoSession h.params (fun ch => (chan_releaseBoth s ch) ▸ (h.chanOk ch).released) h.pattern rfl rfl rfl h.bytes

/-! ### Every command, every frame, every step -/

/-- A command that fails a check changes the status only; one that passes owes the invariant of its effect. -/
theorem Inv.checked {checks : List Check} {s t : State} {effect : State → State} (h : Inv s)
    (ht : Machine.checked checks s effect = .next t) (he : firstFailure checks = none → Inv (effect s)) : Inv t := by
  rcases checked_eq_next ht with ⟨st, -, rfl⟩ | ⟨hc, rfl⟩
  · exact h.complete st []
  · exact he hc

theorem Inv.exec {i : Instr} {s t : State} (h : Inv s) (ht : Machine.exec i s = .next t) : Inv t := by
  cases i with
  | nop =>
    injection ht with ht
    exact ht ▸ h.complete _ _
  | wrcfg r v =>
    rw [exec_wrcfg] at ht
    exact h.checked ht fun hc => (h.writeCfg (idle_of_firstFailure hc).1 _).complete _ _
  | rdcfg r =>
    injection ht with ht
    exact ht ▸ h.complete _ _
  | gen ch n =>
    rw [exec_gen] at ht
    refine h.checked ht fun hc => ?_
    obtain ⟨-, hc⟩ := idle_of_firstFailure hc
    exact (h.generate (session_of_firstFailure hc).1 ch n.toNat).complete _ _
  | release ch =>
    rw [exec_release] at ht
    exact h.checked ht fun _ => (h.release ch).complete _ _
  | encode msg =>
    rw [exec_encode] at ht
    exact h.checked ht fun hc => (h.encode (idle_of_firstFailure hc).1 msg).complete _ _
  | gate buf =>
    rw [exec_gate] at ht
    exact h.checked ht fun _ => (h.gateSamples buf).complete _ _
  | mod buf =>
    rw [exec_mod] at ht
    exact h.checked ht fun _ => (h.modulate buf).complete _ _
  | setup =>
    rw [exec_setup] at ht
    exact h.checked ht fun hc => (h.startSession (idle_of_firstFailure hc).2).complete _ _
  | run =>
    rw [exec_run] at ht
    refine h.checked ht fun hc => ?_
    obtain ⟨-, hc⟩ := idle_of_firstFailure hc
    exact (h.setControl .running false (fun _ => (session_of_firstFailure hc).1) fun hf => by cases hf).complete _ _
  | stop =>
    injection ht with ht
    subst ht
    split
    next hm => exact (h.setControl s.mode true h.running fun _ => hm).complete _ _
    next => exact h.complete _ _

/-- R126: a frame generates, generates, gates and modulates. -/
theorem Inv.frameSamples {s : State} (h : Inv s) (hv : s.sessionValid = true) : Inv (Machine.frameSamples s).2 := by
  have hc := h.generate hv .carrier s.cfg.bufLen.toNat
  obtain ⟨g, hg, -⟩ := generate_state .carrier s.cfg.bufLen.toNat s
  have hv' : (Machine.generate .carrier s.cfg.bufLen.toNat s).2.sessionValid = true := by rw [hg]; exact hv
  exact ((hc.generate hv' .tone _).gateSamples _).modulate _

theorem Inv.sinkWrite {s : State} (h : Inv s) (y : List Sample) : Inv (s.sinkWrite y) := h.setEnv _ h.bytes

theorem Inv.frame {s : State} (h : Inv s) (hv : s.sessionValid = true) (answer : Word) :
    Inv (Machine.frame answer s) := by
  unfold Machine.frame
  exact ((h.frameSamples hv).sinkWrite _).setCounters _ _

/-- Every state element at its reset value, in any legal build. -/
theorem inv_resetValues {hw : Params} (params : LegalParams hw) {e : Environment} (bytes : e.rxBytes.length < 4) :
    Inv { State.reset with hw := hw, env := e } :=
  .ofNoSession params (fun ch => by cases ch <;> exact .empty hw)
    (.atStart (Nat.zero_le _) (Nat.zero_le _) (Nat.zero_le _) rfl rfl) rfl rfl rfl bytes

theorem Inv.applyReset {s : State} (h : Inv s) : Inv (Machine.applyReset s) :=
  inv_resetValues h.params (by decide : ([] : List Byte).length < 4)

/-! ### The obligations -/

/-- Settles O14: by the kinds of step; R30 gives the engine the session that its frame needs. -/
theorem stepKeepsInvariant : Obligations.StepKeepsInvariant := by
  intro s t h ht
  cases stepResult_of_step ht with
  | reset _ ht => exact ht ▸ h.applyReset
  | waits turns draws _ _ ht => exact ht ▸ h.setTurns turns draws
  | illegal d rest turns draws _ _ ht => exact ht ▸ ((h.setTurns turns draws).setCmdIn rest).complete _ _
  | command i rest turns draws _ _ ht => exact ((h.setTurns turns draws).setCmdIn rest).exec ht
  | endsStream turns draws _ _ _ ht => exact ht ▸ (h.setTurns turns draws).endStream
  | frame answer turns answers draws _ hm _ ht =>
    exact ht ▸ (h.setScripts turns answers draws).frame (h.running hm) answer

/-- Settles O15: the inputs touch the environment only, and grouping bytes leaves at most three of them. -/
theorem inputsKeepInvariant : Obligations.InputsKeepInvariant := fun _ h =>
  ⟨fun _ => h.setEnv _ h.bytes, fun _ => h.setEnv _ (groupBytes_rest_length _), h.setEnv _ h.bytes,
    fun _ _ => h.setEnv _ h.bytes⟩

/-- Settles O13: the reference build is legal. -/
theorem resetKeepsInvariant : Obligations.ResetKeepsInvariant :=
  inv_resetValues (hw := .reference) (e := .quiet) ⟨by decide, by decide, by decide, by decide⟩ (by decide)

/-- Settles O11: each clause is a field of `State.reset`. -/
theorem resetValues : Obligations.ResetValues := by
  refine ⟨⟨rfl, rfl, rfl, fun r => ?_, fun ch => ?_, rfl, rfl, rfl, rfl, rfl, rfl, rfl, rfl, rfl, rfl, rfl, rfl, rfl⟩,
    rfl, rfl⟩
  · cases r <;> rfl
  · cases ch <;> exact ⟨rfl, rfl, rfl⟩

end Sys2Proof.Machine
end

section
/-! PROOFS. RDCFG and the register map (spec/10_state.md R31, R41, R42), and GEN in a session
(spec/40_sample_generation.md R83, R84, R86). -/

namespace Sys2Proof.Machine

theorem complete_ok_eq_answered (payload : List Word) (s : State) :
    complete .ok payload s = answered 0 0 (0 :: payload) s := rfl

/-! ### Registers -/

/-- The words of an RDCFG decode to it, for every register of the map. -/
theorem decodeCommand_rdcfg (r : ReadReg) : decodeCommand (header 0x02 (readSel r)) 0 [] = .ok (.rdcfg r) := by
  simp only [decodeCommand, opcField_header, selField_header, rsvField_header, readOfSel_readSel]
  rfl

/-- The registers in the order of the register map, STATUS left out. -/
def mappedRegs : List ReadReg :=
  [ .cfg .sampleRate, .cfg .toneFreq, .cfg .carrierFreq, .cfg .modKind, .cfg .modIndex, .cfg .wpm, .cfg .padding
  , .cfg .bufLen, .patLen, .ditLen, .cwIndex, .cwCount, .cwGate, .toneL, .toneCursor, .carrierL, .carrierCursor
  , .pilot, .fmK, .fmPhase, .frameCount, .sinkErrCount, .capTable, .capPattern, .capBuf, .zcEps ]

theorem registerMap_eq (s : State) : registerMap s = mappedRegs.map fun r => (readSel r, readReg s r) := rfl

/-- Settles O18: each row of the map is a register's selector and what it reads. -/
theorem rdcfgReadsRegisterMap : Obligations.RdcfgReadsRegisterMap := by
  intro s sel v h
  rw [registerMap_eq, List.mem_map] at h
  obtain ⟨r, -, hr⟩ := h
  injection hr with hsel hv
  subst hsel hv
  exact ⟨r, decodeCommand_rdcfg r, exec_rdcfg s r⟩

/-- Bits 7 to 0 of STATUS (R41). -/
def statusFlags (s : State) : BitVec 8 :=
  (0 : BitVec 1) ++ BitVec.ofBool s.pat.trunc ++ BitVec.ofBool s.hw.hasFm ++ BitVec.ofBool s.carrier.built
    ++ BitVec.ofBool s.tone.built ++ BitVec.ofBool s.sessionValid ++ BitVec.ofBool s.stopReq
    ++ BitVec.ofBool (s.mode == .running)

/-- STATUS is four bytes: the flags, LAST_ERR, LAST_DETAIL and a reserved one. -/
theorem statusRegister_eq_bytes (s : State) :
    statusRegister s = wordOfBytes (statusFlags s) s.lastErr s.lastDetail 0 := by
  apply BitVec.eq_of_toNat_eq
  simp only [statusRegister, wordOfBytes, statusFlags, toNat_append_add]
  omega

theorem statusRegister_bytes (s : State) :
    (statusRegister s).extractLsb' 8 8 = s.lastErr ∧ (statusRegister s).extractLsb' 16 8 = s.lastDetail ∧
      (statusRegister s).extractLsb' 24 8 = 0 := by
  have h : bytesOfWord (statusRegister s) = [statusFlags s, s.lastErr, s.lastDetail, 0] := by
    rw [statusRegister_eq_bytes, bytesOfWord_wordOfBytes]
  simp only [bytesOfWord, List.cons.injEq] at h
  obtain ⟨-, herr, hdetail, hzero, -⟩ := h
  exact ⟨herr, hdetail, hzero⟩

/-- Settles O19: STATUS is its fields appended, and no writable register has its selector. -/
theorem statusRegisterFields : Obligations.StatusRegisterFields := by
  refine ⟨fun v => rfl, rfl, fun s => ⟨statusRegister s, rfl, exec_rdcfg s .status, ?_⟩⟩
  refine ⟨?_, ?_, ?_, ?_, ?_, ?_, ?_, ?_, statusRegister_bytes s⟩
  all_goals
    simp only [statusRegister, BitVec.getLsbD_append]
    simp

/-! ### GEN -/

/-- R84, R86, R90: what GEN answers and leaves in a session, on the channel that `generate` reads from. -/
theorem exec_gen_of_session {s : State} (h : Inv s) (hm : s.mode = .idle) (hv : s.sessionValid = true) (ch : Channel)
    {n : Word} (hmax : n.toNat ≤ s.hw.bufMax.toNat) (hn : n ≠ 0) {g : GeneratorState}
    (hg : builtState s.hw s.cfg ch (s.chan ch) = g) :
    exec (.gen ch n) s = .next (answered 0 0
      (0 :: (List.range n.toNat).flatMap fun j =>
        wordsOf (trigRom s.hw.trig g.len.toNat ((g.cursor.toNat + j) % g.len.toNat)))
      (s.setChan ch (advanceCursor g n.toNat))) := by
  have hb : g.built = true := hg ▸ builtState_built _ _ _ _
  have hok : ChannelOk s.hw g := hg ▸ (h.builtState hv ch).1
  have hpos : 0 < g.len.toNat := lt_of_lt_of_le (by decide) (hok.long hb)
  have hsamples : bufferWords (channelSamples ch g n.toNat) = (List.range n.toNat).flatMap fun j =>
      wordsOf (trigRom s.hw.trig g.len.toNat ((g.cursor.toNat + j) % g.len.toNat)) := by
    rw [bufferWords, channelSamples, List.flatMap_map]
    refine List.flatMap_congr fun j _ => ?_
    rw [pbRead_of_ok hok hb ch (Nat.mod_lt _ hpos)]
    rfl
  have hn' : n.toNat ≠ 0 := fun h0 => hn (BitVec.eq_of_toNat_eq h0)
  rw [exec_gen, checked_count hm hv hmax, generate_pos ch hn', hg, hsamples, complete_ok_eq_answered]

/-- Settles O30: on first use the channel read from is the one just built, with its cursor at slot 0. -/
theorem genBuildsOnFirstUse : Obligations.GenBuildsOnFirstUse := by
  intro ch n s h hm hv hmax hn hb
  obtain ⟨l, hl, h2, -, hbuilt, hlen, hcur, hslots, hbeyond, -⟩ :=
    build_spec (s.chan ch) ((h.session hv).config.table ch)
  have hg : builtState s.hw s.cfg ch (s.chan ch) = build s.hw s.cfg ch (s.chan ch) := by simp [builtState, hb]
  refine ⟨advanceCursor (build s.hw s.cfg ch (s.chan ch)) n.toNat, l, ?_, hbuilt, hlen, ?_, hslots, hbeyond, ?_⟩
  · rw [hl]
    cases ch <;> rfl
  · rw [advanceCursor_cursor _ _ (by omega), hcur, hlen]
    simp
  · rw [exec_gen_of_session h hm hv ch hmax hn hg, hlen, hcur]
    simp

end Sys2Proof.Machine
end

section
/-! PROOFS. The command stream as bytes, and what the steps leave alone: a waiting command, the configuration and the
tables of a RUNNING block, and the streams (spec/20_memory.md R46, R49, R52, R55, R59,
spec/70_reset_and_hazards.md R157, R165). -/

namespace Sys2Proof.Machine

/-! ### Bytes and the command stream -/

theorem sendBytes_words {s : State} (h : s.env.rxBytes = []) (ws : List Word) :
    sendBytes (ws.flatMap bytesOfWord) s = sendWords ws s := by
  simp only [sendBytes, sendWords, State.setCmdIn, h, List.nil_append, groupBytes_words]

theorem sendBytes_append (a b : List Byte) (s : State) : sendBytes (a ++ b) s = sendBytes b (sendBytes a s) := by
  simp only [sendBytes, ← List.append_assoc, groupBytes_append (s.env.rxBytes ++ a) b]
  rfl

/-- Settles O6: the four bytes listed for a word are `bytesOfWord`, and grouping carries its rest over a cut. -/
theorem byteTransportCarriesWords : Obligations.ByteTransportCarriesWords :=
  ⟨fun ws _ h => sendBytes_words h ws, sendBytes_append⟩

/-! ### A waiting command -/

theorem hostStep_of_incomplete {s : State} (h : decode s.env.cmdIn = .incomplete) : hostStep s = .next s := by
  unfold hostStep
  rw [h]

/-- Settles O9: the turn, if one is drawn, leaves the command stream as it is. -/
theorem incompleteCommandWaits : Obligations.IncompleteCommandWaits := by
  intro s e hmoves hdecode
  rw [step_of_hostMoves hmoves, hostStep_of_incomplete (by simpa [cmdIn_of_hostMoves hmoves] using hdecode)]
  rfl

/-! ### What a RUNNING block keeps -/

/-- R127, R130, R136, R138: under every command a RUNNING block changes its stop request at most, and answers. -/
theorem exec_running {s : State} (h : s.mode = .running) (i : Instr) :
    ∃ st payload stop, exec i s = .next (complete st payload (s.setStopReq stop)) := by
  have busy : ∀ (cs : List Check) (effect : State → State), ∃ st payload stop,
      checked (idleCheck s :: cs) s effect = .next (complete st payload (s.setStopReq stop)) :=
    fun cs effect => ⟨.busy, [], s.stopReq, checked_busy h cs effect⟩
  cases i with
  | nop => exact ⟨.ok, [], s.stopReq, exec_nop s⟩
  | rdcfg r => exact ⟨.ok, [readReg s r], s.stopReq, exec_rdcfg s r⟩
  | stop => exact ⟨.ok, [], true, by rw [exec_stop, if_pos h]⟩
  | wrcfg | gen | release | encode | gate | mod | setup | run =>
    simp only [exec_wrcfg, exec_gen, exec_release, exec_encode, exec_gate, exec_mod, exec_setup, exec_run]
    exact busy _ _

/-- Settles O58: commands and waits leave the tables alone, a frame generates from built channels without rebuilding
them, and the end of the stream, which releases them, leaves the block IDLE. -/
theorem runningFreezesConfigurationAndPattern : Obligations.RunningFreezesConfigurationAndPattern := by
  intro s t hm hr ht
  cases stepResult_of_step ht with
  | reset hreset _ => exact absurd (hr.symm.trans hreset) Bool.false_ne_true
  | waits _ _ _ _ ht =>
    subst ht
    exact ⟨rfl, rfl, rfl, fun _ _ hb => ⟨hb, rfl, rfl⟩⟩
  | illegal _ _ _ _ _ _ ht =>
    subst ht
    exact ⟨rfl, rfl, rfl, fun _ _ hb => ⟨hb, rfl, rfl⟩⟩
  | command i rest turns draws _ _ ht =>
    obtain ⟨st, payload, stop, he⟩ := exec_running (s := (s.setTurns turns draws).setCmdIn rest) hm i
    rw [he] at ht
    injection ht with ht
    subst ht
    exact ⟨rfl, rfl, rfl, fun _ _ hb => ⟨hb, rfl, rfl⟩⟩
  | endsStream _ _ _ _ _ ht =>
    subst ht
    exact ⟨rfl, rfl, rfl, fun hrun => by cases hrun⟩
  | frame answer turns answers draws _ _ _ ht =>
    obtain ⟨tone, carrier, cw, modu, y, hf, -, hdit, -, -, -, hcarrier, htone⟩ :=
      frame_spec answer (s.setScripts turns answers draws)
    rw [hf] at ht
    subst ht
    refine ⟨rfl, rfl, hdit, fun _ ch => ?_⟩
    cases ch with
    | tone => exact htone
    | carrier => exact hcarrier

/-! ### The streams -/

/-- From `s` to `t` the response stream or the sink stream grows, never both, the sink's by one frame at most. -/
def StreamsGrow (s t : State) : Prop :=
  ∃ (resp : List Word) (sent : List (List Sample)),
    t.env.responses = s.env.responses ++ resp ∧ t.env.sinkWrites = s.env.sinkWrites ++ sent ∧
      (resp = [] ∨ sent = []) ∧ sent.length ≤ 1

theorem StreamsGrow.answer {s t : State} (resp : List Word) (hr : t.env.responses = s.env.responses ++ resp)
    (hw : t.env.sinkWrites = s.env.sinkWrites) : StreamsGrow s t :=
  ⟨resp, [], hr, by rw [hw, List.append_nil], .inr rfl, Nat.zero_le 1⟩

theorem StreamsGrow.same {s t : State} (hr : t.env.responses = s.env.responses)
    (hw : t.env.sinkWrites = s.env.sinkWrites) : StreamsGrow s t :=
  .answer [] (by rw [hr, List.append_nil]) hw

theorem StreamsGrow.frame {s t : State} (y : List Sample) (hr : t.env.responses = s.env.responses)
    (hw : t.env.sinkWrites = s.env.sinkWrites ++ [y]) : StreamsGrow s t :=
  ⟨[], [y], by rw [hr, List.append_nil], hw, .inl rfl, Nat.le_refl 1⟩

/-- A command answers its status word and a payload, and writes nothing to the sink. -/
theorem streamsGrow_exec {i : Instr} {s t : State} (ht : exec i s = .next t) : t.hw = s.hw ∧ StreamsGrow s t := by
  rcases exec_cases s i with ⟨st, -, he⟩ | ⟨payload, u, henv, hhw, he⟩ <;> rw [he] at ht <;> cases ht
  · exact ⟨rfl, .answer [statusWord st] rfl rfl⟩
  · exact ⟨hhw, .answer (statusWord .ok :: payload) (by simp [henv]) (by simp [henv])⟩

/-- Settles O59: a host step at most answers, a frame writes its samples to the sink, and the other steps leave both
streams as they are. -/
theorem streamsOnlyGrow : Obligations.StreamsOnlyGrow := by
  intro s t ht
  change t.hw = s.hw ∧ StreamsGrow s t
  cases stepResult_of_step ht with
  | reset _ ht =>
    subst ht
    exact ⟨rfl, .same rfl rfl⟩
  | waits _ _ _ _ ht =>
    subst ht
    exact ⟨rfl, .same rfl rfl⟩
  | illegal d _ _ _ _ _ ht =>
    subst ht
    exact ⟨rfl, .answer [statusWord (.illegalCommand d)] rfl rfl⟩
  | command _ _ _ _ _ _ ht => exact (streamsGrow_exec ht :)
  | endsStream _ _ _ _ _ ht =>
    subst ht
    exact ⟨rfl, .same rfl rfl⟩
  | frame answer turns answers draws _ _ _ ht =>
    obtain ⟨tone, carrier, cw, modu, y, hf, -⟩ := frame_spec answer (s.setScripts turns answers draws)
    rw [hf] at ht
    subst ht
    exact ⟨rfl, .frame y rfl rfl⟩

end Sys2Proof.Machine
end

section
/-! PROOFS. The decoder and the encoder (spec/30_encoding.md R62 to R69, R74): the checks of the decoder and the command
they let through, that an instruction's words decode to it, and that a decoded command's words are its encoding. -/

namespace Sys2Proof.Machine

/-! ### The checks in order -/

/-- A selector that must be 0 (R67), read as one that names something, as the other selectors do. -/
def zeroSel (sel : BitVec 8) : Option Unit := if sel = 0 then some () else none

/-- The command that an opcode and a selector name, if they name one, with the operands it then has (R66, R67). -/
def selected (opc : Nat) (sel : BitVec 8) (w1 : Word) (payload : List Word) : Option Instr :=
  match opc with
  | 0x00 => (zeroSel sel).map fun _ => .nop
  | 0x01 => (cfgOfSel sel).map fun r => .wrcfg r w1
  | 0x02 => (readOfSel sel).map .rdcfg
  | 0x03 => (channelOfSel sel).map fun ch => .gen ch w1
  | 0x04 => (channelOfSel sel).map .release
  | 0x05 => (zeroSel sel).map fun _ => .encode (messageBytes w1.toNat payload)
  | 0x06 => (zeroSel sel).map fun _ => .gate (samplesOfWords payload)
  | 0x07 => (zeroSel sel).map fun _ => .mod (pairsOfWords payload)
  | 0x08 => (zeroSel sel).map fun _ => .setup
  | 0x09 => (zeroSel sel).map fun _ => .run
  | 0x0A => (zeroSel sel).map fun _ => .stop
  | _ => none

@[simp] theorem zeroSel_zero : zeroSel 0#8 = some () := rfl

theorem demand_selector_eq_named (sel : BitVec 8) : demand (sel == 0) .selector = named (zeroSel sel) := by
  by_cases h : sel = 0
  · subst h
    rfl
  · rw [beq_false_of_ne h, zeroSel, if_neg h]
    rfl

theorem named_bind_eq_elim {α β : Type} (found : Option α) (k : α → Except IllegalDetail β) :
    (named found >>= k) = found.elim (.error .selector) k := by
  cases found <;> rfl

/-- The decoder, its four checks one after the other. -/
theorem decodeCommand_eq (w0 w1 : Word) (payload : List Word) :
    decodeCommand w0 w1 payload =
      if (opcField w0).toNat ≤ 0x0A then
        if rsvField w0 = 0 then
          (selected (opcField w0).toNat (selField w0) w1 payload).elim (.error .selector) fun i =>
            if zeroOperand (opcField w0).toNat = true → w1 = 0 then .ok i else .error .operand
        else .error .reservedBits
      else .error .opcode := by
  simp only [decodeCommand, bare, demand_selector_eq_named, named_bind_eq_elim, demand_bind, decide_eq_true_eq,
    beq_iff_eq, pure, Except.pure]
  by_cases hopc : (opcField w0).toNat ≤ 0x0A
  · rw [if_pos hopc, if_pos hopc]
    congr 1
    generalize (opcField w0).toNat = opc at hopc
    interval_cases opc <;> simp [selected, zeroOperand, Function.comp_def]
  · rw [if_neg hopc, if_neg hopc]

theorem zeroSel_isSome (sel : BitVec 8) : (zeroSel sel).isSome = decide (sel.toNat = 0) := by
  revert sel
  decide +kernel

theorem cfgOfSel_isSome (sel : BitVec 8) : (cfgOfSel sel).isSome = decide (sel.toNat ≤ 7) := by
  revert sel
  decide +kernel

theorem readOfSel_isSome (sel : BitVec 8) : (readOfSel sel).isSome = legalSelector 2 sel.toNat := by
  revert sel
  decide +kernel

theorem channelOfSel_isSome (sel : BitVec 8) : (channelOfSel sel).isSome = decide (sel.toNat ≤ 1) := by
  revert sel
  decide +kernel

/-- R67: the selectors that name a command of a defined opcode are the legal ones. -/
theorem selected_isSome {opc : Nat} (h : opc ≤ 0x0A) (sel : BitVec 8) (w1 : Word) (payload : List Word) :
    (selected opc sel w1 payload).isSome = legalSelector opc sel.toNat := by
  match opc, h with
  | 1, _ => rw [selected, Option.isSome_map, cfgOfSel_isSome]; rfl
  | 2, _ => rw [selected, Option.isSome_map, readOfSel_isSome]
  | 3, _ | 4, _ => rw [selected, Option.isSome_map, channelOfSel_isSome]; rfl
  | 0, _ | 5, _ | 6, _ | 7, _ | 8, _ | 9, _ | 10, _ => rw [selected, Option.isSome_map, zeroSel_isSome]; rfl
  | n + 11, h => omega

/-- Settles O4: each clause is one branch of `decodeCommand_eq`, on the fields as numbers. -/
theorem decodeChecksInOrder : Obligations.DecodeChecksInOrder := by
  intro w0 w1 payload opc sel rsv
  have hopc : (opcField w0).toNat = opc := opcField_toNat w0
  have hsel : (selField w0).toNat = sel := selField_toNat w0
  have hrsv : rsvField w0 = 0 ↔ rsv = 0 := by
    rw [← BitVec.toNat_inj, rsvField_toNat]
    rfl
  have hlegal (h : opc ≤ 0x0A) := hsel ▸ selected_isSome h (selField w0) w1 payload
  simp only [decodeCommand_eq, hopc, hrsv]
  refine ⟨fun h => ?_, fun h hr => ?_, fun h hr hs => ?_, fun h hr hs hz hw => ?_, fun h hr hs hz => ?_⟩
  · rw [if_neg (Nat.not_le.mpr h)]
  · rw [if_pos h, if_neg hr]
  · have hnone : selected opc (selField w0) w1 payload = none := by simpa [hs] using hlegal h
    rw [if_pos h, if_pos hr, hnone, Option.elim_none]
  · obtain ⟨i, hi⟩ := Option.isSome_iff_exists.mp ((hlegal h).trans hs)
    rw [if_pos h, if_pos hr, hi, Option.elim_some, if_neg fun himp => hw (himp hz)]
  · obtain ⟨i, hi⟩ := Option.isSome_iff_exists.mp ((hlegal h).trans hs)
    exact ⟨i, by rw [if_pos h, if_pos hr, hi, Option.elim_some, if_pos hz]⟩

/-! ### The round trip -/

theorem encodeLength (i : Instr) : Laws.EncodeLength.Statement i := by
  cases i with
  | nop => exact Laws.EncodeLength.nop
  | wrcfg r v => exact Laws.EncodeLength.wrcfg r v
  | rdcfg r => exact Laws.EncodeLength.rdcfg r
  | gen ch n => exact Laws.EncodeLength.gen ch n
  | release ch => exact Laws.EncodeLength.release ch
  | encode msg => exact Laws.EncodeLength.encode msg
  | gate buf => exact Laws.EncodeLength.gate buf
  | mod buf => exact Laws.EncodeLength.mod buf
  | setup => exact Laws.EncodeLength.setup
  | run => exact Laws.EncodeLength.run
  | stop => exact Laws.EncodeLength.stop

/-- What the decoder makes of a header word of the encoder, whose reserved bits are 0. -/
theorem decodeCommand_header {opc sel : BitVec 8} {w1 : Word} {payload : List Word} {i : Instr}
    (hopc : opc.toNat ≤ 0x0A) (hi : selected opc.toNat sel w1 payload = some i)
    (hw : zeroOperand opc.toNat = true → w1 = 0) : decodeCommand (header opc sel) w1 payload = .ok i := by
  rw [decodeCommand_eq, opcField_header, selField_header, rsvField_header, if_pos hopc, if_pos rfl, hi,
    Option.elim_some, if_pos hw]

/-- The words of a well-formed instruction pass the four checks, and name it. -/
theorem decodeCommand_encode {i : Instr} (hwf : i.wellFormed = true) {w0 w1 : Word} {payload : List Word}
    (h : encode i = w0 :: w1 :: payload) : decodeCommand w0 w1 payload = .ok i := by
  cases i with
  | nop | setup | run | stop =>
    cases h
    exact decodeCommand_header (by decide) rfl fun _ => rfl
  | wrcfg | gen =>
    cases h
    exact decodeCommand_header (by decide) (by simp [selected]) nofun
  | rdcfg | release =>
    cases h
    exact decodeCommand_header (by decide) (by simp [selected]) fun _ => rfl
  | encode msg =>
    have hn : (countWord msg.length).toNat = msg.length := countWord_toNat (of_decide_eq_true hwf)
    cases h
    exact decodeCommand_header (by decide) (by simp [selected, hn, messageBytes_packBytes]) nofun
  | gate | mod =>
    cases h
    exact decodeCommand_header (by decide) (by simp [selected]) nofun

/-- Settles O2: the encoding is two words and a payload of the length they give, and decodes to the command. -/
theorem decodeOfEncodeIsIdentity : Obligations.DecodeOfEncodeIsIdentity := by
  intro i rest hwf
  obtain ⟨w0, w1, payload, hw, -, hlen⟩ := encodeLength i hwf
  rw [hw]
  exact decode_ok hlen.symm (decodeCommand_encode hwf hw)

/-! ### Lengths -/

theorem payloadLength_eq_payloadWords (w0 w1 : Word) :
    payloadLength w0 w1 = payloadWords (opcField w0).toNat w1.toNat := payloadLength_eq w0 w1

/-- Settles O5: the words up to the payload's length are decoded, and the rest is left, legal or not. -/
theorem lengthFromFirstTwoWords : Obligations.LengthFromFirstTwoWords := by
  intro w0 w1 rest n
  have hn : payloadLength w0 w1 = n := by rw [payloadLength_eq_payloadWords, opcField_toNat]
  refine ⟨fun h => decode_short (hn ▸ h), fun h => ?_⟩
  obtain ⟨p, more, hrest, hp⟩ : ∃ p more, rest = p ++ more ∧ p.length = n :=
    ⟨rest.take n, rest.drop n, (List.take_append_drop n rest).symm, List.length_take_of_le h⟩
  rw [hrest, List.drop_left' hp]
  cases hd : decodeCommand w0 w1 p with
  | ok i => exact .inl ⟨i, decode_ok (hn.trans hp.symm) hd⟩
  | error d => exact .inr ⟨d, decode_error (hn.trans hp.symm) hd⟩

/-! ### The spelling of a decoded command -/

theorem countFits_toNat (w : Word) : countFits w.toNat = true := decide_eq_true w.isLt

theorem countWord_toNat_word (w : Word) : countWord w.toNat = w := by simp [countWord]

theorem messageBytes_length {nb : Nat} {payload : List Word} (h : payload.length = (nb + 3) / 4) :
    (messageBytes nb payload).length = nb := by
  rw [messageBytes, List.length_take, flatMap_bytesOfWord_length]
  omega

/-- A decoded command is well-formed, and its encoding is the words it was read from; only the payload of ENCODE may
differ, and that not in length. -/
theorem encode_of_decodeCommand {w0 w1 : Word} {p : List Word} {i : Instr} (h : decodeCommand w0 w1 p = .ok i)
    (hlen : p.length = payloadLength w0 w1) :
    i.wellFormed = true ∧
      (encode i = w0 :: w1 :: p ∨ ∃ msg, i = .encode msg ∧ (encode i).length = p.length + 2) := by
  obtain ⟨hrsv, hi⟩ := decodeCommand_inv h
  obtain ⟨opc, sel, rfl⟩ : ∃ opc sel, w0 = header opc sel := ⟨_, _, eq_header hrsv⟩
  rw [payloadLength_eq_payloadWords, opcField_header] at hlen
  rw [opcField_header, selField_header] at hi
  have nil (hp : payloadWords opc.toNat w1.toNat = 0) : p = [] := List.eq_nil_of_length_eq_zero (hlen.trans hp)
  rcases hi with ⟨rfl, rfl, rfl, rfl⟩ | ⟨r, rfl, rfl, rfl⟩ | ⟨r, rfl, rfl, rfl, rfl⟩ | ⟨ch, rfl, rfl, rfl⟩ |
    ⟨ch, rfl, rfl, rfl, rfl⟩ | ⟨rfl, rfl, rfl⟩ | ⟨rfl, rfl, rfl⟩ | ⟨rfl, rfl, rfl⟩ | ⟨rfl, rfl, rfl, rfl⟩ |
    ⟨rfl, rfl, rfl, rfl⟩ | ⟨rfl, rfl, rfl, rfl⟩
  · exact ⟨rfl, .inl (nil rfl ▸ rfl)⟩
  · exact ⟨rfl, .inl (nil rfl ▸ rfl)⟩
  · exact ⟨rfl, .inl (nil rfl ▸ rfl)⟩
  · exact ⟨rfl, .inl (nil rfl ▸ rfl)⟩
  · exact ⟨rfl, .inl (nil rfl ▸ rfl)⟩
  · have hn := messageBytes_length hlen
    refine ⟨by rw [Instr.wellFormed, hn, countFits_toNat], .inr ⟨_, rfl, ?_⟩⟩
    rw [encode, List.length_cons, List.length_cons, packBytes_length, hn]
    exact congrArg (· + 2) hlen.symm
  · obtain ⟨hw, hn⟩ := bufferWords_samplesOfWords p w1.toNat hlen
    rw [Instr.wellFormed, encode, hw, hn, countWord_toNat_word]
    exact ⟨countFits_toNat w1, .inl rfl⟩
  · obtain ⟨hw, hn⟩ := flatMap_pairsOfWords p w1.toNat hlen
    rw [Instr.wellFormed, encode, hw, hn, countWord_toNat_word]
    exact ⟨countFits_toNat w1, .inl rfl⟩
  · exact ⟨rfl, .inl (nil rfl ▸ rfl)⟩
  · exact ⟨rfl, .inl (nil rfl ▸ rfl)⟩
  · exact ⟨rfl, .inl (nil rfl ▸ rfl)⟩

/-- Settles O3: the words that a decoded command is read from are its encoding's, or as many for ENCODE. -/
theorem decodedCommandHasOneSpelling : Obligations.DecodedCommandHasOneSpelling := by
  intro ws rest i h
  rcases decode_cases ws with hd | ⟨w0, w1, p, more, rfl, hlen, ⟨d, -, hd⟩ | ⟨j, hj, hd⟩⟩ <;>
    rw [h] at hd <;> cases hd
  obtain ⟨hwf, he | ⟨msg, rfl, he⟩⟩ := encode_of_decodeCommand hj hlen
  · exact ⟨hwf, by simp [he]; omega, fun _ => by rw [he]; rfl⟩
  · exact ⟨hwf, by simp [he]; omega, fun hne => absurd rfl (hne msg)⟩

/-! ### The worked encodings -/

/-- Settles O1: the words are concrete, and the decoder is evaluated on them. -/
theorem workedEncodingsDecode : Obligations.WorkedEncodingsDecode := by
  unfold Obligations.WorkedEncodingsDecode
  decide

end Sys2Proof.Machine
end

section
/-! PROOFS. How a host's command ends: the status it records and answers, and an illegal command, which does nothing
else (spec/30_encoding.md R69, R71, spec/60_exceptions.md R140, R145). -/

namespace Sys2Proof.Machine

/-- Settles O23: a command ends by completing with a status, and answers a payload only with OK. -/
theorem everyCommandRecordsItsStatus : Obligations.EveryCommandRecordsItsStatus := by
  intro i s
  rcases exec_cases s i with ⟨st, hst, he⟩ | ⟨payload, t, henv, -, he⟩
  · exact ⟨_, [], he, rfl, fun h => absurd (statusCode_eq_zero.mp h) hst, fun h => absurd rfl h⟩
  · exact ⟨_, payload, he, by rw [complete_env, henv]; rfl, fun _ => rfl, fun _ => rfl⟩

theorem hostStep_of_illegal {s : State} {d : IllegalDetail} {rest : List Word}
    (h : decode s.env.cmdIn = .illegal d rest) :
    hostStep s = .next (failCommand (.illegalCommand d) (s.setCmdIn rest)) := by
  unfold hostStep
  rw [h]

/-- Settles O8: the turn, if one is drawn, leaves the command stream, and the status word carries the detail. -/
theorem illegalCommandOnlyAnswers : Obligations.IllegalCommandOnlyAnswers := by
  intro s d rest e hmoves hdecode
  rw [step_of_hostMoves hmoves, hostStep_of_illegal (by simpa [cmdIn_of_hostMoves hmoves] using hdecode)]
  cases d <;> rfl

end Sys2Proof.Machine
end

section
/-! PROOFS. The default sample table at the quarters of a turn and its bound (spec/40_sample_generation.md R80). -/

namespace Sys2Proof.Machine

/-! ### Quarters of a turn -/

@[simp] theorem quarterAngle_zero (b : Nat) : quarterAngle 0 b = 0 := by simp [quarterAngle]

/-- At a quarter of a turn the ROM depends on the fraction alone, not on how it is written. -/
theorem turnSample_quarter {a b q : Nat} (hb : 0 < b) (h : 4 * (a % b) = q * b) : turnSample a b = turnSample q 4 := by
  have hq : q < 4 := by
    have := Nat.mod_lt a hb
    by_contra! hge
    nlinarith
  have hdiv : 4 * (a % b) / b = q := by rw [h, Nat.mul_div_cancel q hb]
  have hmod : 4 * (a % b) % b = 0 := by rw [h, Nat.mul_mod_left]
  simp only [turnSample, hdiv, hmod, Nat.mod_eq_of_lt hq, Nat.mul_div_cancel_left q (show 0 < 4 by decide),
    Nat.mul_mod_right, cosQuarter, sinQuarter, quarterAngle_zero]

/-- The four exact samples: (1, 0), (0, 1), (-1, 0), (0, -1). -/
theorem turnSample_four :
    turnSample 0 4 = ⟨0x3F800000, 0⟩ ∧ turnSample 1 4 = ⟨0, 0x3F800000⟩ ∧
      turnSample 2 4 = ⟨0xBF800000, 0⟩ ∧ turnSample 3 4 = ⟨0, 0xBF800000⟩ := by
  decide +kernel

theorem trigRom_correctlyRounded (l k : Nat) : trigRom .correctlyRounded l k = turnSample (k + 1) l := rfl

/-- Slot `a - 1` of a default table, where `a / l` is `q` quarters of a turn. -/
theorem trigRom_quarter {l a q : Nat} (ha : 0 < a) (hal : a < l) (h : 4 * a = q * l) :
    trigRom .correctlyRounded l (a - 1) = turnSample q 4 := by
  rw [trigRom_correctlyRounded, Nat.sub_add_cancel ha]
  exact turnSample_quarter (ha.trans hal) (by rw [Nat.mod_eq_of_lt hal, h])

/-- The last slot closes the turn. -/
theorem trigRom_last {l : Nat} (hl : 0 < l) : trigRom .correctlyRounded l (l - 1) = turnSample 0 4 := by
  rw [trigRom_correctlyRounded, Nat.sub_add_cancel hl]
  exact turnSample_quarter hl (by rw [Nat.mod_self, Nat.zero_mul])

/-! ### The bound -/

theorem romOne_pos : 0 < romOne := by
  unfold romOne
  positivity

theorem taylorSum_le (x2 terms j : Nat) : taylorSum x2 terms j ≤ romOne := by
  cases terms with
  | zero => exact le_rfl
  | succ terms => exact Nat.sub_le _ _

theorem cosQuarter_le (r b : Nat) : cosQuarter r b ≤ romOne := taylorSum_le _ _ _

theorem sinQuarter_le (r b : Nat) : sinQuarter r b ≤ romOne := Nat.min_le_left _ _

/-- Rounding does not pass a representable bound. -/
theorem rneBits_le_of_le_magUnits {n d b : Nat} (hd : 0 < d) (h : n ≤ magUnits b * d) : rneBits n d ≤ b := by
  have hnear := (round_nearest n hd b).1
  rw [rneBits_eq_roundSignificand]
  refine (Nat.min_le_left _ _).trans ?_
  by_contra! hlt
  have hgap := Nat.mul_lt_mul_of_pos_right (magUnits_strictMono hlt) hd
  zify at h hgap
  rw [abs_of_nonneg (by linarith), abs_of_nonneg (by linarith)] at hnear
  linarith

/-- 0x3F800000 is 1.0. -/
theorem magUnits_one : magUnits 0x3F800000 = f32One := by decide +kernel

theorem f32Mag_romRound_le (neg : Bool) {v : Nat} (h : v ≤ romOne) : f32Mag (romRound neg v) ≤ 0x3F800000 := by
  unfold romRound
  split
  · decide
  · rw [f32Mag_pack neg (rneBits_lt _ _)]
    refine rneBits_le_of_le_magUnits romOne_pos ?_
    rw [magUnits_one, Nat.mul_comm]
    exact Nat.mul_le_mul_left _ h

theorem f32Mag_turnSample_le (a b : Nat) :
    f32Mag (turnSample a b).i ≤ 0x3F800000 ∧ f32Mag (turnSample a b).q ≤ 0x3F800000 := by
  have hcos neg := f32Mag_romRound_le neg (cosQuarter_le (4 * (a % b) % b) b)
  have hsin neg := f32Mag_romRound_le neg (sinQuarter_le (4 * (a % b) % b) b)
  simp only [turnSample]
  split <;> simp only [hcos, hsin, and_self]

/-- Settles O26: the four slots are quarters of a turn, and no slot rounds past 1. -/
theorem defaultTableExactSlots : Obligations.DefaultTableExactSlots := by
  intro l hl
  obtain ⟨h0, h1, h2, h3⟩ := turnSample_four
  refine ⟨(trigRom_last hl).trans h0, fun heven => ?_, fun hfour => ⟨?_, ?_⟩,
    fun k _ => f32Mag_turnSample_le (k + 1) l⟩
  · exact (trigRom_quarter (q := 2) (by omega) (by omega) (by omega)).trans h2
  · exact (trigRom_quarter (q := 1) (by omega) (by omega) (by omega)).trans h1
  · exact (trigRom_quarter (q := 3) (by omega) (by omega) (by omega)).trans h3

end Sys2Proof.Machine
end

section
/-! PROOFS. The table check, GEN and RELEASE, and how `generate` composes (spec/40_sample_generation.md R77, R78, R84 to
R90). -/

namespace Sys2Proof.Machine

/-- Settles O29: a built channel is the one `generate` reads from. -/
theorem genReadsBuiltChannel : Obligations.GenReadsBuiltChannel := by
  intro ch n s h hm hv hmax hn hb
  exact exec_gen_of_session h hm hv ch hmax hn (builtState_of_built hb)

/-! ### Generating in two calls -/

/-- After a first call the channel is built, so a second call reads from the advanced cursor. -/
theorem builtState_after_generate (hw : Params) (c : CfgRegs) (ch : Channel) {n : Nat} (hn : n ≠ 0) (s : State) :
    builtState hw c ch ((generate ch n s).2.chan ch) = advanceCursor (builtState s.hw s.cfg ch (s.chan ch)) n := by
  rw [generate_pos ch hn, State.chan_setChan_self]
  exact builtState_of_built (builtState_built _ _ _ _)

/-- Settles O31: a count of 0 does nothing; after a first count the second goes on from the cursor it left. -/
theorem generateSplitsAnywhere : Obligations.GenerateSplitsAnywhere := by
  intro ch n1 n2 s h hv
  have hbuilt := builtState_built s.hw s.cfg ch (s.chan ch)
  have hlen : 0 < (builtState s.hw s.cfg ch (s.chan ch)).len.toNat :=
    lt_of_lt_of_le (by decide) ((h.builtState hv ch).1.long hbuilt)
  rcases Nat.eq_zero_or_pos n1 with rfl | h1
  · simp
  rcases Nat.eq_zero_or_pos n2 with rfl | h2
  · simp
  rw [generate_pos ch h2.ne' (generate ch n1 s).2, builtState_after_generate _ _ ch h1.ne' s,
    generate_pos ch h1.ne', generate_pos ch (by omega), channelSamples_add ch _ n1 n2 hlen,
    advanceCursor_add _ n1 n2 hlen, State.setChan_setChan]

/-! ### Periodicity -/

theorem channelSamples_getElem? (ch : Channel) (g : GeneratorState) {n j : Nat} (h : j < n) :
    (channelSamples ch g n)[j]? = some (pbRead ch g.buf ((g.cursor.toNat + j) % g.len.toNat)) := by
  simp [channelSamples, h]

/-- Settles O32: the two outputs read the same slot. -/
theorem generateIsPeriodic : Obligations.GenerateIsPeriodic := by
  intro ch n j s hb hj
  rw [generate_pos ch (by omega), builtState_of_built hb, channelSamples_getElem? ch _ hj,
    channelSamples_getElem? ch _ (by omega), ← Nat.add_assoc, Nat.add_mod_right]

/-! ### Counts out of range, and RELEASE -/

/-- R140: a count above BUF_MAX passes the first two checks of GEN, GATE and MOD and fails the last. -/
theorem checked_count_above {s : State} {n : Nat} (h : s.mode = .idle) (hv : s.sessionValid = true)
    (hn : s.hw.bufMax.toNat < n) (effect : State → State) :
    checked [idleCheck s, sessionCheck s, countCheck n s] s effect = .next (answered 1 8 [0x00000801] s) := by
  have hfail : firstFailure [idleCheck s, sessionCheck s, countCheck n s] = some (.invalidParameter .count) := by
    simp [idleCheck_eq, sessionCheck_eq, countCheck_eq, h, hv, hn]
  exact checked_of_some hfail s effect

/-- Settles O22: the three commands share that check. -/
theorem countAboveBufMaxIsInvalid : Obligations.CountAboveBufMaxIsInvalid := fun s hm hv =>
  ⟨fun ch n hn => (exec_gen s ch n).trans (checked_count_above hm hv hn _),
    fun buf hn => (exec_gate s buf).trans (checked_count_above hm hv hn _),
    fun buf hn => (exec_mod s buf).trans (checked_count_above hm hv hn _)⟩

/-- Settles O25: the period is at most the rate, and a rate is a signed 32-bit word. -/
theorem legalTableHasTwoSlots : Obligations.LegalTableHasTwoSlots := by
  intro hw f r hlegal
  have hok : tableOk hw f.toInt r.toInt = true := (tableOk_iff _ _ _).2 hlegal
  obtain ⟨htwo, hcap⟩ := tableOk_two_le hok
  obtain ⟨hf, hr, -⟩ := hlegal
  have hself : periodLength f.toInt r.toInt ≤ r.toInt := Int.ediv_le_self _ (by omega)
  have hword : 2 * r.toInt < 2 ^ 32 := BitVec.two_mul_toInt_lt
  exact ⟨hok, htwo, hcap, by omega⟩

/-- Settles O28: a count of 0 passes the checks, and `generate` of 0 is nothing. -/
theorem genOfZeroBuildsNothing : Obligations.GenOfZeroBuildsNothing := by
  intro ch s hm hv
  have hzero : (0 : Word).toNat = 0 := rfl
  rw [exec_gen, checked_count hm hv (by rw [hzero]; exact Nat.zero_le _), hzero, generate_zero]
  rfl

/-- Settles O33: the one check passes, and the effect is the release of that channel. -/
theorem releaseDiscardsOneChannel : Obligations.ReleaseDiscardsOneChannel := fun s hm =>
  ⟨(exec_release s .tone).trans (checked_idle hm _), (exec_release s .carrier).trans (checked_idle hm _)⟩

end Sys2Proof.Machine
end

section
/-! PROOFS. The Morse encoder (spec/41_morse_encoder.md R91 to R101): ENCODE's put loop in closed form, the classes of
message bytes with the shape of their slots, and the dit length. -/

namespace Sys2Proof.Machine

/-! ### The put loop of ENCODE -/

/-- R98: from a RAM that is not overfull, the put loop keeps the first `cap` slots and notes whether one did not fit. -/
theorem foldl_putSlot {cap : Nat} (vs : List Bool) {ram : List Bool} (dropped : Bool) (h : ram.length ≤ cap) :
    vs.foldl (putSlot cap) (ram, dropped) =
      ((ram ++ vs).take cap, dropped || decide (cap < ram.length + vs.length)) := by
  induction vs generalizing ram dropped with
  | nil => simp [h]
  | cons v vs ih =>
    rw [List.foldl_cons, putSlot]
    by_cases hroom : ram.length < cap
    · have hnext : (ram ++ [v]).length ≤ cap := by simpa using hroom
      simp [hroom, ih dropped hnext, Nat.add_assoc, Nat.add_comm 1]
    · have hfull : cap = ram.length := by omega
      simp only [if_neg hroom, ih true h]
      simp [hfull]

/-- R96, R98: the closed form of ENCODE's pattern is what the put loop leaves, over the slots held before. -/
theorem encodedPattern_eq_foldl (cap : Nat) (slots : List Bool) (pad : Nat) (old : MorsePattern) :
    encodedPattern cap slots pad old =
      let put := (slots ++ List.replicate pad false).foldl (putSlot cap) ([], false)
      { slots := put.1 ++ old.slots.drop put.1.length
        len := BitVec.ofNat 32 put.1.length
        trunc := put.2 } := by
  have hempty : ([] : List Bool).length ≤ cap := Nat.zero_le cap
  simp only [foldl_putSlot _ false hempty, encodedPattern, writtenSlots_eq_take, writePrefix]
  simp

/-- Settles O35: the one check passes, and the pattern recorded is what the put loop leaves. -/
theorem encodePutsSlotsOneByOne : Obligations.EncodePutsSlotsOneByOne := by
  intro msg s hm put
  have hpat : patternAfter msg s = ⟨put.1 ++ s.pat.slots.drop put.1.length, BitVec.ofNat 32 put.1.length, put.2⟩ :=
    encodedPattern_eq_foldl _ _ _ _
  rw [exec_encode, checked_idle hm, hpat]
  rfl

/-! ### The code of a byte -/

theorem morseLetters_ne_nil : ∀ dashes ∈ morseLetters, dashes ≠ [] := by decide

theorem morseDigits_ne_nil : ∀ dashes ∈ morseDigits, dashes ≠ [] := by decide

/-- The byte is one of the letters, of either case, or digits of R92. -/
def IsLetterOrDigit (b : Byte) : Prop :=
  (0x41 ≤ b.toNat ∧ b.toNat ≤ 0x5A) ∨ (0x61 ≤ b.toNat ∧ b.toNat ≤ 0x7A) ∨ (0x30 ≤ b.toNat ∧ b.toNat ≤ 0x39)

/-- R92: a lower-case letter is read as its upper case. -/
theorem morseOf_lower {b : Byte} (h : 0x61 ≤ b.toNat ∧ b.toNat ≤ 0x7A) : morseOf b = morseOf (b - 0x20) := by
  have hsub : (b - 0x20).toNat = b.toNat - 0x20 := BitVec.toNat_sub_of_le (by bv_omega)
  have hupper : ¬(0x61 ≤ b.toNat - 0x20 ∧ b.toNat - 0x20 ≤ 0x7A) := by omega
  simp only [morseOf, hsub, if_pos h, if_neg hupper]

theorem morseOf_upper {b : Byte} (h : 0x41 ≤ b.toNat ∧ b.toNat ≤ 0x5A) :
    morseOf b = morseLetters[b.toNat - 0x41]?.map morseCode := by
  have hlower : ¬(0x61 ≤ b.toNat ∧ b.toNat ≤ 0x7A) := by omega
  have hspace : b.toNat ≠ 0x20 := by omega
  simp only [morseOf, if_neg hlower, if_neg hspace, if_pos h]

theorem morseOf_digit {b : Byte} (h : 0x30 ≤ b.toNat ∧ b.toNat ≤ 0x39) :
    morseOf b = morseDigits[b.toNat - 0x30]?.map morseCode := by
  have hlower : ¬(0x61 ≤ b.toNat ∧ b.toNat ≤ 0x7A) := by omega
  have hupper : ¬(0x41 ≤ b.toNat ∧ b.toNat ≤ 0x5A) := by omega
  have hspace : b.toNat ≠ 0x20 := by omega
  simp only [morseOf, if_neg hlower, if_neg hspace, if_neg hupper, if_pos h]

theorem morseOf_unmapped {b : Byte} (h : ¬IsLetterOrDigit b) (hspace : b ≠ 0x20) : morseOf b = none := by
  obtain ⟨hupper, hlower, hdigit⟩ := by simpa only [IsLetterOrDigit, not_or] using h
  have hsp : b.toNat ≠ 0x20 := fun he => hspace (BitVec.eq_of_toNat_eq he)
  simp only [morseOf, if_neg hlower, if_neg hsp, if_neg hupper, if_neg hdigit]

/-- A code looked up in a table of written codes is one of dots and dashes. -/
theorem exists_morseCode_of_lookup {table : List (List Bool)} {k : Nat} (hne : ∀ dashes ∈ table, dashes ≠ [])
    (hk : k < table.length) : ∃ dashes, dashes ≠ [] ∧ table[k]?.map morseCode = some (morseCode dashes) :=
  ⟨table[k], hne _ (List.getElem_mem hk), by rw [List.getElem?_eq_getElem hk, Option.map_some]⟩

/-- R91: a letter's or digit's code is of dots and dashes, at least one. -/
theorem morseOf_letterOrDigit {b : Byte} (h : IsLetterOrDigit b) :
    ∃ dashes, dashes ≠ [] ∧ morseOf b = some (morseCode dashes) := by
  have upper (c : Byte) (hc : 0x41 ≤ c.toNat ∧ c.toNat ≤ 0x5A) :
      ∃ dashes, dashes ≠ [] ∧ morseOf c = some (morseCode dashes) := by
    have hlen : morseLetters.length = 26 := rfl
    rw [morseOf_upper hc]
    exact exists_morseCode_of_lookup morseLetters_ne_nil (by omega)
  rcases h with hu | hl | hd
  · exact upper b hu
  · rw [morseOf_lower hl]
    exact upper (b - 0x20) (by bv_omega)
  · have hlen : morseDigits.length = 10 := rfl
    rw [morseOf_digit hd]
    exact exists_morseCode_of_lookup morseDigits_ne_nil (by omega)

/-- R92: exactly the letters, the digits and the space are mapped. -/
theorem morseOf_isSome_iff (b : Byte) : (morseOf b).isSome = true ↔ IsLetterOrDigit b ∨ b = 0x20 := by
  by_cases hb : IsLetterOrDigit b
  · obtain ⟨dashes, -, hcode⟩ := morseOf_letterOrDigit hb
    simp [hb, hcode]
  by_cases hsp : b = 0x20
  · subst hsp
    exact iff_of_true (by decide) (.inr rfl)
  · exact iff_of_false (by simp [morseOf_unmapped hb hsp]) (not_or.2 ⟨hb, hsp⟩)

/-! ### The slots of a code -/

theorem byteSlots_of_some {b : Byte} {code : List MorseElement} (h : morseOf b = some code) :
    byteSlots b = codeSlots code := by
  rw [byteSlots, h]

theorem byteSlots_of_none {b : Byte} (h : morseOf b = none) : byteSlots b = [] := by
  rw [byteSlots, h]

theorem byteSlots_congr {b c : Byte} (h : morseOf b = morseOf c) : byteSlots b = byteSlots c := by
  rw [byteSlots, byteSlots, h]

theorem byteSlots_space : byteSlots 0x20 = List.replicate 7 false := by decide

/-- R94: the last element ends in an off slot, and two more follow. -/
theorem codeSlots_ends_off {code : List MorseElement} (h : code ≠ []) :
    (codeSlots code).reverse.take 3 = [false, false, false] := by
  obtain ⟨front, last, rfl⟩ := code.eq_nil_or_concat.resolve_left h
  cases last <;> simp [codeSlots, elementSlots]

/-- R93: a dot and a dash begin with an on slot. -/
theorem codeSlots_morseCode_head {dashes : List Bool} (h : dashes ≠ []) :
    (codeSlots (morseCode dashes)).head? = some true := by
  obtain ⟨first, rest, rfl⟩ := List.exists_cons_of_ne_nil h
  cases first <;> rfl

/-- Settles O34: the table by evaluation, and each byte is a letter or digit, the space, or unmapped. -/
theorem mappedBytesWriteSlots : Obligations.MappedBytesWriteSlots := by
  refine ⟨by decide, fun b => ?_⟩
  have hlower : 0x61 ≤ b.toNat ∧ b.toNat ≤ 0x7A →
      morseOf b = morseOf (b - 0x20) ∧ byteSlots b = byteSlots (b - 0x20) :=
    fun h => ⟨morseOf_lower h, byteSlots_congr (morseOf_lower h)⟩
  have hspace : b = 0x20 → byteSlots b = List.replicate 7 false := fun h => h ▸ byteSlots_space
  have hmapped := morseOf_isSome_iff b
  rw [IsLetterOrDigit, or_assoc, or_assoc] at hmapped
  by_cases hb : IsLetterOrDigit b
  · obtain ⟨dashes, hne, hcode⟩ := morseOf_letterOrDigit hb
    have hslots := byteSlots_of_some hcode
    have hnil : morseCode dashes ≠ [] := by simpa [morseCode] using hne
    exact ⟨hmapped, hlower, by simp [hcode], fun _ => hslots ▸ codeSlots_ends_off hnil,
      fun _ _ => hslots ▸ codeSlots_morseCode_head hne, hspace⟩
  by_cases hsp : b = 0x20
  · subst hsp
    exact ⟨hmapped, hlower, by decide, fun _ => by rw [byteSlots_space]; rfl, fun _ h => absurd rfl h, hspace⟩
  · have hcode := morseOf_unmapped hb hsp
    exact ⟨hmapped, hlower, fun _ => byteSlots_of_none hcode, by simp [hcode], by simp [hcode], hspace⟩

/-! ### The dit length -/

/-- Settles O36: the bounds of the integer quotient; a rate is below 2^31 and a speed at least 1. -/
theorem ditLengthIsExactQuotient : Obligations.DitLengthIsExactQuotient := by
  intro r w hr hw
  have hden : 0 < 50 * w.toInt := by omega
  have hword : 2 * r.toInt < 2 ^ 32 := BitVec.two_mul_toInt_lt
  have hupper : 60 * r.toInt < 2 ^ 32 * (50 * w.toInt) := by omega
  refine ⟨Int.mul_ediv_self_le hden.ne', ?_, Int.ediv_nonneg (by omega) hden.le, Int.ediv_lt_of_lt_mul hden hupper⟩
  rw [Int.mul_add, Int.mul_one]
  exact Int.lt_mul_ediv_self_add hden

end Sys2Proof.Machine
end

section
/-! PROOFS. The zero-crossing gate (spec/42_cw_gate.md R103 to R112): the band of a crossing, a buffer as a fold of the
sample step, and how long a gate value is held. -/

namespace Sys2Proof.Machine

/-! ### The band -/

@[simp] theorem f32Mag_abs (a : F32) : f32Mag (f32Abs a) = f32Mag a := by
  rw [f32Mag, f32Abs_toNat, Nat.mod_eq_of_lt (f32Mag_lt a)]

@[simp] theorem f32Neg_abs (a : F32) : f32Neg (f32Abs a) = false := by
  rw [Bool.eq_false_iff, Ne, f32Neg_iff, f32Abs_toNat, not_le]
  exact f32Mag_lt a

@[simp] theorem f32IsNan_abs (a : F32) : f32IsNan (f32Abs a) = f32IsNan a := by
  rw [f32IsNan_eq, f32IsNan_eq, f32Mag_abs]

@[simp] theorem f32Key_abs (a : F32) : f32Key (f32Abs a) = f32Mag a := by
  simp [f32Key]

/-- R12: a legal ZC_EPS is an ordinary number, and its key is its magnitude, -0.0 included. -/
theorem LegalParams.zcEps_key {hw : Params} (h : LegalParams hw) :
    f32Mag hw.zcEps < f32InfBits ∧ f32Key hw.zcEps = f32Mag hw.zcEps := by
  obtain ⟨hfin, hle⟩ := h.eps
  have hnonneg : 0 ≤ f32Key hw.zcEps := of_decide_eq_true (Bool.and_eq_true_iff.1 hle).2
  refine ⟨(f32IsFinite_iff _).1 hfin, ?_⟩
  rw [← natAbs_f32Key, Int.natAbs_of_nonneg hnonneg]

/-- Settles O37: below infinity the keys are the magnitudes; a NaN lies above every legal ZC_EPS. -/
theorem zeroCrossingIsClosedBand : Obligations.ZeroCrossingIsClosedBand := by
  intro hw x h
  obtain ⟨hfin, hkey⟩ := h.zcEps_key
  change f32Le (f32Abs x.q) hw.zcEps = decide (f32Mag x.q ≤ f32Mag hw.zcEps)
  have heps : f32IsNan hw.zcEps = false := (class_of_finite hfin).1
  cases hnan : f32IsNan x.q
  · rw [f32Le_of_not_nan (by rw [f32IsNan_abs, hnan]) heps, f32Key_abs, hkey]
    simp
  · have habove := (f32IsNan_iff x.q).1 hnan
    simp only [f32Le, f32IsNan_abs, hnan, Bool.not_true, Bool.false_and]
    exact (decide_eq_false (by omega)).symm

/-- R112: the last slot of the default table has Q = +0.0, which lies in every legal band. -/
theorem zeroCrossing_trigRom_last {hw : Params} (h : LegalParams hw) {l : Nat} (hl : 0 < l) :
    zeroCrossing hw (trigRom .correctlyRounded l (l - 1)) = true := by
  rw [(trigRom_last hl).trans turnSample_four.1, zeroCrossingIsClosedBand hw _ h]
  exact decide_eq_true (Nat.zero_le _)

/-- Settles O27: one of any `l` consecutive samples reads the last slot. -/
theorem everyPeriodHasAZeroCrossing : Obligations.EveryPeriodHasAZeroCrossing := by
  intro hw l c h htrig hl
  have hc : c % l < l := Nat.mod_lt c hl
  have hlast : (c + (l - 1 - c % l)) % l = l - 1 := by
    rw [← Nat.mod_add_mod, Nat.add_sub_cancel' (by omega), Nat.mod_eq_of_lt (by omega)]
  refine ⟨l - 1 - c % l, by omega, ?_⟩
  rw [hlast, htrig]
  exact zeroCrossing_trigRom_last h hl

/-! ### One sample -/

/-- Settles O38: the two branches of the step, each ending in the decrement. -/
theorem gateStepAdvancesAtCrossing : Obligations.GateStepAdvancesAtCrossing := by
  intro hw p c x
  refine ⟨rfl, fun (ha : advances hw p c x) => ?_, fun (hn : ¬advances hw p c x) => ?_⟩
  · rw [gateNext_of_advances ha, cwDecrement_index, cwAdvance_index p c ha.2.1]
    simp [cwAdvance]
  · rw [gateNext_of_not hn]
    simp

/-! ### A buffer -/

/-- R108: sample `j` of a buffer, gated by the CW state after samples 0 to `j`. -/
theorem gateBuffer_samples (hw : Params) (p : MorsePattern) (c : CWState) (xs : List Sample) :
    (gateBuffer hw p c xs).1 = (List.range xs.length).map fun j =>
      gateOut ((xs.take (j + 1)).foldl (gateNext hw p) c).gate (xs.getD j ⟨0, 0⟩) := by
  induction xs generalizing c with
  | nil => rfl
  | cons x xs ih =>
    rw [gateBuffer_cons, ih, List.length_cons, List.range_succ_eq_map, List.map_cons, List.map_map]
    rfl

theorem sampleWords_gateOut (pass : Bool) (x : Sample) :
    sampleWords (gateOut pass x) = if pass then wordsOf x else [0, 0] := by
  cases pass <;> rfl

/-- R109: what GATE answers and leaves when its checks pass. -/
theorem exec_gate_of_session {buf : List Sample} {s : State} (hm : s.mode = .idle) (hv : s.sessionValid = true)
    (hmax : buf.length ≤ s.hw.bufMax.toNat) :
    exec (.gate buf) s = .next (answered 0 0 (0 :: bufferWords (gateBuffer s.hw s.pat s.cw buf).1)
      { s with cw := buf.foldl (gateNext s.hw s.pat) s.cw }) := by
  rw [exec_gate, checked_count hm hv hmax, gateSamples_eq]
  rfl

/-- Settles O39: the buffer sample by sample, each in its two words. -/
theorem gateFoldsOverBuffer : Obligations.GateFoldsOverBuffer := by
  intro buf s hm hv hmax
  rw [exec_gate_of_session hm hv hmax, gateBuffer_samples, bufferWords, List.flatMap_map]
  simp only [sampleWords_gateOut]

/-! ### While no sample advances the gate -/

theorem not_advances {hw : Params} {p : MorsePattern} {c : CWState} (h : p.len = 0 ∨ 0 < c.count.toNat) (x : Sample) :
    ¬advances hw p c x := by
  rintro ⟨hzero, hlen, -⟩
  rcases h with hempty | hcount
  · simp [hempty] at hlen
  · simp [hzero] at hcount

theorem cwDecrement_eq (c : CWState) : cwDecrement c = { c with count := BitVec.ofNat 32 (c.count.toNat - 1) } := by
  have hcount : (cwDecrement c).count = BitVec.ofNat 32 (c.count.toNat - 1) := by
    rw [← cwDecrement_count, BitVec.ofNat_toNat, BitVec.setWidth_eq]
  rw [← hcount]
  unfold cwDecrement
  split <;> rfl

/-- R106, R111: with an empty pattern, or for as many samples as the count, the gate only counts down. -/
theorem foldl_gateNext_of_held (hw : Params) {p : MorsePattern} {xs : List Sample} {c : CWState}
    (held : p.len = 0 ∨ xs.length ≤ c.count.toNat) :
    xs.foldl (gateNext hw p) c = { c with count := BitVec.ofNat 32 (c.count.toNat - xs.length) } := by
  induction xs generalizing c with
  | nil => simp
  | cons x xs ih =>
    rw [List.length_cons] at held ⊢
    have hnow : p.len = 0 ∨ 0 < c.count.toNat := held.imp_right (by omega)
    have hnext : p.len = 0 ∨ xs.length ≤ (cwDecrement c).count.toNat := by
      rw [cwDecrement_count]
      exact held.imp_right Nat.le_sub_one_of_lt
    rw [List.foldl_cons, gateNext_of_not (not_advances hnow x), ih hnext, cwDecrement_count, Nat.sub_sub,
      Nat.add_comm 1, cwDecrement_eq]

/-- R106: an empty pattern keeps the gate open. -/
theorem gateBuffer_of_empty (hw : Params) {p : MorsePattern} {c : CWState} (hempty : p.len = 0) (hopen : c.gate = true)
    (xs : List Sample) : (gateBuffer hw p c xs).1 = xs := by
  induction xs generalizing c with
  | nil => rfl
  | cons x xs ih =>
    have hnext : (gateNext hw p c x).gate = true := by
      rw [gateNext_of_not (not_advances (.inl hempty) x), cwDecrement_gate, hopen]
    rw [gateBuffer_cons, ih hnext, hnext]
    rfl

/-- Settles O40: the samples pass as they are, and the CW state only counts down. -/
theorem emptyPatternPassesEverySample : Obligations.EmptyPatternPassesEverySample := by
  intro buf s hm hv hmax hempty hopen
  rw [exec_gate_of_session hm hv hmax, gateBuffer_of_empty _ hempty hopen, foldl_gateNext_of_held _ (.inl hempty)]
  rfl

/-- Settles O41: after the advance the count is the dit length less 1, and the samples after it only count down. -/
theorem advanceHoldsForDitLength : Obligations.AdvanceHoldsForDitLength := by
  intro hw p c x after hzero hlen hcross hafter
  have hnext : gateNext hw p c x = cwDecrement (cwAdvance p c) := gateNext_of_advances ⟨hzero, hlen, hcross⟩
  have hcount : after.length ≤ (cwDecrement (cwAdvance p c)).count.toNat := by
    rw [cwDecrement_count]
    exact Nat.le_sub_one_of_lt hafter
  rw [hnext, foldl_gateNext_of_held hw (.inr hcount)]
  exact cwDecrement_gate _

end Sys2Proof.Machine
end

section
/-! PROOFS. The modulator (spec/43_modulator.md R116, R117, R121 to R125): MOD in AM and in FM, AM of SILENCE, and the
conversion of a phase increment to an integer. -/

namespace Sys2Proof.Machine

/-! ### MOD -/

/-- R125: what MOD answers and leaves when its checks pass. -/
theorem exec_mod_of_session {buf : List (Sample × Sample)} {s : State} (hm : s.mode = .idle)
    (hv : s.sessionValid = true) (hmax : buf.length ≤ s.hw.bufMax.toNat) :
    exec (.mod buf) s = .next (answered 0 0 (0 :: bufferWords (modulate buf s).1) (modulate buf s).2) := by
  rw [exec_mod, checked_count hm hv hmax, complete_ok_eq_answered]

/-- Settles O42: AM maps each pair to its two words, and the state stands. -/
theorem modAmplitudeMultiplies : Obligations.ModAmplitudeMultiplies := by
  intro buf s hm hv hmax hkind
  rw [exec_mod_of_session hm hv hmax, modulate_am hkind, amBuffer, bufferWords, List.flatMap_map]
  rfl

/-- R124: sample `j` of a buffer, turned by the rotation of the phase after pairs 0 to `j`. -/
theorem fmBuffer_samples (hw : Params) (k : F32) (ph : Word) (buf : List (Sample × Sample)) :
    (fmBuffer hw k ph buf).1 = (List.range buf.length).map fun j =>
      fmRotate hw.canonNan (buf.getD j (⟨0, 0⟩, ⟨0, 0⟩)).1 (rotationRom hw.fmrot
        ((buf.take (j + 1)).foldl (fun q p => fmNextPhase hw.canonNan k q p.2) ph)) := by
  induction buf generalizing ph with
  | nil => rfl
  | cons p rest ih =>
    rw [fmBuffer_cons, ih, List.length_cons, List.range_succ_eq_map, List.map_cons, List.map_map]
    rfl

/-- The default rotation at a phase word of `q` quarters of a turn (R122). -/
theorem rotationRom_quarter {phase : Word} {q : Nat} (h : 4 * phase.toNat = q * 2 ^ 32) :
    rotationRom .correctlyRounded phase = turnSample q 4 := by
  refine turnSample_quarter (by decide) ?_
  rw [Nat.mod_eq_of_lt phase.isLt, h]

/-- Settles O43: the four phases are quarters of a turn; FM folds the phase over the buffer and rotates each carrier
sample by the phase after its pair. -/
theorem modPhaseAccumulates : Obligations.ModPhaseAccumulates := by
  refine ⟨?_, fun buf s hm hv hmax hkind => ?_⟩
  · obtain ⟨h0, h1, h2, h3⟩ := turnSample_four
    exact ⟨(rotationRom_quarter (by decide)).trans h0, (rotationRom_quarter (by decide)).trans h1,
      (rotationRom_quarter (by decide)).trans h2, (rotationRom_quarter (by decide)).trans h3⟩
  · have hfm : s.cfg.modKind ≠ 0 := by
      rw [hkind]
      decide
    rw [exec_mod_of_session hm hv hmax, modulate_fm hfm, fmBuffer_samples, fmBuffer_phase, bufferWords,
      List.flatMap_map]
    simp only [List.take_length]
    rfl

/-! ### AM of SILENCE -/

/-- The sign and the magnitude of a finite product; the magnitude may be infinity. -/
theorem f32Mul_fields (nan : F32) {a b : F32} (ha : f32Mag a < f32InfBits) (hb : f32Mag b < f32InfBits) :
    f32Neg (f32Mul nan a b) = xor (f32Neg a) (f32Neg b) ∧
      f32Mag (f32Mul nan a b) = rneBits (f32Units a * f32Units b) f32One := by
  rw [f32Mul_of_finite nan ha hb]
  exact ⟨f32Neg_pack _ (rneBits_lt _ _), f32Mag_pack _ (rneBits_lt _ _)⟩

theorem f32Units_eq_zero {a : F32} : f32Units a = 0 ↔ f32Mag a = 0 := by
  rw [f32Units_eq, magUnits_eq_zero]

theorem f32Int_eq_zero {a : F32} : f32Int a = 0 ↔ f32Mag a = 0 := by
  rw [← f32Units_eq_zero, f32Int]
  split <;> omega

/-- A finite datum is its own value rounded, but for the sign of a zero. -/
theorem datum_f32Int {a : F32} (h : f32Mag a < f32InfBits) (hne : f32Int a ≠ 0) :
    datum (decide (f32Int a < 0)) (rneBits (f32Int a).natAbs 1) = a := by
  have hneg : decide (f32Int a < 0) = f32Neg a := by
    cases hs : f32Neg a <;> simp only [f32Int, hs, if_true, Bool.false_eq_true, if_false] at hne ⊢
    · exact decide_eq_false (by omega)
    · exact decide_eq_true (by omega)
  have habs : (f32Int a).natAbs = magUnits (f32Mag a) := by
    rw [← f32Units_eq, f32Int]
    split <;> omega
  rw [hneg, habs, rneBits_magUnits h, datum_eq, f32Pack_self]

/-- Adding a zero of its own sign leaves a datum as it is, infinities and both zeros included. -/
theorem f32Add_zero_same_sign (nan : F32) {a z : F32} (h : f32Mag a ≤ f32InfBits) (hz : f32Mag z = 0)
    (hsign : f32Neg z = f32Neg a) : f32Add nan a z = a := by
  have hfin : f32Mag z < f32InfBits := by
    rw [hz]
    decide
  rcases Nat.lt_or_eq_of_le h with hlt | hinf
  · obtain ⟨hrounded, hcancel⟩ := roundedSum_f32Add nan hlt hfin
    rw [f32Int_eq_zero.2 hz, Int.add_zero] at hrounded hcancel
    by_cases hzero : f32Int a = 0
    · rw [hcancel hzero, hsign, Bool.and_self, datum_eq, ← f32Int_eq_zero.1 hzero, f32Pack_self]
    · rw [hrounded hzero, datum_f32Int hlt hzero]
  · obtain ⟨-, -, hadd, -⟩ := ops_of_infinite_finite nan hinf hfin
    exact hadd

/-- The pilot of a finite index is finite and keeps its sign. -/
theorem pilot_of_finite (nan : F32) {m : F32} (h : f32Mag m < f32InfBits) :
    f32Mag (f32Div nan m 0x41200000) < f32InfBits ∧ f32Neg (f32Div nan m 0x41200000) = f32Neg m := by
  have hunits : f32Units 0x41200000 = 10 * f32One := by decide +kernel
  have hone : 0 < f32One := by decide
  have hten : f32Neg 0x41200000 = false := by decide
  have hle : rneBits (f32Units m * f32One) (10 * f32One) ≤ f32Mag m := by
    refine rneBits_le_of_le_magUnits (by omega) ?_
    rw [f32Units_eq]
    exact Nat.mul_le_mul_left _ (by omega)
  rw [f32Div_of_finite nan h (by decide), hunits, if_neg (by omega), hten, Bool.xor_false,
    f32Mag_pack _ (rneBits_lt _ _), f32Neg_pack _ (rneBits_lt _ _)]
  exact ⟨hle.trans_lt h, rfl⟩

/-- R117, one component: the term of the silent tone is a zero with the sign of the pilot's term, which may overflow to
infinity. -/
theorem silent_component (nan : F32) {m c : F32} (hm : f32Mag m < f32InfBits) (hc : f32Mag c < f32InfBits) :
    f32Add nan (f32Mul nan c (f32Div nan m 0x41200000)) (f32Mul nan c (f32Mul nan 0 m)) =
      f32Mul nan c (f32Div nan m 0x41200000) := by
  obtain ⟨hpilot, hpilotSign⟩ := pilot_of_finite nan hm
  obtain ⟨htoneSign, htone⟩ := f32Mul_fields nan (a := 0) (by decide) hm
  have htoneZero : f32Mag (f32Mul nan 0 m) = 0 := by
    rw [htone, f32Units_eq_zero.2 (by decide), Nat.zero_mul, rneBits_zero]
  obtain ⟨hmainSign, hmain⟩ := f32Mul_fields nan hc hpilot
  obtain ⟨htermSign, hterm⟩ := f32Mul_fields nan hc (htoneZero.trans_lt (by decide))
  refine f32Add_zero_same_sign nan (hmain ▸ rneBits_le _ _) ?_ ?_
  · rw [hterm, f32Units_eq_zero.2 htoneZero, Nat.mul_zero, rneBits_zero]
  · rw [htermSign, hmainSign, hpilotSign, htoneSign, show f32Neg 0 = false by decide, Bool.false_xor]

/-- Settles O44: each component adds a zero that changes nothing to the pilot's term. -/
theorem silentToneSendsPilotAlone : Obligations.SilentToneSendsPilotAlone := by
  intro nan m c hm _ hi hq
  rw [f32IsFinite_iff] at hm hi hq
  rw [amSample, silent_component nan hm hi, silent_component nan hm hq]

/-! ### The conversion to an integer -/

/-- The integer that cvt_i32 gives a finite datum before it is clamped (R121). -/
def nearestInt (a : F32) : Int :=
  if f32Neg a then -(rneDiv (f32Units a) f32One : Int) else rneDiv (f32Units a) f32One

theorem cvtI32_of_finite {a : F32} (h : f32IsFinite a = true) : cvtI32 a = clampS32 (nearestInt a) := by
  obtain ⟨hnan, hinf⟩ := class_of_finite ((f32IsFinite_iff a).1 h)
  simp [cvtI32, hnan, hinf, nearestInt]

/-- The sign does not matter to the distance: half at most, and an even integer at exactly half. -/
theorem nearestInt_error (a : F32) :
    2 * |nearestInt a * 2 ^ 149 - f32Int a| ≤ 2 ^ 149 ∧
      (2 * |nearestInt a * 2 ^ 149 - f32Int a| = 2 ^ 149 → nearestInt a % 2 = 0) := by
  obtain ⟨herr, htie⟩ := rneDiv_error (f32Units a) (d := f32One) (by decide)
  rw [show (f32One : Int) = 2 ^ 149 from rfl] at herr htie
  have habs : |nearestInt a * 2 ^ 149 - f32Int a| = |(rneDiv (f32Units a) f32One : Int) * 2 ^ 149 - f32Units a| := by
    unfold nearestInt f32Int
    split
    · rw [← abs_neg]
      congr 1
      ring
    · rfl
  refine ⟨habs ▸ herr, fun h => ?_⟩
  have heven := htie (habs ▸ h)
  unfold nearestInt
  split <;> omega

/-- Settles O45: the nearest integer lies in the range exactly when the value does, to within the half that rounding
moves it. -/
theorem cvtRoundsToNearestAndClamps : Obligations.CvtRoundsToNearestAndClamps := by
  intro a
  refine ⟨fun h => by simp [cvtI32, h], by rintro rfl; decide, by rintro rfl; decide, fun h => ?_⟩
  obtain ⟨herr, htie⟩ := nearestInt_error a
  have hnear : -2 ^ 149 ≤ 2 * (nearestInt a * 2 ^ 149 - f32Int a) ∧
      2 * (nearestInt a * 2 ^ 149 - f32Int a) ≤ 2 ^ 149 := by
    rw [← abs_le, abs_mul]
    exact herr
  rw [cvtI32_of_finite h]
  refine ⟨fun habove => ?_, fun hbelow => ?_, fun hlow hhigh => ?_⟩
  · unfold clampS32
    omega
  · unfold clampS32
    omega
  · have hclamp : clampS32 (nearestInt a) = nearestInt a := by
      unfold clampS32
      omega
    rw [hclamp]
    exact ⟨herr, htie⟩

end Sys2Proof.Machine
end

section
/-! PROOFS. Session control (spec/44_session_control.md R127 to R132): the commands refused while RUNNING, RUN, STOP,
SETUP and its checks, and the engine's step. -/

namespace Sys2Proof.Machine

/-! ### RUN, STOP and the refusals of a RUNNING block -/

theorem exec_busy {s : State} {i : Instr} (hm : s.mode = .running) (hi : needsIdle i = true) :
    exec i s = .next (answered 2 0 [0x00000002] s) := by
  cases i with
  | nop | rdcfg | stop => cases hi
  | wrcfg | gen | release | encode | gate | mod | setup | run =>
    simp only [exec_wrcfg, exec_gen, exec_release, exec_encode, exec_gate, exec_mod, exec_setup, exec_run]
    exact checked_busy hm _ _

/-- Settles O20: the step runs the command on a state that is RUNNING too, its words consumed. -/
theorem runningRefusesAsBusy : Obligations.RunningRefusesAsBusy := fun _ _ hm hi =>
  ⟨exec_busy hm hi, fun rest e hmoves hdecode =>
    (stepRunsDecodedCommand _ _ rest e hmoves hdecode).trans (exec_busy hm hi)⟩

/-- Settles O50: both checks pass. -/
theorem runStartsEngine : Obligations.RunStartsEngine := fun s hm hv => (exec_run s).trans (checked_session hm hv _)

/-- Settles O51: by the mode. -/
theorem stopLatchesRequest : Obligations.StopLatchesRequest := by
  refine fun s => ⟨fun hm => ?_, fun hm => ?_⟩
  · rw [exec_stop, if_pos hm]
    rfl
  · rw [exec_stop, if_neg (by simp [hm])]
    rfl

/-! ### SETUP -/

theorem fmCheck_iff (hw : Params) (kind : Word) :
    (!(kind == 1 && !hw.hasFm)) = true ↔ (kind.toNat = 1 → hw.hasFm = true) := by
  have hone : kind.toNat = 1 ↔ kind = 1#32 := BitVec.toNat_inj (y := 1#32)
  rw [hone]
  by_cases hk : kind = 1#32 <;> simp [hk]

theorem modIndexOk_iff (m : F32) : modIndexOk m = true ↔ f32IsFinite m = true ∧ f32Le 0 m = true :=
  Bool.and_eq_true_iff

/-- SETUP's checks as R31's ranges, in R128's order. -/
theorem firstFailure_setupChecks (hw : Params) (c : CfgRegs) :
    firstFailure (setupChecks hw c) =
      if c.modKind.toNat ≤ 1 then
        if c.modKind.toNat = 1 → hw.hasFm = true then
          if f32IsFinite c.modIndex = true ∧ f32Le 0 c.modIndex = true then
            if 0 < c.wpm.toInt then
              if 1 ≤ c.bufLen.toNat ∧ c.bufLen.toNat ≤ hw.bufMax.toNat then
                if tableOk hw c.toneFreq.toInt c.sampleRate.toInt = true then
                  if tableOk hw c.carrierFreq.toInt c.sampleRate.toInt = true then none
                  else some (.invalidParameter .carrierTable)
                else some (.invalidParameter .toneTable)
              else some (.invalidParameter .bufLen)
            else some (.invalidParameter .wpm)
          else some (.invalidParameter .modIndex)
        else some (.invalidParameter .fmAbsent)
      else some (.invalidParameter .modKind) := by
  simp only [setupChecks, firstFailure_cons, firstFailure_nil, decide_eq_true_iff, fmCheck_iff, modIndexOk_iff,
    channelFreq, sampleRate]

/-- A legal configuration passes SETUP's checks. -/
theorem configOk_of_legal {hw : Params} {c : CfgRegs} (h : SetupLegal hw c) : ConfigOk hw c := by
  obtain ⟨kind, fm, index, wpm, buf, tone, carrier⟩ := h
  rw [ConfigOk, firstFailure_setupChecks, if_pos kind, if_pos fm, if_pos index, if_pos wpm, if_pos buf,
    if_pos ((tableOk_iff _ _ _).2 tone), if_pos ((tableOk_iff _ _ _).2 carrier)]

theorem firstFailure_idle {s : State} (hm : s.mode = .idle) (cs : List Check) :
    firstFailure (idleCheck s :: cs) = firstFailure cs := by
  simp [idleCheck_eq, hm]

theorem exec_setup_invalid {s : State} (hm : s.mode = .idle) (d : ParamDetail)
    (h : firstFailure (setupChecks s.hw s.cfg) = some (.invalidParameter d)) :
    exec .setup s = .next (answered 1 (paramCode d) [statusWord (.invalidParameter d)] s) :=
  (exec_setup s).trans (checked_of_some ((firstFailure_idle hm _).trans h) s _)

/-- Settles O48: the checks pass, and the effect is the new session. -/
theorem setupStartsSession : Obligations.SetupStartsSession := fun s hm hlegal =>
  (exec_setup s).trans (checked_of_none ((firstFailure_idle hm _).trans (configOk_of_legal hlegal)) s _)

/-- Settles O49: each clause takes the branch of the first check that fails. -/
theorem setupReportsFirstFailure : Obligations.SetupReportsFirstFailure := by
  intro s hm c kind fm index wpm buf tone carrier
  have htone : tableOk s.hw c.toneFreq.toInt c.sampleRate.toInt = true ↔ tone := tableOk_iff _ _ _
  have hcarrier : tableOk s.hw c.carrierFreq.toInt c.sampleRate.toInt = true ↔ carrier := tableOk_iff _ _ _
  have hchecks := firstFailure_setupChecks s.hw c
  refine ⟨fun h1 => ?_, fun h1 h2 => ?_, fun h1 h2 h3 => ?_, fun h1 h2 h3 h4 => ?_, fun h1 h2 h3 h4 h5 => ?_,
    fun h1 h2 h3 h4 h5 h6 => ?_, fun h1 h2 h3 h4 h5 h6 h7 => ?_⟩
  · exact exec_setup_invalid hm .modKind (by rw [hchecks, if_neg h1])
  · exact exec_setup_invalid hm .fmAbsent (by rw [hchecks, if_pos h1, if_neg h2])
  · exact exec_setup_invalid hm .modIndex (by rw [hchecks, if_pos h1, if_pos h2, if_neg h3])
  · exact exec_setup_invalid hm .wpm (by rw [hchecks, if_pos h1, if_pos h2, if_pos h3, if_neg h4])
  · exact exec_setup_invalid hm .bufLen (by rw [hchecks, if_pos h1, if_pos h2, if_pos h3, if_pos h4, if_neg h5])
  · exact exec_setup_invalid hm .toneTable
      (by rw [hchecks, if_pos h1, if_pos h2, if_pos h3, if_pos h4, if_pos h5, if_neg (mt htone.1 h6)])
  · exact exec_setup_invalid hm .carrierTable (by
      rw [hchecks, if_pos h1, if_pos h2, if_pos h3, if_pos h4, if_pos h5, if_pos (htone.2 h6),
        if_neg (mt hcarrier.1 h7)])

/-! ### The engine's step -/

theorem drawAnswer_of_sinkAnswers {s : State} {answer : Word} {e : Environment} (h : sinkAnswers answer s.env e) :
    drawAnswer s = (answer, s.setEnv e) := by
  rcases h with ⟨hanswers, he⟩ | ⟨hanswers, hfree, he⟩
  · rw [drawAnswer_scripted hanswers, ← he]
  · rw [drawAnswer_free hanswers, ← he, hfree]

theorem step_of_engineMoves {s : State} {e : Environment} (h : engineMoves s e) :
    step s = .next (engineStep (s.setEnv e)) := by
  obtain ⟨hr, hm, hturn⟩ := h
  simp [step, machineStep, hr, hm, drawTurn_of_turnGoesTo hturn]

/-- Settles O52: the request is seen before a frame is begun. -/
theorem engineStepEndsStream : Obligations.EngineStepEndsStream := by
  intro s e hmoves (hstop : (s.setEnv e).stopReq = true)
  rw [step_of_engineMoves hmoves, engineStep, if_pos hstop]
  rfl

/-- Neither the turn nor the answer touches the sink stream. -/
theorem sinkWrites_of_engineMoves {s : State} {e e' : Environment} {answer : Word} (h : engineMoves s e)
    (ha : sinkAnswers answer e e') : e'.sinkWrites = s.env.sinkWrites := by
  obtain ⟨-, -, hturn⟩ := h
  rcases hturn with ⟨-, he⟩ | ⟨-, -, he⟩ <;> rcases ha with ⟨-, he'⟩ | ⟨-, -, he'⟩ <;> rw [he', he]

/-- R39, R132: the count of failures stays at its top. -/
theorem sinkErrAfter_eq (errs answer : Word) :
    sinkErrAfter errs answer =
      if answer.toInt ≤ 0 then BitVec.ofNat 32 (min (errs.toNat + 1) (2 ^ 32 - 1)) else errs := by
  unfold sinkErrAfter
  split
  · split
    next htop => rw [htop]; rfl
    next htop =>
      have hne : errs.toNat ≠ 2 ^ 32 - 1 := fun h => htop (BitVec.eq_of_toNat_eq h)
      have hword := errs.isLt
      apply BitVec.eq_of_toNat_eq
      rw [BitVec.toNat_add, BitVec.toNat_ofNat, show (1 : Word).toNat = 1 from rfl]
      omega
  · rfl

/-- A frame in terms of what the units make (R131). -/
theorem frame_eq (answer : Word) (s : State) :
    frame answer s =
      { s with
        tone := (frameSamples s).2.tone, carrier := (frameSamples s).2.carrier
        cw := (frameSamples s).2.cw, modu := (frameSamples s).2.modu
        frameCount := s.frameCount + 1
        sinkErrCount := sinkErrAfter s.sinkErrCount answer
        env := { s.env with sinkWrites := s.env.sinkWrites ++ [(frameSamples s).1] } } := by
  obtain ⟨tone, carrier, cw, modu, y, hf, -⟩ := frame_spec answer s
  have htone : (frameSamples s).2.tone = tone := congrArg State.tone hf
  have hcarrier : (frameSamples s).2.carrier = carrier := congrArg State.carrier hf
  have hcw : (frameSamples s).2.cw = cw := congrArg State.cw hf
  have hmodu : (frameSamples s).2.modu = modu := congrArg State.modu hf
  have hwrites : (frameSamples s).2.env.sinkWrites ++ [(frameSamples s).1] = s.env.sinkWrites ++ [y] :=
    congrArg (fun t => t.env.sinkWrites) hf
  have hy : (frameSamples s).1 = y := List.singleton_inj.1 (List.append_inj' hwrites rfl).2
  rw [htone, hcarrier, hcw, hmodu, hy, hf]

theorem frameSamples_length (s : State) : (frameSamples s).1.length = s.cfg.bufLen.toNat := by
  simp [frameSamples, modulate_length, gateSamples_eq, gateBuffer_length, generate_length]

/-- What SETUP has derived from the configuration stands under a frame, and in AM the FM phase too. -/
theorem frameSamples_kept (s : State) :
    (frameSamples s).2.cw.ditLen = s.cw.ditLen ∧ (frameSamples s).2.modu.pilot = s.modu.pilot ∧
      (frameSamples s).2.modu.fmK = s.modu.fmK ∧
      (s.cfg.modKind = 0 → (frameSamples s).2.modu.fmPhase = s.modu.fmPhase) := by
  obtain ⟨tone, carrier, cw, modu, y, hf, -, hdit, hpilot, hfmK, hphase, -⟩ := frame_spec 0 s
  have hcw : (frameSamples s).2.cw = cw := congrArg State.cw hf
  have hmodu : (frameSamples s).2.modu = modu := congrArg State.modu hf
  rw [hcw, hmodu]
  exact ⟨hdit, hpilot, hfmK, hphase⟩

/-- Settles O53: the turn and the answer are drawn, and then the step is the frame. -/
theorem engineStepWritesOneFrame : Obligations.EngineStepWritesOneFrame := by
  intro s e e' answer hmoves (hstop : (s.setEnv e).stopReq = false) hanswer made
  have hdraw : drawAnswer (s.setEnv e) = (answer, { s with env := e' }) := drawAnswer_of_sinkAnswers hanswer
  have hstep : step s = .next (frame answer { s with env := e' }) := by
    rw [step_of_engineMoves hmoves, engineStep, hstop, hdraw]
    rfl
  have hcount : BitVec.ofNat 32 (s.frameCount.toNat + 1) = s.frameCount + 1 := by simp [BitVec.ofNat_add]
  obtain ⟨hdit, hpilot, hfmK, hphase⟩ := frameSamples_kept { s with env := e' }
  refine ⟨frameSamples_length _, hdit, hpilot, hfmK, hphase, hstep, ?_⟩
  rw [hstep, frame_eq, sinkErrAfter_eq, ← sinkWrites_of_engineMoves hmoves hanswer, hcount]

end Sys2Proof.Machine
end

section
/-! PROOFS. A frame as the units run one after the other: it is the commands GEN, GEN, GATE and MOD in turn, and frames
in a row are one long frame (spec/44_session_control.md R126, R131, R134). -/

namespace Sys2Proof.Machine

/-! ### The units, run for a number of samples -/

/-- The carrier samples with the gated tone samples, `n` of each, and the state after the two channels and the gate. -/
def gatedRun (n : Nat) (s : State) : List (Sample × Sample) × State :=
  let c := generate .carrier n s
  let t := generate .tone n c.2
  let g := gateSamples t.1 t.2
  (c.1.zip g.1, g.2)

/-- The units run for `n` samples (R126); a frame takes `n` from BUF_LEN. -/
def runUnits (n : Nat) (s : State) : List Sample × State := modulate (gatedRun n s).1 (gatedRun n s).2

theorem frameSamples_eq_runUnits (s : State) : frameSamples s = runUnits s.cfg.bufLen.toNat s := rfl

/-- The generator state that `generate` reads from (R83, R84). -/
def State.reads (s : State) (ch : Channel) : GeneratorState := builtState s.hw s.cfg ch (s.chan ch)

/-- `s` with other channels and another CW state. That this update commutes with others holds by `rfl` as long as the
channels are variables; with a build in their place the kernel would unfold it. -/
def State.setRun (s : State) (gc gt : GeneratorState) (c : CWState) : State :=
  ((s.setChan .carrier gc).setChan .tone gt).setCw c

/-- Both channels built and moved on by `n` samples, and the gate moved on by the samples `xs`. -/
def State.moved (s : State) (n : Nat) (xs : List Sample) : State :=
  s.setRun (advanceCursor (s.reads .carrier) n) (advanceCursor (s.reads .tone) n) (gateBuffer s.hw s.pat s.cw xs).2

@[simp] theorem State.moved_hw (s : State) (n : Nat) (xs : List Sample) : (s.moved n xs).hw = s.hw := rfl

@[simp] theorem State.moved_pat (s : State) (n : Nat) (xs : List Sample) : (s.moved n xs).pat = s.pat := rfl

@[simp] theorem State.moved_modu (s : State) (n : Nat) (xs : List Sample) : (s.moved n xs).modu = s.modu := rfl

@[simp] theorem State.moved_cw (s : State) (n : Nat) (xs : List Sample) :
    (s.moved n xs).cw = (gateBuffer s.hw s.pat s.cw xs).2 := rfl

/-- A channel that has moved on is built, so it is read from where it is. -/
@[simp] theorem State.reads_moved (s : State) (n : Nat) (xs : List Sample) (ch : Channel) :
    (s.moved n xs).reads ch = advanceCursor (s.reads ch) n := by
  cases ch <;> exact builtState_of_built (builtState_built _ _ _ _)

theorem State.moved_moved {s : State} (hpos : ∀ ch, 0 < (s.reads ch).len.toNat) (n1 n2 : Nat) (xs ys : List Sample) :
    (s.moved n1 xs).moved n2 ys = s.moved (n1 + n2) (xs ++ ys) := by
  rw [State.moved, State.reads_moved, State.reads_moved, advanceCursor_add _ _ _ (hpos _),
    advanceCursor_add _ _ _ (hpos _), State.moved, State.moved, gateBuffer_append]
  rfl

theorem gatedRun_pos {n : Nat} (hn : n ≠ 0) (s : State) :
    gatedRun n s =
      ((channelSamples .carrier (s.reads .carrier) n).zip
          (gateBuffer s.hw s.pat s.cw (channelSamples .tone (s.reads .tone) n)).1,
        s.moved n (channelSamples .tone (s.reads .tone) n)) := by
  simp only [gatedRun, generate_pos _ hn]
  rfl

@[simp] theorem gatedRun_zero (s : State) : gatedRun 0 s = ([], s) := by simp [gatedRun, gateSamples]

@[simp] theorem modulate_nil (s : State) : modulate [] s = ([], s) := by
  unfold modulate
  split <;> rfl

@[simp] theorem runUnits_zero (s : State) : runUnits 0 s = ([], s) := by simp [runUnits]

/-- R89, R108: running on from where the first `n1` samples have left the channels and the gate. -/
theorem gatedRun_add {s : State} (h : Inv s) (hv : s.sessionValid = true) (n1 n2 : Nat) :
    gatedRun (n1 + n2) s =
      ((gatedRun n1 s).1 ++ (gatedRun n2 (gatedRun n1 s).2).1, (gatedRun n2 (gatedRun n1 s).2).2) := by
  have hpos : ∀ ch, 0 < (s.reads ch).len.toNat := fun ch =>
    lt_of_lt_of_le (by decide) ((h.builtState hv ch).1.long (builtState_built _ _ _ _))
  rcases Nat.eq_zero_or_pos n1 with rfl | h1
  · simp
  rcases Nat.eq_zero_or_pos n2 with rfl | h2
  · simp
  rw [gatedRun_pos (by omega) s, gatedRun_pos h1.ne', gatedRun_pos h2.ne', State.reads_moved, State.reads_moved,
    State.moved_moved hpos, channelSamples_add _ _ _ _ (hpos _), channelSamples_add _ _ _ _ (hpos _),
    gateBuffer_append, List.zip_append (by rw [channelSamples_length, gateBuffer_length, channelSamples_length])]
  simp only [State.moved_hw, State.moved_pat, State.moved_cw]

theorem State.reads_setModu (s : State) (m : ModulatorState) (ch : Channel) :
    (s.setModu m).reads ch = s.reads ch := rfl

theorem State.setRun_setModu (s : State) (m : ModulatorState) (gc gt : GeneratorState) (c : CWState) :
    (s.setModu m).setRun gc gt c = (s.setRun gc gt c).setModu m := rfl

/-- The channels and the gate do not read the modulator state. -/
theorem gatedRun_setModu (n : Nat) (s : State) (m : ModulatorState) :
    gatedRun n (s.setModu m) = ((gatedRun n s).1, (gatedRun n s).2.setModu m) := by
  rcases Nat.eq_zero_or_pos n with rfl | hn
  · simp
  rw [gatedRun_pos hn.ne', gatedRun_pos hn.ne', State.moved, State.reads_setModu, State.reads_setModu,
    State.setModu_hw, State.setModu_pat, State.setModu_cw, State.setRun_setModu, State.moved]

/-- The modulator does not read what the channels and the gate write. -/
theorem modulate_gatedRun (buf : List (Sample × Sample)) (n : Nat) (s : State) :
    modulate buf (gatedRun n s).2 = ((modulate buf s).1, (gatedRun n (modulate buf s).2).2) := by
  rcases Nat.eq_zero_or_pos n with rfl | hn
  · simp
  by_cases hk : s.cfg.modKind = 0
  · rw [modulate_am hk, gatedRun_pos hn.ne', modulate_am (s := s.moved n _) hk]
    rfl
  · rw [modulate_fm hk, gatedRun_setModu, gatedRun_pos hn.ne', modulate_fm (s := s.moved n _) hk, State.moved_hw,
      State.moved_modu]

/-- R89, R108, R124: running on from where the first `n1` samples have left the units. -/
theorem runUnits_add {s : State} (h : Inv s) (hv : s.sessionValid = true) (n1 n2 : Nat) :
    runUnits (n1 + n2) s =
      ((runUnits n1 s).1 ++ (runUnits n2 (runUnits n1 s).2).1, (runUnits n2 (runUnits n1 s).2).2) := by
  obtain ⟨ph, hm, -⟩ := modulate_state (gatedRun n1 s).1 (gatedRun n1 s).2
  unfold runUnits
  rw [gatedRun_add h hv, modulate_append, modulate_gatedRun, hm, gatedRun_setModu]

/-! ### The units inside another state -/

/-- `o` with what the units read or write taken from `s`: the build, the configuration but for BUF_LEN, the channels,
the pattern, the CW state and the modulator state. -/
def State.unitsIn (s o : State) : State :=
  { o with
    hw := s.hw, cfg := { s.cfg with bufLen := o.cfg.bufLen }
    tone := s.tone, carrier := s.carrier, pat := s.pat, cw := s.cw, modu := s.modu }

/-- No channel's build depends on BUF_LEN. -/
theorem State.reads_unitsIn (s o : State) (ch : Channel) : (s.unitsIn o).reads ch = s.reads ch := rfl

theorem State.setRun_unitsIn (s o : State) (gc gt : GeneratorState) (c : CWState) :
    (s.unitsIn o).setRun gc gt c = (s.setRun gc gt c).unitsIn o := rfl

theorem State.unitsIn_hw (s o : State) : (s.unitsIn o).hw = s.hw := rfl

theorem State.unitsIn_pat (s o : State) : (s.unitsIn o).pat = s.pat := rfl

theorem State.unitsIn_cw (s o : State) : (s.unitsIn o).cw = s.cw := rfl

theorem gatedRun_unitsIn (n : Nat) (s o : State) :
    gatedRun n (s.unitsIn o) = ((gatedRun n s).1, (gatedRun n s).2.unitsIn o) := by
  rcases Nat.eq_zero_or_pos n with rfl | hn
  · simp
  rw [gatedRun_pos hn.ne', gatedRun_pos hn.ne', State.moved, State.reads_unitsIn, State.reads_unitsIn,
    State.unitsIn_hw, State.unitsIn_pat, State.unitsIn_cw, State.setRun_unitsIn, State.moved]

theorem modulate_unitsIn (buf : List (Sample × Sample)) (s o : State) :
    modulate buf (s.unitsIn o) = ((modulate buf s).1, (modulate buf s).2.unitsIn o) := by
  by_cases hk : s.cfg.modKind = 0
  · rw [modulate_am hk, modulate_am (s := s.unitsIn o) hk]
    rfl
  · rw [modulate_fm hk, modulate_fm (s := s.unitsIn o) hk]
    rfl

theorem runUnits_unitsIn (n : Nat) (s o : State) :
    runUnits n (s.unitsIn o) = ((runUnits n s).1, (runUnits n s).2.unitsIn o) := by
  rw [runUnits, gatedRun_unitsIn, modulate_unitsIn]
  rfl

/-! ### A frame and the commands -/

theorem ConfigOk.bufLen {hw : Params} {c : CfgRegs} (h : ConfigOk hw c) :
    1 ≤ c.bufLen.toNat ∧ c.bufLen.toNat ≤ hw.bufMax.toNat := by
  rw [ConfigOk, firstFailure_setupChecks] at h
  split_ifs at h
  assumption

/-- An IDLE block with a session: BUSY and NOT_READY do not apply. -/
def IdleSession (o : State) : Prop := o.mode = .idle ∧ o.sessionValid = true

theorem IdleSession.answered {o : State} (h : IdleSession o) (err detail : BitVec 8) (ws : List Word) :
    IdleSession (Machine.answered err detail ws o) := h

section Commands

variable {s o : State} (h : IdleSession o)
include h

theorem exec_gen_unitsIn (ch : Channel) {n : Word} (hmax : n.toNat ≤ s.hw.bufMax.toNat) (hn : n.toNat ≠ 0) :
    exec (.gen ch n) (s.unitsIn o) =
      .next ((s.setChan ch (advanceCursor (s.reads ch) n.toNat)).unitsIn
        (answered 0 0 (0 :: bufferWords (channelSamples ch (s.reads ch) n.toNat)) o)) := by
  rw [exec_gen, checked_count (s := s.unitsIn o) h.1 h.2 hmax, generate_pos ch hn, complete_ok_eq_answered]
  cases ch <;> rfl

theorem exec_gate_unitsIn {buf : List Sample} (hmax : buf.length ≤ s.hw.bufMax.toNat) :
    exec (.gate buf) (s.unitsIn o) =
      .next ((s.setCw (gateBuffer s.hw s.pat s.cw buf).2).unitsIn
        (answered 0 0 (0 :: bufferWords (gateBuffer s.hw s.pat s.cw buf).1) o)) := by
  rw [exec_gate_of_session (s := s.unitsIn o) h.1 h.2 hmax, gateBuffer_state]
  rfl

theorem exec_mod_unitsIn {buf : List (Sample × Sample)} (hmax : buf.length ≤ s.hw.bufMax.toNat) :
    exec (.mod buf) (s.unitsIn o) =
      .next ((modulate buf s).2.unitsIn (answered 0 0 (0 :: bufferWords (modulate buf s).1) o)) := by
  rw [exec_mod_of_session (s := s.unitsIn o) h.1 h.2 hmax, modulate_unitsIn]
  rfl

end Commands

/-- Settles O54: each command runs its unit on what the one before it has left. -/
theorem frameIsTheCommandsInTurn : Obligations.FrameIsTheCommandsInTurn := by
  intro s answer h hm
  have hv : s.sessionValid = true := h.running hm
  obtain ⟨hpos, hmax⟩ := (h.session hv).config.bufLen
  have hn : s.cfg.bufLen.toNat ≠ 0 := by omega
  let t := channelSamples .tone (s.reads .tone) s.cfg.bufLen.toNat
  let pairs := (channelSamples .carrier (s.reads .carrier) s.cfg.bufLen.toNat).zip (gateBuffer s.hw s.pat s.cw t).1
  have htone : t.length ≤ s.hw.bufMax.toNat := (channelSamples_length _ _ _).trans_le hmax
  have hpairs : pairs.length ≤ s.hw.bufMax.toNat := by
    rw [List.length_zip, gateBuffer_length]
    exact (Nat.min_le_right _ _).trans htone
  have hrun : frameSamples s = modulate pairs (s.moved s.cfg.bufLen.toNat t) := by
    rw [frameSamples_eq_runUnits, runUnits, gatedRun_pos hn]
  have idle : IdleSession { s with mode := .idle } := ⟨rfl, hv⟩
  refine ⟨_, t, _, _, _, _, _, _, exec_gen_unitsIn (s := s) idle .carrier hmax hn, rfl,
    exec_gen_unitsIn (idle.answered _ _ _) .tone hmax hn, rfl,
    exec_gate_unitsIn ((idle.answered _ _ _).answered _ _ _) htone, rfl,
    exec_mod_unitsIn (((idle.answered _ _ _).answered _ _ _).answered _ _ _) hpairs, rfl, ?_⟩
  rw [frame_eq, hrun]
  exact ⟨rfl, rfl, rfl, rfl, rfl⟩

/-! ### k frames as one -/

/-- The state elements that the units write. -/
def State.units (s : State) : GeneratorState × GeneratorState × CWState × ModulatorState :=
  (s.tone, s.carrier, s.cw, s.modu)

theorem State.units_unitsIn (s o : State) : (s.unitsIn o).units = s.units := rfl

theorem frame_eq_unitsIn (answer : Word) (s : State) :
    frame answer s = (runUnits s.cfg.bufLen.toNat s).2.unitsIn (frame answer s) := rfl

theorem units_frame (answer : Word) (s : State) :
    (frame answer s).units = (runUnits s.cfg.bufLen.toNat s).2.units := rfl

theorem frame_cfg (answer : Word) (s : State) : (frame answer s).cfg = s.cfg := by rw [frame_eq]

theorem sinkWords_frame (answer : Word) (s : State) :
    sinkWords (frame answer s) = sinkWords s ++ bufferWords (runUnits s.cfg.bufLen.toNat s).1 := by
  rw [frame_eq, frameSamples_eq_runUnits]
  simp [sinkWords]

/-- After a frame the units run on from where it has left them. -/
theorem runUnits_frame (n : Nat) (answer : Word) (s : State) :
    runUnits n (frame answer s) =
      ((runUnits n (runUnits s.cfg.bufLen.toNat s).2).1,
        (runUnits n (runUnits s.cfg.bufLen.toNat s).2).2.unitsIn (frame answer s)) :=
  (congrArg (runUnits n) (frame_eq_unitsIn answer s)).trans (runUnits_unitsIn _ _ _)

theorem frames_cons (a : Word) (as : List Word) (s : State) : frames (a :: as) s = frames as (frame a s) := by
  rw [frames, List.foldl_cons, frames]

/-- R134: frames in a row run the units for all their samples. -/
theorem frames_eq_runUnits (answers : List Word) {s : State} (h : Inv s) (hv : s.sessionValid = true) :
    sinkWords (frames answers s) =
        sinkWords s ++ bufferWords (runUnits (answers.length * s.cfg.bufLen.toNat) s).1 ∧
      (frames answers s).units = (runUnits (answers.length * s.cfg.bufLen.toNat) s).2.units := by
  induction answers generalizing s with
  | nil => simp [frames, bufferWords_nil]
  | cons a as ih =>
    obtain ⟨hwords, hunits⟩ := ih (h.frame hv a) ((frame_sessionValid a s).trans hv)
    rw [frame_cfg, runUnits_frame] at hwords hunits
    have hlen : (a :: as).length * s.cfg.bufLen.toNat = s.cfg.bufLen.toNat + as.length * s.cfg.bufLen.toNat := by
      rw [List.length_cons, Nat.succ_mul, Nat.add_comm]
    rw [frames_cons, hlen, runUnits_add h hv, bufferWords_append, ← List.append_assoc, ← sinkWords_frame a s]
    exact ⟨hwords, hunits.trans (State.units_unitsIn _ _)⟩

/-- `s` with another frame length. -/
def State.setBufLen (s : State) (n : Word) : State := { s with cfg := { s.cfg with bufLen := n } }

theorem runUnits_setBufLen (n : Nat) (s : State) (bufLen : Word) :
    runUnits n (s.setBufLen bufLen) = ((runUnits n s).1, (runUnits n s).2.unitsIn (s.setBufLen bufLen)) :=
  runUnits_unitsIn n s (s.setBufLen bufLen)

/-- Settles O55: one long frame runs the units for as many samples. -/
theorem frameBoundariesAreInvisible : Obligations.FrameBoundariesAreInvisible := by
  intro s answers answer h hv _ hlt
  obtain ⟨hwords, hunits⟩ := frames_eq_runUnits answers h hv
  let n := answers.length * s.cfg.bufLen.toNat
  have hn : (s.setBufLen (BitVec.ofNat 32 n)).cfg.bufLen.toNat = n := Nat.mod_eq_of_lt hlt
  have hsink := sinkWords_frame answer (s.setBufLen (BitVec.ofNat 32 n))
  have hone := units_frame answer (s.setBufLen (BitVec.ofNat 32 n))
  rw [hn, runUnits_setBufLen] at hsink hone
  have hall := hunits.trans hone.symm
  simp only [State.units, Prod.mk.injEq] at hall
  exact ⟨hwords.trans hsink.symm, hall⟩

end Sys2Proof.Machine
end

section
/-! PROOFS. NOP and WRCFG (spec/45_register_access.md R136, R137). -/

namespace Sys2Proof.Machine

/-- Settles O16: NOP has no check and no payload. -/
theorem nopOnlyClearsStatus : Obligations.NopOnlyClearsStatus := fun s =>
  (exec_nop s).trans (congrArg _ (complete_ok_eq_answered [] s))

/-- R137: the one check of WRCFG passes in an IDLE block. -/
theorem exec_wrcfg_of_idle {s : State} (hm : s.mode = .idle) (r : CfgReg) (v : Word) :
    exec (.wrcfg r v) s = .next (answered 0 0 [0] ((s.setCfg (s.cfg.set r v)).setSessionValid false)) := by
  rw [exec_wrcfg, checked_idle hm, complete_ok_eq_answered]

/-- Settles O17: `CfgRegs.set` at each register is the update of its field. -/
theorem wrcfgWritesOneRegister : Obligations.WrcfgWritesOneRegister := fun _ v hm =>
  have h := fun r => exec_wrcfg_of_idle hm r v
  ⟨h .sampleRate, h .toneFreq, h .carrierFreq, h .modKind, h .modIndex, h .wpm, h .padding, h .bufLen⟩

/-- Settles O60: an IDLE block writes the register and clears the session, a RUNNING one refuses the command. -/
theorem wrcfgLeavesDerivedState : Obligations.WrcfgLeavesDerivedState := by
  intro s t r v ht
  cases hm : s.mode with
  | idle =>
    rw [exec_wrcfg_of_idle hm] at ht
    injection ht with ht
    subst ht
    exact ⟨rfl, rfl, rfl, rfl, rfl, rfl, rfl, hm, fun _ => ⟨rfl, fun r' => CfgRegs.get_set s.cfg r r' v⟩⟩
  | running =>
    rw [exec_busy hm rfl] at ht
    injection ht with ht
    subst ht
    exact ⟨rfl, rfl, rfl, rfl, rfl, rfl, rfl, hm, nofun⟩

end Sys2Proof.Machine
end

section
/-! PROOFS. The exceptions of the block as a whole (spec/60_exceptions.md R139, R140, R142, R144, R149): an error has no
partial effect, no step stops the block, and the work commands need a session. -/

namespace Sys2Proof.Machine

/-! ### Precise errors -/

/-- R71, R144: a failed command in the terms of what it recorded. -/
theorem failCommand_eq_answered (st : Status) (s : State) :
    failCommand st s = answered (statusCode st) (detailCode st) [(0 : BitVec 16) ++ detailCode st ++ statusCode st] s :=
  rfl

/-- Settles O24: a command that ends with a status other than OK has failed one of its checks, before any effect. -/
theorem failedCommandHasNoPartialEffect : Obligations.FailedCommandHasNoPartialEffect := by
  intro i s t ht herr
  rcases exec_cases s i with ⟨st, -, he⟩ | ⟨payload, u, -, -, he⟩ <;> rw [he] at ht <;> cases ht
  · exact failCommand_eq_answered st s
  · exact absurd (complete_lastErr u .ok payload) herr

/-! ### No step stops the block -/

/-- R139: waiting, an illegal command and a command each leave a next state. -/
theorem exists_hostStep_eq_next (s : State) : ∃ t, hostStep s = .next t := by
  rcases hostStep_cases s with ⟨-, h⟩ | ⟨d, rest, -, h⟩ | ⟨i, rest, -, h⟩
  · exact ⟨_, h⟩
  · exact ⟨_, h⟩
  · obtain ⟨t, -, ht, -⟩ := everyCommandRecordsItsStatus i (s.setCmdIn rest)
    exact ⟨t, h.trans ht⟩

theorem exists_step_eq_next (s : State) : ∃ t, step s = .next t := by
  rcases step_cases s with ⟨-, h⟩ | ⟨-, ⟨-, h⟩ | ⟨-, turns, draws, h | h⟩⟩
  · exact ⟨_, h⟩
  · exact h ▸ exists_hostStep_eq_next s
  · exact h ▸ exists_hostStep_eq_next (s.setTurns turns draws)
  · exact ⟨_, h⟩

/-- R56: the next turn is always somebody's. -/
theorem exists_turnGoesTo (e : Environment) : ∃ a e', turnGoesTo a e e' := by
  cases hturns : e.turns with
  | cons a rest => exact ⟨a, { e with turns := rest }, .inl ⟨hturns, rfl⟩⟩
  | nil =>
    cases hfree : Config.engineMovesNext e.draws with
    | true => exact ⟨.engine, _, .inr ⟨hturns, hfree, rfl⟩⟩
    | false => exact ⟨.host, _, .inr ⟨hturns, hfree, rfl⟩⟩

theorem exists_hostMoves_or_engineMoves {s : State} (hr : s.env.resetReq = false) :
    ∃ e, hostMoves s e ∨ engineMoves s e := by
  cases hm : s.mode with
  | idle => exact ⟨s.env, .inl ⟨hr, .inl ⟨hm, rfl⟩⟩⟩
  | running =>
    obtain ⟨a, e, hturn⟩ := exists_turnGoesTo s.env
    cases a with
    | host => exact ⟨e, .inl ⟨hr, .inr ⟨hm, hturn⟩⟩⟩
    | engine => exact ⟨e, .inr ⟨hr, hm, hturn⟩⟩

/-- Settles O10: every kind of step answers a next state, and while RUNNING the turn drawn is the host's or the
engine's. -/
theorem everyStepGoesOn : Obligations.EveryStepGoesOn := fun s =>
  ⟨exists_step_eq_next s, exists_hostMoves_or_engineMoves⟩

/-! ### No session -/

/-- R140, R142: in an IDLE block without a session the second check fails, whatever the checks behind it say. -/
theorem checked_notReady {s : State} (hm : s.mode = .idle) (hv : s.sessionValid = false) (cs : List Check)
    (effect : State → State) :
    checked (idleCheck s :: sessionCheck s :: cs) s effect = .next (answered 3 0 [0x00000003] s) := by
  have hfail : firstFailure (idleCheck s :: sessionCheck s :: cs) = some .notReady := by
    simp [idleCheck_eq, sessionCheck_eq, hm, hv]
  exact checked_of_some hfail s effect

/-- Settles O21: the four commands share those first two checks. -/
theorem noSessionIsNotReady : Obligations.NoSessionIsNotReady := by
  rintro s i hm hv (⟨ch, n, rfl⟩ | ⟨buf, rfl⟩ | ⟨buf, rfl⟩ | rfl)
  · exact (exec_gen s ch n).trans (checked_notReady hm hv _ _)
  · exact (exec_gate s buf).trans (checked_notReady hm hv _ _)
  · exact (exec_mod s buf).trans (checked_notReady hm hv _ _)
  · exact (exec_run s).trans (checked_notReady hm hv _ _)

end Sys2Proof.Machine
end

section
/-! PROOFS. The reset event (spec/70_reset_and_hazards.md R158, spec/10_state.md R44): what it keeps of the command
stream, and its step. -/

namespace Sys2Proof.Machine

/-! ### The complete commands at the head of a stream -/

/-- R65: two words and a payload of the length they give are a whole command, legal or not. -/
theorem WholeCommands.cons {w0 w1 : Word} {p rest : List Word} (hp : p.length = payloadLength w0 w1)
    (more : WholeCommands rest) : WholeCommands (w0 :: w1 :: (p ++ rest)) := by
  cases hd : decodeCommand w0 w1 p with
  | error d => exact .illegal _ rest d (decode_error hp.symm hd) more
  | ok i => exact .command _ rest i (decode_ok hp.symm hd) more

theorem completeCommands_cons {w0 w1 : Word} {p : List Word} (hp : p.length = payloadLength w0 w1) (fuel : Nat)
    (rest : List Word) :
    completeCommands (fuel + 1) (w0 :: w1 :: (p ++ rest)) = w0 :: w1 :: (p ++ completeCommands fuel rest) := by
  simp [completeCommands, ← hp]

theorem completeCommands_of_incomplete {ws : List Word} (h : decode ws = .incomplete) (fuel : Nat) :
    completeCommands fuel ws = [] := by
  match fuel, ws with
  | 0, _ | _ + 1, [] | _ + 1, [_] => rfl
  | fuel + 1, w0 :: w1 :: rest =>
    have hshort : rest.length < payloadLength w0 w1 := by
      by_contra hlong
      rw [decode, if_neg hlong] at h
      split at h <;> cases h
    exact if_pos hshort

/-- With fuel for every word, the stream splits into whole commands and the incomplete one behind them. -/
theorem completeCommands_split {fuel : Nat} {ws : List Word} (h : ws.length ≤ fuel) :
    WholeCommands (completeCommands fuel ws) ∧
      ∃ part, ws = completeCommands fuel ws ++ part ∧ decode part = .incomplete := by
  induction fuel generalizing ws with
  | zero =>
    obtain rfl := List.eq_nil_of_length_eq_zero (Nat.le_zero.mp h)
    exact ⟨.none, [], rfl, rfl⟩
  | succ fuel ih =>
    rcases decode_cases ws with hd | ⟨w0, w1, p, rest, rfl, hp, -⟩
    · rw [completeCommands_of_incomplete hd]
      exact ⟨.none, ws, rfl, hd⟩
    · have hfuel : rest.length ≤ fuel := by
        simp only [List.length_cons, List.length_append] at h
        omega
      obtain ⟨hwhole, part, hsplit, hpart⟩ := ih hfuel
      rw [completeCommands_cons hp]
      refine ⟨hwhole.cons hp, part, ?_, hpart⟩
      rw [List.cons_append, List.cons_append, List.append_assoc, ← hsplit]

/-! ### The reset event -/

/-- R44, R158: whatever the state before, each element is that of `State.reset`. -/
theorem atReset_applyReset (s : State) : atReset (applyReset s) := resetValues.1

theorem step_of_resetReq {s : State} (h : s.env.resetReq = true) : step s = .next (applyReset s) := if_pos h

/-- Settles O12: the step is the reset event, and it keeps the complete commands at the head of the stream. -/
theorem resetEventDiscardsPartialCommand : Obligations.ResetEventDiscardsPartialCommand := fun s hreset =>
  ⟨applyReset s, step_of_resetReq hreset, atReset_applyReset s, rfl, rfl, rfl, rfl, rfl,
    completeCommands_split (Nat.le_refl s.env.cmdIn.length)⟩

end Sys2Proof.Machine
end
